-- ==== Sys2Proof/Word.lean ====
section
/-! DEFINITION. The word types of the framer (spec 10_state R20, 30_encoding R98). -/

namespace Sys2Proof

/-- One byte of the canonical block (R41) or of an encoded item. -/
abbrev Byte := BitVec 8

/-- A logical 32-bit word (R25, R62). -/
abbrev Word := BitVec 32

/-- A group: the 64 raw bits that carry one word (R67, R97). -/
abbrev Group := BitVec 64

/-- The 16-bit window and the marker (R23, R96). -/
abbrev Window := BitVec 16

/-- A data rate tag (R99). The spec gives it no type; 32 bits: DESIGN CHOICE, log 10. -/
abbrev Rate := BitVec 32

end Sys2Proof
end

