-- ==== Sys2Proof/Machine/Bits.lean ====
section
/-! DEFINITION. Bit order and byte order, decided once for every place that needs them (spec 20_memory R65 to R67,
30_encoding R98): the first bit and the first byte are the most significant. -/

namespace Sys2Proof.Machine

/-- The bits of a value in delivery order, the most significant first (R66). -/
def toBits {n : Nat} (v : BitVec n) : List Bool := (List.range n).map fun i => v.getMsbD i

/-- The number whose binary digits are these, the first the most significant (R12, R66). -/
def natOfBits (bs : List Bool) : Nat := bs.foldl (fun a b => 2 * a + b.toNat) 0

/-- The `n`-bit value of a run of stream bits, the first delivered the most significant (R66). -/
def ofBits (n : Nat) (bs : List Bool) : BitVec n := BitVec.ofNat n (natOfBits bs)

/-- `n` bytes of a number, the most significant first (R65). -/
def bytesOfNat : Nat → Nat → List Byte
  | 0, _ => []
  | n + 1, v => BitVec.ofNat 8 (v / 256 ^ n) :: bytesOfNat n v

/-- The number these bytes spell, the first the most significant (R65). -/
def natOfBytes (bs : List Byte) : Nat := bs.foldl (fun a b => 256 * a + b.toNat) 0

@[simp] theorem length_toBits {n : Nat} (v : BitVec n) : (toBits v).length = n := by simp [toBits]

theorem natOfBits_append_one (bs : List Bool) (b : Bool) :
    natOfBits (bs ++ [b]) = 2 * natOfBits bs + b.toNat := by simp [natOfBits]

theorem testBit_natOfBits (bs : List Bool) (i : Nat) :
    (natOfBits bs).testBit i = bs.reverse.getD i false := by
  induction bs using List.reverseRecOn generalizing i with
  | nil => simp [natOfBits]
  | append_singleton bs b ih =>
    rw [natOfBits_append_one, List.reverse_append]
    cases i with
    | zero => cases b <;> simp
    | succ i =>
      have : (2 * natOfBits bs + b.toNat) / 2 = natOfBits bs := by cases b <;> simp; omega
      simp [Nat.testBit_succ, this, ih]

/-- Bit `i` of the value of a run of bits, counted from its last bit. -/
theorem getLsbD_ofBits (n : Nat) (bs : List Bool) (i : Nat) :
    (ofBits n bs).getLsbD i = (decide (i < n) && bs.reverse.getD i false) := by
  simp [ofBits, BitVec.getLsbD_ofNat, testBit_natOfBits]

/-- Reading back the bits a value was spelt with. -/
theorem ofBits_toBits {n : Nat} (v : BitVec n) : ofBits n (toBits v) = v := by
  apply BitVec.eq_of_getLsbD_eq
  intro i hi
  rw [getLsbD_ofBits]
  have : (toBits v).reverse.getD i false = v.getLsbD i := by
    rw [List.getD_eq_getElem?_getD, List.getElem?_reverse (by simpa using hi)]
    have h1 : n - 1 - i < n := by omega
    have h2 : n - 1 - (n - 1 - i) = i := by omega
    rw [length_toBits, List.getElem?_eq_getElem (by simpa using h1)]
    simp only [toBits, List.getElem_map, List.getElem_range, BitVec.getMsbD, Option.getD_some, h2]
    simp [h1]
  rw [this]
  simp [hi]

/-- Spelling back the bits a value was read from. -/
theorem toBits_ofBits {n : Nat} (bs : List Bool) (h : bs.length = n) : toBits (ofBits n bs) = bs := by
  apply List.ext_getElem
  · simp [h]
  · intro i h1 h2
    have hi : i < n := by simpa using h1
    simp only [toBits, List.getElem_map, List.getElem_range, BitVec.getMsbD]
    rw [getLsbD_ofBits, List.getD_eq_getElem?_getD, List.getElem?_reverse (by omega)]
    simp [hi, h, show n - 1 - (n - 1 - i) = i by omega, show n - 1 - i < n by omega]

@[simp] theorem length_bytesOfNat (n v : Nat) : (bytesOfNat n v).length = n := by
  induction n with
  | zero => rfl
  | succ n ih => simp [bytesOfNat, ih]

end Sys2Proof.Machine
end

