-- ==== Sys2Proof/Machine/Codec.lean ====
section
/-! DEFINITION. The reference codec (spec 42_collaborators R181, R182; 93_implementation_defined G1, G2), the default
instance of the codec parameter (00_scope R8). -/

namespace Sys2Proof.Machine

/-- R181: the data bits of both passes merged, clock bits ignored. -/
def refDemod (g : Group) : Word :=
  let hi : Word := g.extractLsb' 32 32
  let lo : Word := g.extractLsb' 0 32
  ((hi &&& 0x55555555#32) <<< 1) ||| (lo &&& 0x55555555#32)

/-- R182: the 32 data bits in track order, the odd pass (31, 29, …, 1) and then the even pass (30, 28, …, 0). -/
def dataBits (w : Word) : List Bool :=
  ((List.range 16).map fun j => w.getLsbD (31 - 2 * j)) ++ ((List.range 16).map fun j => w.getLsbD (30 - 2 * j))

/-- R182: each data bit as clock then data; the clock is 1 exactly when the data bits on both sides are 0. -/
def mfmCells : Bool → List Bool → List Bool
  | _, [] => []
  | p, d :: ds => (!p && !d) :: d :: mfmCells d ds

/-- R182: `Mod(p, w)` of the reference codec, the first raw bit `g[63]`. -/
def refMod (p : Bool) (w : Word) : Group := ofBits 64 (mfmCells p (dataBits w))

/-- The law of R178 for the reference codec: `Demod` reads back exactly the data bits. -/
theorem refDemod_refMod (p : Bool) (w : Word) : refDemod (refMod p w) = w := by
  apply BitVec.eq_of_getLsbD_eq
  intro i hi
  simp only [refDemod, BitVec.getLsbD_or, BitVec.getLsbD_shiftLeft, BitVec.getLsbD_and, BitVec.getLsbD_extractLsb',
    refMod, getLsbD_ofBits]
  have hr : List.range 16 = [0, 1, 2, 3, 4, 5, 6, 7, 8, 9, 10, 11, 12, 13, 14, 15] := by decide
  simp only [dataBits, hr, List.map_cons, List.map_nil, List.cons_append, List.nil_append, mfmCells,
    List.reverse_cons, List.reverse_nil]
  interval_cases i <;> simp

end Sys2Proof.Machine
end

