-- ==== Sys2Proof/Config.lean ====
section
/-! DEFINITION. The constants (spec 00_scope R6, R7) and the open parameters (R8) of the framer. -/

namespace Sys2Proof

/-- The codec parameter: two total functions with the one law R178 asks of them, and nothing else.
The defaults are the reference codec of R181, R182. -/
structure Codec where
  /-- `Demod(g)` (R179). -/
  demod : Group → Word := Machine.refDemod
  /-- `Mod(p, w)` (R180), `p` the raw bit that precedes the group on the track. -/
  mod : Bool → Word → Group := Machine.refMod
  /-- R178: for every bit `p` and word `w`, `Demod(Mod(p, w)) = w`. -/
  law : ∀ p w, demod (mod p w) = w := by exact Machine.refDemod_refMod
deriving Inhabited

/-- The reference codec (R181, R182). -/
def Codec.reference : Codec where

/-- What an index seek of an open cursor answers, and where it leaves the cursor (R174). -/
structure Sought where
  /-- The revolution length. -/
  length : Nat
  /-- The place in the stream. -/
  place : Nat
  /-- The cursor's further state. -/
  memo : Nat
deriving DecidableEq, Repr, Inhabited

/-- The cursor parameter (R8): its state is a place in one fixed bit sequence and a further number, which changes as bits pass
and seeks are made (what an `EXH` does to it is DESIGN CHOICE, log 8); its four operations (R171 to R174) are open but for
the laws of R177 (b), (c), (d) and R175. Law (a), finiteness, is not asked
for: a statement that needs it takes it as a premise (93 U8). -/
structure CursorSource where
  /-- The fixed bit sequence, which may end or not (R177 (c)). -/
  bitAt : Nat → Option Bool := fun _ => none
  /-- The further state after a bit is delivered at a place. -/
  tick : Nat → Nat → Nat := fun _ m => m
  /-- `Offset()` at a place (R173): no effect, R177 (d). -/
  offset : Nat → Nat → Int := fun _ _ => 0
  /-- `SeekIndex()` at a place (R174). -/
  seek : Nat → Nat → Sought := fun p m => ⟨0, p, m⟩
  /-- R177 (b): after the sequence's end there is nothing. -/
  ends : ∀ i, bitAt i = none → bitAt (i + 1) = none := by exact fun _ _ => rfl
  /-- R175: a seek goes forward. -/
  forward : ∀ p m, p ≤ (seek p m).place := by exact fun p _ => Nat.le_refl p
deriving Inhabited

namespace Config

/-- R6 `MARKER`. -/
abbrev marker : Window := 0x6CB1#16
/-- R6 `CKSUM`. -/
abbrev cksum : Word := 0x28F53CB9#32
/-- R6 `LEN`, in bytes. -/
abbrev len : Nat := 6144
/-- R6 `NWORDS` = `LEN / 4`. -/
abbrev nwords : Nat := 1536
/-- R6 `NSEC`. -/
abbrev nsec : Nat := 1
/-- R6 `GROUP_BYTES`. -/
abbrev groupBytes : Nat := 8
/-- R6 `MARKER_BACK`. -/
abbrev markerBack : Nat := 15
/-- The width of the window, at which `NOBS` saturates (R24). -/
abbrev windowBits : Nat := 16
/-- The raw bits of a group, `8 * GROUP_BYTES` (R6). -/
abbrev groupBits : Nat := 64
/-- R7 `BODY_BITS`. -/
abbrev bodyBits : Nat := nwords * groupBits
/-- R7 `FRAME_BITS`. -/
abbrev frameBits : Nat := windowBits + bodyBits

/-- R8 `OFFW`, default 32. No rule reads it: offsets are integers (R128, log 16); Safety names the premises of 93 U2. -/
abbrev offw : Nat := 32

/-- R8 `RATE`: the tag given with every emission of a frame. FREE VALUE, log 10. -/
opaque rate : Rate

/-- R8 `Codec`: the lawful codecs a host may plug in, by number. FREE VALUE, log 7. -/
opaque codec : Nat → Codec

/-- R8 `Cursor`: the lawful cursors a host may plug in besides the streams, by number. FREE VALUE, log 8. -/
opaque cursor : Nat → CursorSource

/-- R8 `INDEX_MISSING_LEN`: what the `k`-th draw of a revolution length answers (R174, U1). FREE VALUE, log 9. -/
opaque indexMissingLen : Nat → Nat

/-- The point from which a stream with origin `k` counts the offset of stream bit `q` (R173, U15). FREE VALUE, log 8. -/
opaque countingPoint : Nat → Nat → Int

/-- The raw bit on the track before a sink that holds nothing yet (R184 defines it only after an emission).
FREE VALUE, log 11. -/
opaque bitBefore : Bool

end Config

end Sys2Proof
end

