-- ==== Sys2Proof/Syntax.lean ====
section
/-! DEFINITION. The rows of spec/opcode_table.json: commands, frame fields, step rules, collaborator requests. -/

namespace Sys2Proof

/-- One constructor per row of the opcode table. Operands of a request are values (30_encoding R100); the operands of a
command are references to what the host has attached (R90 to R92) and stand in the state. -/
inductive Instr where
  /-- `DECODE`: the whole command as one function (R120). -/
  | decode
  /-- `ENCODE`: the whole command as one function (R150). -/
  | encode
  /-- `MARK`: the marker field of a frame crossing the track boundary (R96). -/
  | mark
  /-- `GRP`: a group field of a frame crossing the track boundary (R97). -/
  | grp (g : Group)
  /-- `ACCEPT_D` (R121). -/
  | acceptD
  /-- `ACCEPT_E` (R151). -/
  | acceptE
  /-- `D_SCAN` (R122). -/
  | dScan
  /-- `D_READ` (R123). -/
  | dRead
  /-- `D_CHECK` (R124). -/
  | dCheck
  /-- `D_INDEX` (R125). -/
  | dIndex
  /-- `D_COMMIT` (R126). -/
  | dCommit
  /-- `E_MARK` (R152). -/
  | eMark
  /-- `E_WORD` (R153). -/
  | eWord
  /-- `NEXT_BIT` (R171). -/
  | nextBit
  /-- `NEXT_BYTES(8)` (R172). -/
  | nextBytes
  /-- `OFFSET` (R173). -/
  | offset
  /-- `SEEK_INDEX` (R174). -/
  | seekIndex
  /-- `DEMOD(g)` (R179). -/
  | demod (g : Group)
  /-- `MOD(p, w)` (R180). -/
  | mod (p : Bool) (w : Word)
  /-- `EMIT_LIT(n, v, rate)` (R185). -/
  | emitLit (n : Nat) (v : BitVec n) (rate : Rate)
  /-- `EMIT_MOD(w, rate)` (R186). -/
  | emitMod (w : Word) (rate : Rate)
deriving DecidableEq, Repr

end Sys2Proof
end

