-- ==== Sys2Proof/WellFormed.lean ====
section
/-! DEFINITION. Which instructions an encoding can carry. -/

namespace Sys2Proof

/-- The one check: the bit count of a literal emission fits the count byte of the request record (log 5). Every other
operand is bounded by its type. -/
def Instr.wf : Instr → Bool
  | .decode => true
  | .encode => true
  | .mark => true
  | .grp _ => true
  | .acceptD => true
  | .acceptE => true
  | .dScan => true
  | .dRead => true
  | .dCheck => true
  | .dIndex => true
  | .dCommit => true
  | .eMark => true
  | .eWord => true
  | .nextBit => true
  | .nextBytes => true
  | .offset => true
  | .seekIndex => true
  | .demod _ => true
  | .mod _ _ => true
  | .emitLit n _ _ => decide (n < 256)
  | .emitMod _ _ => true

end Sys2Proof
end

