-- ==== Sys2Proof/Decode.lean ====
section
/-! DEFINITION. The decoder, total on any bytes, and the encoder (spec 30_encoding R90, R95 to R102; the opcode table). -/

namespace Sys2Proof

open Machine (natOfBytes bytesOfNat)

/-- The five formats of the opcode table. The spec gives them no common tag: the same bits mean different things in
different formats, and the place they come from says which format they are (log 2). -/
inductive Format where
  | cmd
  | frame16
  | frame64
  | step
  | req
deriving DecidableEq, Repr

/-- Why some bytes are no instruction of a format. -/
inductive DecodeError where
  /-- The bytes end before the item does. -/
  | tooShort
  /-- A command code other than 0 or 1 (R102). -/
  | unknownCommand
  /-- Sixteen raw bits that are not the marker (R96: exact equality). -/
  | notMarker
  /-- A selector string that does not occur (R101). -/
  | noSuchStep
  /-- A request code above 7 (R100). -/
  | noSuchRequest
  /-- An operand of a request outside its range (log 5). -/
  | badOperand
deriving DecidableEq, Repr

/-- An encoded item: a format and its bytes. -/
structure Item where
  format : Format
  bytes : List Byte
deriving DecidableEq, Repr

/-- The next `n` bytes as a number, the first the most significant, and the rest. -/
def takeNat (n : Nat) (bs : List Byte) : Except DecodeError (Nat × List Byte) :=
  if n ≤ bs.length then .ok (natOfBytes (bs.take n), bs.drop n) else .error .tooShort

/-- R101: the step rule a selector string `PHASE ++ OP` selects; the other strings do not occur. -/
def stepOfSelector : Nat → Option Instr
  | 0b0000 => some .acceptD
  | 0b0001 => some .acceptE
  | 0b0010 => some .dScan
  | 0b0100 => some .dRead
  | 0b0110 => some .dCheck
  | 0b1000 => some .dIndex
  | 0b1010 => some .dCommit
  | 0b1101 => some .eMark
  | 0b1111 => some .eWord
  | _ => none

/-- R90, R102: a command record's code. -/
def decodeCmd (bs : List Byte) : Except DecodeError (Instr × List Byte) := do
  let (code, rest) ← takeNat 1 bs
  match code with
  | 0 => pure (.decode, rest)
  | 1 => pure (.encode, rest)
  | _ => throw .unknownCommand

/-- R96: the marker is recognised by exact equality of all 16 bits. -/
def decodeMark (bs : List Byte) : Except DecodeError (Instr × List Byte) := do
  let (v, rest) ← takeNat 2 bs
  if v = Config.marker.toNat then pure (.mark, rest) else throw .notMarker

/-- R97, R106: any 64 raw bits are a group. -/
def decodeGrp (bs : List Byte) : Except DecodeError (Instr × List Byte) := do
  let (v, rest) ← takeNat 8 bs
  pure (.grp (BitVec.ofNat 64 v), rest)

/-- R101: a step selector. -/
def decodeStep (bs : List Byte) : Except DecodeError (Instr × List Byte) := do
  let (sel, rest) ← takeNat 1 bs
  match stepOfSelector sel with
  | some i => pure (i, rest)
  | none => throw .noSuchStep

/-- The operand of `DEMOD(g)`: eight bytes. -/
def decodeDemod (bs : List Byte) : Except DecodeError (Instr × List Byte) := do
  let (g, rest) ← takeNat 8 bs
  pure (.demod (BitVec.ofNat 64 g), rest)

/-- The operands of `MOD(p, w)`: a byte 0 or 1, four bytes. -/
def decodeMod (bs : List Byte) : Except DecodeError (Instr × List Byte) := do
  let (p, r1) ← takeNat 1 bs
  let (w, r2) ← takeNat 4 r1
  if p < 2 then pure (.mod (p == 1) (BitVec.ofNat 32 w), r2) else throw .badOperand

/-- The operands of `EMIT_LIT(n, v, rate)`: a count byte, thirty-two bytes, four bytes. -/
def decodeEmitLit (bs : List Byte) : Except DecodeError (Instr × List Byte) := do
  let (n, r1) ← takeNat 1 bs
  let (v, r2) ← takeNat 32 r1
  let (rate, r3) ← takeNat 4 r2
  if v < 2 ^ n then pure (.emitLit n (BitVec.ofNat n v) (BitVec.ofNat 32 rate), r3) else throw .badOperand

/-- The operands of `EMIT_MOD(w, rate)`: four bytes, four bytes. -/
def decodeEmitMod (bs : List Byte) : Except DecodeError (Instr × List Byte) := do
  let (w, r1) ← takeNat 4 bs
  let (rate, r2) ← takeNat 4 r1
  pure (.emitMod (BitVec.ofNat 32 w) (BitVec.ofNat 32 rate), r2)

/-- R100: a request record: its code in one byte, then its operands (layout: log 5). -/
def decodeReq (bs : List Byte) : Except DecodeError (Instr × List Byte) := do
  let (code, rest) ← takeNat 1 bs
  match code with
  | 0 => pure (.nextBit, rest)
  | 1 => pure (.nextBytes, rest)
  | 2 => pure (.offset, rest)
  | 3 => pure (.seekIndex, rest)
  | 4 => decodeDemod rest
  | 5 => decodeMod rest
  | 6 => decodeEmitLit rest
  | 7 => decodeEmitMod rest
  | _ => throw .noSuchRequest

/-- The decoder: the instruction that stands at the head of some bytes in a format, and the bytes after it. -/
def decodeItem (f : Format) (bs : List Byte) : Except DecodeError (Instr × List Byte) :=
  match f with
  | .cmd => decodeCmd bs
  | .frame16 => decodeMark bs
  | .frame64 => decodeGrp bs
  | .step => decodeStep bs
  | .req => decodeReq bs

/-- The format of each instruction (the table's "format" column). -/
def formatOf : Instr → Format
  | .decode => .cmd
  | .encode => .cmd
  | .mark => .frame16
  | .grp _ => .frame64
  | .acceptD => .step
  | .acceptE => .step
  | .dScan => .step
  | .dRead => .step
  | .dCheck => .step
  | .dIndex => .step
  | .dCommit => .step
  | .eMark => .step
  | .eWord => .step
  | .nextBit => .req
  | .nextBytes => .req
  | .offset => .req
  | .seekIndex => .req
  | .demod _ => .req
  | .mod _ _ => .req
  | .emitLit _ _ _ => .req
  | .emitMod _ _ => .req

/-- The encoder: the bytes of a well-formed instruction in its format, from the same table. -/
def encodeItem : Instr → List Byte
  | .decode => bytesOfNat 1 0b0
  | .encode => bytesOfNat 1 0b1
  | .mark => bytesOfNat 2 0b0110110010110001
  | .grp g => bytesOfNat 8 g.toNat
  | .acceptD => bytesOfNat 1 0b0000
  | .acceptE => bytesOfNat 1 0b0001
  | .dScan => bytesOfNat 1 0b0010
  | .dRead => bytesOfNat 1 0b0100
  | .dCheck => bytesOfNat 1 0b0110
  | .dIndex => bytesOfNat 1 0b1000
  | .dCommit => bytesOfNat 1 0b1010
  | .eMark => bytesOfNat 1 0b1101
  | .eWord => bytesOfNat 1 0b1111
  | .nextBit => bytesOfNat 1 0b000
  | .nextBytes => bytesOfNat 1 0b001
  | .offset => bytesOfNat 1 0b010
  | .seekIndex => bytesOfNat 1 0b011
  | .demod g => bytesOfNat 1 0b100 ++ bytesOfNat 8 g.toNat
  | .mod p w => bytesOfNat 1 0b101 ++ (bytesOfNat 1 p.toNat ++ bytesOfNat 4 w.toNat)
  | .emitLit n v rate => bytesOfNat 1 0b110 ++ (bytesOfNat 1 n ++ (bytesOfNat 32 v.toNat ++ bytesOfNat 4 rate.toNat))
  | .emitMod w rate => bytesOfNat 1 0b111 ++ (bytesOfNat 4 w.toNat ++ bytesOfNat 4 rate.toNat)

/-- The longest record: `EMIT_LIT` with its operands (log 5). -/
def longestItem : Nat := 38

/-- The format a word of the opcode table is read in. The table numbers the words of each format from 0, so a one-byte
word fits several: CMD, then STEP, then REQ, the first that reads it (log 2). Asked with a format's exact width (1, 4 or 3
bits) the format is that one. -/
def tableFormat (nbits w : Nat) : Format :=
  match nbits with
  | 1 => .cmd
  | 3 => .req
  | 4 => .step
  | 16 => .frame16
  | 64 => .frame64
  | _ => if w < 2 then .cmd else if (stepOfSelector w).isSome then .step else .req

/-- The item whose bits are `w` (bit 0 the least significant, a frame field one word, the most significant byte first
as R67 lays it out); the operand bytes the table gives no bits are 0. -/
def tableItem (nbits w : Nat) : Item :=
  match tableFormat nbits w with
  | .frame16 => ⟨.frame16, bytesOfNat 2 w⟩
  | .frame64 => ⟨.frame64, bytesOfNat 8 w⟩
  | f => ⟨f, bytesOfNat 1 w ++ List.replicate (longestItem - 1) 0⟩

/-- The instruction the decoder reads from a word of the opcode table; none where it refuses, or where the word is wider
than one byte, a marker or a group. -/
def decodeTableWord (nbits w : Nat) : Option Instr :=
  if (nbits ≤ 8 ∨ nbits = 16 ∨ nbits = 64) ∧ w < 2 ^ nbits then
    match decodeItem (tableItem nbits w).format (tableItem nbits w).bytes with
    | .ok (i, _) => some i
    | .error _ => none
  else none

end Sys2Proof
end

