-- ==== Sys2Proof/Machine/State.lean ====
section
/-! DEFINITION. The state of the framer and of what the host has attached to it (spec 10_state R20 to R46), the reasons a
step can stop (60_exceptions R212), and the state after power-on reset (R46, R231). -/

namespace Sys2Proof.Machine

/-- R21: which step rule runs next. -/
inductive Phase where
  | idle | dScan | dRead | dCheck | dIndex | dCommit | eMark | eWord
deriving DecidableEq, Repr

/-- R22: the command in progress. -/
inductive Op where
  | decode | encode
deriving DecidableEq, Repr

/-- R30: the result of the last command. -/
inductive Res where
  | none | ok | notFound | truncated
deriving DecidableEq, Repr

/-- R200: the two failures of the hardware. -/
inductive Failure where
  | notFound | truncated
deriving DecidableEq, Repr

/-- A store by address: (address, value) pairs with strictly rising addresses. An address that is not listed holds no
value (R43). `Memory Byte` is a list of `Host.Cell`. -/
abbrev Memory (α : Type) : Type := List (Nat × α)

/-- The point a stream counts offsets from (R173, U15): the last index mark at or before the bit (R176), or the open point
`k` (log 8). -/
inductive Origin where
  | indexMark
  | other (k : Nat)
deriving DecidableEq, Repr

/-- Which cursor the host has attached (R8, logs 8, 22). -/
inductive CursorKind where
  /-- The reference stream (R176), the default of R8. -/
  | reference
  /-- The same stream, but a seek consumes the index mark it runs to, so that the next seek goes on (R70; log 22). -/
  | consuming
  /-- The stream over and over, a revolution a turn: a cursor that never exhausts (R247, 93 U8). -/
  | revolving
  /-- The open cursor `k` of Config. -/
  | other (k : Nat)
deriving DecidableEq, Repr

/-- The cursor's state (R44). `bits` and `marks` never change; `pos` bits have been delivered or skipped; a mark at `m` lies
immediately before bit `m` (R176). An open cursor has a stream of its own and does not look at `bits`, `marks`, `origin`. -/
structure Cursor where
  bits : List Bool
  marks : List Nat
  pos : Nat
  origin : Origin
  kind : CursorKind
  /-- The further state: of a consuming or revolving stream, one more than the mark its last seek ran to, or 0; of an open
  cursor its own; unused by the reference stream. -/
  memo : Nat
deriving DecidableEq, Repr

/-- R99: what the sink accepts. -/
inductive Emission where
  /-- `LIT(n, v, rate)`: the `n` bits of `v` as they are. -/
  | lit (n : Nat) (v : BitVec n) (rate : Rate)
  /-- `MODW(w, rate)`: the word, to be modulated. -/
  | modw (w : Word) (rate : Rate)
deriving DecidableEq, Repr

/-- R34 to R40: the track descriptor. -/
structure Desc where
  /-- `LEN` (R35). -/
  len : Nat
  /-- `NSEC` (R36). -/
  nsec : Nat
  /-- `DATA_BITOFF` (R37); holds no value while `own` is false (R43). -/
  dataBitoff : Int
  /-- `TOTAL_BITS` (R38); holds no value while `own` is false (R43). -/
  totalBits : Nat
  /-- `VALID[0]` (R39). -/
  valid : Bool
  /-- `OWN` (R40). -/
  own : Bool
deriving DecidableEq, Repr

/-- The codec the host has plugged in (R8, R178): the reference one, or an open lawful one (log 7). -/
inductive CodecChoice where
  | reference
  | other (k : Nat)
deriving DecidableEq, Repr

/-- R100: the answer of a request that was run by itself (the model's own field, log 6). -/
inductive Answer where
  | none
  | exh
  | bit (b : Bool)
  | group (g : Group)
  | offset (i : Int)
  | length (n : Nat)
  | word (w : Word)
deriving DecidableEq, Repr

/-- Every piece of state the spec gives the machine (R20), then the model's own fields. -/
structure State where
  /-- `PHASE` (R21). -/
  phase : Phase
  /-- `OP` (R22). -/
  op : Op
  /-- `WIN` (R23): `WIN[0]` the newest bit. -/
  win : Window
  /-- `NOBS` (R24), 0 to 16. -/
  nobs : Nat
  /-- `SUM` (R25). -/
  sum : Word
  /-- `WCNT` (R26), 0 to 1536. -/
  wcnt : Nat
  /-- `CAND` (R27). -/
  cand : Int
  /-- The model's own: whether `CAND` holds a value (R43, log 12). -/
  candHeld : Bool
  /-- `TOT` (R29). -/
  tot : Nat
  /-- The model's own: whether `TOT` holds a value (R43, log 12). -/
  totHeld : Bool
  /-- `WBUF[0..1535]` (R28), by word index. -/
  wbuf : Memory Word
  /-- `RES` (R30). -/
  res : Res
  /-- The descriptor of the command (R34). -/
  desc : Desc
  /-- `BLK[0..6143]` (R41), by byte address. -/
  blk : Memory Byte
  /-- The cursor's state (R44). -/
  cursor : Cursor
  /-- The sink's state (R45, R183): the emissions so far, the oldest first. -/
  sink : List Emission
  /-- The command record's code the host presents, if any (R90, R102). -/
  cmd : Option Byte
  /-- The model's own: an encoded item run by itself in the next step (log 3). -/
  issue : Option Item
  /-- The model's own: the answer of the last request run by itself (log 6). -/
  ans : Answer
  /-- The model's own: how many free values have been drawn (log 9). -/
  draws : Nat
  /-- The model's own: the codec plugged in; no step writes it (R8, log 7). -/
  codec : CodecChoice
deriving DecidableEq, Repr

/-- Why the machine stops with a fault. -/
inductive Fault where
  /-- Raised by the block word access at an address outside `0..6143` (R41, R60): the address does not exist. Safe: no
  reachable state raises it (`WCNT` stays below 1536 in `E_WORD`). -/
  | blkAddress
  /-- Raised by `D_READ` with `WCNT` at or above 1536 (R28): `WBUF` has no such entry. Safe: no reachable state raises
  it. -/
  | wbufIndex
deriving DecidableEq, Repr

/-- Why the model gives a situation no step (R212). -/
inductive Refusal where
  /-- Raised by an arm of `exec` whose instruction has no meaning yet. Safe. -/
  | notModelled (mnemonic : String)
  /-- R212 `bad_length`: raised by either command on a descriptor with `LEN != 6144` or `NSEC != 1`. Safe. -/
  | badLength
  /-- R212 `already_populated`: raised by DECODE on a descriptor with `OWN = 1`. Safe. -/
  | alreadyPopulated
  /-- R212 `no_block`: raised by ENCODE on a descriptor with `OWN = 0`. Safe. -/
  | noBlock
  /-- R212 `busy`: raised when a command is presented while `PHASE != IDLE`. Unsafe: an assumption about the host
  (U9). -/
  | busy
  /-- R212 `unknown_command`: raised on a presented code other than 0 and 1. Safe. -/
  | unknownCommand
  /-- R212 `unwritten_read`: raised by a read of state that holds no value (R43). Safe. -/
  | unwrittenRead
  /-- R212 `shared_access`: raised when anyone but the framer touches what a running command uses. Unsafe: an assumption
  about the host (U9). -/
  | sharedAccess
  /-- Raised by `OFFSET` before any bit was delivered: "has no defined answer" (R173), refused (U14). Safe. -/
  | offsetBeforeBit
  /-- Raised by a frame field that is not the one that stands next on the track, or that the encoder would not put there
  (R95, log 13). Safe. -/
  | fieldNotHere
  /-- Raised by an issued step rule: `PHASE` alone selects those (R21, log 3). Safe. -/
  | stepNotIssued
  /-- Raised by an issued item whose bytes are no instruction of its format. Safe. -/
  | undecodable (e : DecodeError)
deriving DecidableEq, Repr

/-- The descriptor as the host creates it (R46, R234): the two offset fields hold no value (log 12). -/
def Desc.created : Desc :=
  { len := Config.len, nsec := Config.nsec, dataBitoff := 0, totalBits := 0, valid := false, own := false }

/-- A cursor over an empty capture (log 14). -/
def Cursor.empty : Cursor := { bits := [], marks := [], pos := 0, origin := .indexMark, kind := .reference, memo := 0 }

/-- R46, R231: power-on reset, with a descriptor just created and, the host's matter, an empty capture and an empty
sink (log 14). -/
def State.reset : State :=
  { phase := .idle, op := .decode, win := 0x0000#16, nobs := 0, sum := 0#32, wcnt := 0, cand := 0, candHeld := false,
    tot := 0, totHeld := false, wbuf := [], res := .none, desc := Desc.created, blk := [], cursor := Cursor.empty,
    sink := [], cmd := none, issue := none, ans := .none, draws := 0, codec := .reference }

end Sys2Proof.Machine
end

