-- ==== Sys2Proof/Machine/Cursor.lean ====
section
/-! DEFINITION. The cursor's four operations (spec 42_collaborators R170 to R177), for every kind of cursor a host may
attach (00_scope R8). A request answers and leaves the cursor in a new state. -/

namespace Sys2Proof.Machine

/-- The bit at a place of the cursor's sequence; none from its end on (R177). A revolving stream starts again. -/
def Cursor.bitAt (c : Cursor) (i : Nat) : Option Bool :=
  match c.kind with
  | .reference => c.bits[i]?
  | .consuming => c.bits[i]?
  | .revolving => c.bits[i % c.bits.length]?
  | .other k => (Config.cursor k).bitAt i

/-- The bits of a sequence from a place on, at most `n` of them. -/
def bitsFrom (f : Nat → Option Bool) (i : Nat) : Nat → List Bool
  | 0 => []
  | n + 1 =>
    match f i with
    | none => []
    | some b => b :: bitsFrom f (i + 1) n

/-- The bits of a captured stream that are not yet delivered or skipped. -/
def Cursor.ahead (c : Cursor) : List Bool := c.bits.drop c.pos

/-- The next bits, at most `n` of them, fewer where the sequence ends before. -/
def Cursor.upTo (c : Cursor) (n : Nat) : List Bool :=
  match c.kind with
  | .reference => c.ahead.take n
  | .consuming => c.ahead.take n
  | .revolving => bitsFrom c.bitAt c.pos n
  | .other _ => bitsFrom c.bitAt c.pos n

/-- The further state of an open cursor after `n` bits from a place on. -/
def ticks (f : Nat → Nat → Nat) (p m : Nat) : Nat → Nat
  | 0 => m
  | n + 1 => ticks f (p + 1) (f p m) n

/-- R171: the cursor after `n` bits have been delivered. -/
def Cursor.advanced (c : Cursor) (n : Nat) : Cursor :=
  { c with
    pos := c.pos + n
    memo :=
      match c.kind with
      | .reference => c.memo
      | .consuming => c.memo
      | .revolving => c.memo
      | .other k => ticks (Config.cursor k).tick c.pos c.memo n }

/-- How many bits of a captured stream are not yet delivered or skipped. -/
def Cursor.remaining (c : Cursor) : Nat := c.bits.length - c.pos

/-- How many requests for a bit it takes to see a captured stream's end; none where no end is in sight (log 21). -/
def Cursor.turns (c : Cursor) : Nat :=
  match c.kind with
  | .reference => c.remaining + 1
  | .consuming => c.remaining + 1
  | .revolving => 0
  | .other _ => 0

/-- R171 `Cur.NextBit()`: the next bit, or `EXH` (none). DESIGN CHOICE, log 8: an `EXH` here leaves an open cursor's further
state as it is. -/
def Cursor.nextBit (c : Cursor) : Option Bool × Cursor :=
  match c.bitAt c.pos with
  | some b => (some b, c.advanced 1)
  | none => (none, c)

/-- R172 `Cur.NextBytes(8)`: the next 64 bits, the earliest `g[63]`, or `EXH` (none), the bits that were left lost, and
exhausted from then on. DESIGN CHOICE, log 8: what R131 leaves to the cursor ("exhausted as the cursor defines it") is, for
an open cursor, its place at the end and its further state ticked once for each bit that was left. -/
def Cursor.nextBytes (c : Cursor) : Option Group × Cursor :=
  let bs := c.upTo Config.groupBits
  if bs.length = Config.groupBits then (some (ofBits 64 bs), c.advanced Config.groupBits)
  else (none, c.advanced bs.length)

/-- The index marks that matter at the cursor's place. A revolving stream has its marks in every revolution, and one where
each revolution begins (the glossary: an index mark is "one complete revolution"); those up to the next revolution are
enough. -/
def Cursor.marksTo (c : Cursor) : List Nat :=
  match c.kind with
  | .reference => c.marks
  | .consuming => c.marks
  | .revolving => (List.range (c.pos / c.bits.length + 2)).flatMap fun j => (0 :: c.marks).map (· + j * c.bits.length)
  | .other _ => []

/-- The greatest of some marks below a place, or 0 (R176 `base`). -/
def markBelow (marks : List Nat) (p : Nat) : Nat := (marks.filter (· < p)).foldl max 0

/-- The least of some marks at or above a place. -/
def markFrom (marks : List Nat) (p : Nat) : Option Nat := (marks.filter (p ≤ ·)).min?

/-- R176 `base(q)` for the bit `q = pos - 1` delivered last: the latest mark at or before it, or 0. -/
def Cursor.lastMark (c : Cursor) : Nat := markBelow c.marksTo c.pos

/-- The point the offset of the last delivered bit is counted from (R173). -/
def Cursor.countsFrom (c : Cursor) : Int :=
  match c.origin with
  | .indexMark => c.lastMark
  | .other k => Config.countingPoint k (c.pos - 1)

/-- R173 `Cur.Offset()`: the offset of the bit delivered last, `pos - 1`. Meaningful when `pos >= 1`. -/
def Cursor.lastOffset (c : Cursor) : Int :=
  match c.kind with
  | .reference => (c.pos : Int) - 1 - c.countsFrom
  | .consuming => (c.pos : Int) - 1 - c.countsFrom
  | .revolving => (c.pos : Int) - 1 - c.countsFrom
  | .other k => (Config.cursor k).offset c.pos c.memo

/-- The place below which index marks have passed: the cursor's place (R176), or behind the mark a seek consumed. -/
def Cursor.passed (c : Cursor) : Nat :=
  match c.kind with
  | .reference => c.pos
  | .consuming => max c.pos c.memo
  | .revolving => max c.pos c.memo
  | .other _ => c.pos

/-- The cursor after a seek that ran to a mark: R176 leaves it there; where marks are consumed, it remembers (log 22). -/
def Cursor.atMark (c : Cursor) (m : Nat) : Cursor :=
  match c.kind with
  | .reference => { c with pos := m }
  | .consuming => { c with pos := m, memo := m + 1 }
  | .revolving => { c with pos := m, memo := m + 1 }
  | .other _ => { c with pos := m }

/-- R174, R176 on a stream: run to the next index mark and answer the bits between the previous mark and it. None where the
spec states no length: no further mark (U1), or no bit delivered yet (log 9). -/
def Cursor.seekStream (c : Cursor) : Option Nat × Cursor :=
  match markFrom c.marksTo c.passed with
  | some m => (if c.pos = 0 then none else some (m - markBelow c.marksTo c.passed), c.atMark m)
  | none => (none, { c with pos := max c.pos c.bits.length })

/-- An open cursor's seek. -/
def Cursor.seekOpen (c : Cursor) (k : Nat) : Option Nat × Cursor :=
  let r := (Config.cursor k).seek c.pos c.memo
  (some r.length, { c with pos := r.place, memo := r.memo })

/-- R174 `Cur.SeekIndex()`. -/
def Cursor.seekIndex (c : Cursor) : Option Nat × Cursor :=
  match c.kind with
  | .reference => c.seekStream
  | .consuming => c.seekStream
  | .revolving => c.seekStream
  | .other k => c.seekOpen k

/-- The next raw bits are these (log 13). -/
def Cursor.next (c : Cursor) (field : List Bool) : Bool := c.upTo field.length == field

/-- A captured stream with a field standing next on it (only for placing a table word, log 1). -/
def Cursor.place (c : Cursor) (field : List Bool) : Cursor :=
  { c with bits := c.bits.take c.pos ++ field ++ c.bits.drop c.pos, kind := .reference }

end Sys2Proof.Machine
end

