-- ==== Sys2Proof/Machine/Flags.lean ====
section
/-! DEFINITION. The status codes (spec 10_state R21, R30; 60_exceptions R200) and the two comparisons the framer makes
(R30: consumed in the step that makes them). -/

namespace Sys2Proof.Machine

/-- R21: the code numbers of `PHASE`. -/
def Phase.code : Phase → Nat
  | .idle => 0
  | .dScan => 1
  | .dRead => 2
  | .dCheck => 3
  | .dIndex => 4
  | .dCommit => 5
  | .eMark => 6
  | .eWord => 7

/-- R22: the operation a phase implies. -/
def Phase.impliedOp : Phase → Option Op
  | .idle => Option.none
  | .dScan => some .decode
  | .dRead => some .decode
  | .dCheck => some .decode
  | .dIndex => some .decode
  | .dCommit => some .decode
  | .eMark => some .encode
  | .eWord => some .encode

/-- R22: the code numbers of `OP`. -/
def Op.code : Op → Nat
  | .decode => 0
  | .encode => 1

/-- R30: the code numbers of `RES`. -/
def Res.code : Res → Nat
  | .none => 0
  | .ok => 1
  | .notFound => 2
  | .truncated => 3

/-- R200: the result a failure leaves. -/
def Failure.res : Failure → Res
  | .notFound => .notFound
  | .truncated => .truncated

/-- R30, R208: what the host sees of `RES`: whether a result was produced ("both error kinds surface as 'no result
produced'"); none while no command has ended. -/
def Res.hostSees : Res → Option Bool
  | .none => Option.none
  | .ok => some true
  | .notFound => some false
  | .truncated => some false

/-- R122: sixteen bits have been observed and they are the marker, all 16 bits equal (R24, R96). -/
def State.atMarker (s : State) : Bool := s.nobs == Config.windowBits && s.win == Config.marker

/-- R124: the comparison of all 32 bits of the sum. -/
def State.sumAccepted (s : State) : Bool := s.sum == Config.cksum

end Sys2Proof.Machine
end

