-- ==== Sys2Proof/Machine/Sink.lean ====
section
/-! DEFINITION. The sink's raw bits (spec 42_collaborators R183 to R186, 41_encode R154). -/

namespace Sys2Proof.Machine

/-- The codec the host has plugged in (R178). -/
def State.theCodec (s : State) : Codec :=
  match s.codec with
  | .reference => Codec.reference
  | .other k => Config.codec k

/-- R99: the raw bits an emission becomes after raw bit `prev`. -/
def emissionBits (c : Codec) (prev : Bool) : Emission → List Bool
  | .lit _ v _ => toBits v
  | .modw w _ => toBits (c.mod prev w)

/-- R184: the last of some bits, or the given bit where there is none. -/
def lastOr : Bool → List Bool → Bool
  | d, [] => d
  | _, b :: bs => lastOr b bs

/-- R183: the raw bit sequence some emissions flatten to, after raw bit `prev`. -/
def flatten (c : Codec) (prev : Bool) : List Emission → List Bool
  | [] => []
  | e :: es => emissionBits c prev e ++ flatten c (lastOr prev (emissionBits c prev e)) es

/-- The raw bits in the sink (R183), under the codec now plugged in. The spec has one fixed codec; that a codec plugged in later
flattens earlier emissions too is a DESIGN CHOICE, log 7. -/
def State.sinkBits (s : State) : List Bool := flatten s.theCodec Config.bitBefore s.sink

/-- R184: the last bit of the sink's raw bit sequence; before any bit, the open bit of log 11. -/
def State.lastRawBit (s : State) : Bool := lastOr Config.bitBefore s.sinkBits

/-- R154: the groups of some words, the first after raw bit `prev`. -/
def groupsBits (c : Codec) (prev : Bool) : List Word → List Bool
  | [] => []
  | w :: ws => toBits (c.mod prev w) ++ groupsBits c ((c.mod prev w).getLsbD 0) ws

/-- R154 `frame(B)`: the marker, then the groups of the block's words. -/
def frameOf (c : Codec) (ws : List Word) : List Bool :=
  toBits Config.marker ++ groupsBits c (Config.marker.getLsbD 0) ws

end Sys2Proof.Machine
end

