-- ==== Sys2Proof/Machine/Ops.lean ====
section
/-! DEFINITION. The named operations over stores and registers (spec 20_memory R62, R68; 10_state R23 to R29) and the
taking of a failure (60_exceptions R205). -/

namespace Sys2Proof.Machine

/-- What an access or a step answers. -/
abbrev Answers (α : Type) : Type := Host.Outcome α Fault Refusal

/-- One thing after another: a fault or a refusal ends it. -/
def andThen {α β : Type} (o : Answers α) (f : α → Answers β) : Answers β :=
  match o with
  | .next a => f a
  | .fault r => .fault r
  | .refused r => .refused r

/-- The value at an address; none where the address holds no value (R43). -/
def Memory.read {α : Type} : Memory α → Nat → Option α
  | [], _ => none
  | (b, v) :: m, a => if b = a then some v else Memory.read m a

/-- The store with a value at an address, addresses strictly rising. -/
def Memory.write {α : Type} : Memory α → Nat → α → Memory α
  | [], a, v => [(a, v)]
  | (b, u) :: m, a, v =>
    if a < b then (a, v) :: (b, u) :: m else if a = b then (a, v) :: m else (b, u) :: Memory.write m a v

/-- The canonical form: addresses strictly rising. (An unlisted address holds no value, so no entry repeats it.) -/
abbrev Memory.wf {α : Type} (m : Memory α) : Prop := (m.map Prod.fst).Pairwise (· < ·)

/-- R12 `MemRead(addr, 4)`: four bytes as one big-endian word; none where one of them holds no value. -/
def Memory.readWord (m : Memory Byte) (addr : Nat) : Option Word :=
  match m.read addr, m.read (addr + 1), m.read (addr + 2), m.read (addr + 3) with
  | some b0, some b1, some b2, some b3 => some (b0 ++ b1 ++ b2 ++ b3)
  | _, _, _, _ => none

/-- R12 `MemWrite(addr, 4, w)`: big-endian, the most significant byte at `addr`. -/
def Memory.writeWord (m : Memory Byte) (addr : Nat) (w : Word) : Memory Byte :=
  (((m.write addr (w.extractLsb' 24 8)).write (addr + 1) (w.extractLsb' 16 8)).write (addr + 2)
    (w.extractLsb' 8 8)).write (addr + 3) (w.extractLsb' 0 8)

/-- R126: `MemWrite(4*i, 4, w)` for the words of a list in order, `i` from the given index on. -/
def Memory.writeWords (m : Memory Byte) : Nat → List Word → Memory Byte
  | _, [] => m
  | i, w :: ws => Memory.writeWords (m.writeWord (4 * i) w) (i + 1) ws

/-- R127: the 32-bit wrapping sum of some words. -/
def sumWords (ws : List Word) : Word := ws.foldl (· + ·) 0#32

/-- R205 `raise F`: taking a failure. Nothing else is written, nothing is saved; there is no return (R206). -/
def raise (f : Failure) (s : State) : State := { s with res := f.res, phase := .idle }

/-- `PHASE <- p` (R12). -/
def setPhase (p : Phase) (s : State) : State := { s with phase := p }

/-- The cursor as a request left it (R44). -/
def setCursor (c : Cursor) (s : State) : State := { s with cursor := c }

/-- R23, R24: a bit the cursor delivered enters the window at bit 0, and is counted. -/
def observeBit (b : Bool) (s : State) : State :=
  { s with win := s.win.extractLsb' 0 15 ++ BitVec.ofBool b, nobs := min (s.nobs + 1) Config.windowBits }

/-- R122: a candidate begins; its offset is what the cursor reports less 15 (R27, R128). -/
def beginCandidate (off : Int) (s : State) : State :=
  { s with cand := off - Config.markerBack, candHeld := true, sum := 0#32, wcnt := 0 }

/-- R123: a group and its word are taken: stored, added, counted, and the group's last 16 bits are the window. -/
def takeGroup (g : Group) (w : Word) (s : State) : State :=
  { s with
    wbuf := s.wbuf.write s.wcnt w, sum := s.sum + w, win := g.extractLsb' 0 16, nobs := Config.windowBits,
    wcnt := s.wcnt + 1 }

/-- R174, R8: a revolution length the spec leaves open, a fresh one each time. -/
def drawLength (s : State) : Nat × State := (Config.indexMissingLen s.draws, { s with draws := s.draws + 1 })

/-- R174 `Cur.SeekIndex()` of the attached cursor: never `EXH`. -/
def seekIndex (s : State) : Nat × State :=
  match s.cursor.seekIndex with
  | (some n, c) => (n, setCursor c s)
  | (none, c) => drawLength (setCursor c s)

/-- R125: `TOT` takes the reported length. -/
def recordTotal (n : Nat) (s : State) : State := { s with tot := n, totHeld := true }

/-- R126: the block and the four descriptor fields, together (R71). -/
def populate (ws : List Word) (s : State) : State :=
  { s with
    blk := s.blk.writeWords 0 ws
    desc := { s.desc with dataBitoff := s.cand, totalBits := s.tot, valid := true, own := true } }

/-- `RES <- OK; PHASE <- IDLE` (R126, R153). -/
def succeed (s : State) : State := { s with res := .ok, phase := .idle }

/-- R46, R121: invocation start of a DECODE; what a previous command left in `CAND`, `TOT` and `WBUF` is no value. -/
def beginDecode (s : State) : State :=
  { s with
    op := .decode, res := .none, win := 0x0000#16, nobs := 0, sum := 0#32, wcnt := 0, candHeld := false,
    totHeld := false, wbuf := [] }

/-- R46, R151: invocation start of an ENCODE. -/
def beginEncode (s : State) : State := { s with op := .encode, res := .none, wcnt := 0 }

/-- The host's command record has been taken (R90). -/
def takeCommand (s : State) : State := { s with cmd := none }

/-- R185, R186: the sink accepts an emission. -/
def emit (e : Emission) (s : State) : State := { s with sink := s.sink ++ [e] }

/-- R153: one more word emitted. -/
def countWord (s : State) : State := { s with wcnt := s.wcnt + 1 }

/-- R26, R152: `WCNT <- 0`. -/
def clearCount (s : State) : State := { s with wcnt := 0 }

/-- The answer of a request run by itself (log 6). -/
def answer (a : Answer) (s : State) : State := { s with ans := a }

end Sys2Proof.Machine
end

