-- ==== Sys2Proof/Machine/Operands.lean ====
section
/-! DEFINITION. The operands of commands and steps: the descriptor checks of the accept steps (spec 30_encoding R104), the
block's words (20_memory R62, R68), the staged words (10_state R28). -/

namespace Sys2Proof.Machine

/-- R104: the descriptor is of the one scheme. -/
def Desc.legal (d : Desc) : Bool := d.len == Config.len && d.nsec == Config.nsec

/-- R103, R104, R121: what must hold for a DECODE to be accepted; otherwise why not. -/
def decodeRefusal (s : State) : Option Refusal :=
  if s.phase ≠ .idle then some .busy
  else if s.desc.legal = false then some .badLength
  else if s.desc.own then some .alreadyPopulated
  else none

/-- R103, R104, R151: what must hold for an ENCODE to be accepted; otherwise why not. -/
def encodeRefusal (s : State) : Option Refusal :=
  if s.phase ≠ .idle then some .busy
  else if s.desc.legal = false then some .badLength
  else if s.desc.own = false then some .noBlock
  else none

/-- R153 `MemRead(4*i, 4)` on the canonical block. -/
def blkWord (s : State) (i : Nat) : Answers Word :=
  if s.desc.own = false then .refused .unwrittenRead
  else if Config.len < 4 * i + 4 then .fault .blkAddress
  else
    match s.blk.readWord (4 * i) with
    | some w => .next w
    | none => .refused .unwrittenRead

/-- `n` entries of a list of optional values from index `i` on; none where one is missing. -/
def collect {α : Type} (f : Nat → Option α) : Nat → Nat → Option (List α)
  | _, 0 => some []
  | i, n + 1 =>
    match f i with
    | none => none
    | some a => (collect f (i + 1) n).map (a :: ·)

/-- R126: the staged words `WBUF[0..1535]`; none where one of them holds no value (R43). -/
def stagedWords (m : Memory Word) : Option (List Word) := collect m.read 0 Config.nwords

/-- R62: the block's 1536 words; none where one of its bytes holds no value. -/
def blkWords (m : Memory Byte) : Option (List Word) := collect (fun i => m.readWord (4 * i)) 0 Config.nwords

end Sys2Proof.Machine
end

