-- ==== Sys2Proof/Machine/DecodeSteps.lean ====
section
/-! DEFINITION. The six step rules of DECODE (spec 40_decode R121 to R126). -/

namespace Sys2Proof.Machine

/-- R121 `ACCEPT_D`: no collaborator is called; the command record is taken. -/
def acceptDecode (s : State) : Answers State :=
  match decodeRefusal s with
  | some r => .refused r
  | none => .next (setPhase .dScan (takeCommand (beginDecode s)))

/-- R122: what `D_SCAN` does with the bit it was given, the cursor already past it. -/
def scanBit (b : Bool) (s : State) : State :=
  let t := observeBit b s
  if t.atMarker then setPhase .dRead (beginCandidate t.cursor.lastOffset t) else setPhase .dScan t

/-- R122 `D_SCAN`: one bit, or `NotFound`. -/
def scanStep (s : State) : State :=
  match s.cursor.nextBit with
  | (none, c) => raise .notFound (setCursor c s)
  | (some b, c) => scanBit b (setCursor c s)

/-- R123: the phase after a word: the check after the last one. -/
def phaseAfterWord (s : State) : Phase := if s.wcnt = Config.nwords then .dCheck else .dRead

/-- R123: what `D_READ` does with the group it was given, the cursor already past it. -/
def readGroup (g : Group) (s : State) : Answers State :=
  if s.wcnt < Config.nwords then
    let t := takeGroup g (s.theCodec.demod g) s
    .next (setPhase (phaseAfterWord t) t)
  else .fault .wbufIndex

/-- R123 `D_READ`: one group, or `Truncated`. -/
def readStep (s : State) : Answers State :=
  match s.cursor.nextBytes with
  | (none, c) => .next (raise .truncated (setCursor c s))
  | (some g, c) => readGroup g (setCursor c s)

/-- R124 `D_CHECK`: no register is written but `PHASE`; a mismatch is no failure (R203). -/
def checkStep (s : State) : State := if s.sumAccepted then setPhase .dIndex s else setPhase .dScan s

/-- R125 `D_INDEX`. -/
def indexStep (s : State) : State :=
  let (n, t) := seekIndex s
  setPhase .dCommit (recordTotal n t)

/-- R126 `D_COMMIT`: it reads `WBUF`, `CAND` and `TOT`, each of which must hold a value (R43). -/
def commitStep (s : State) : Answers State :=
  match s.candHeld && s.totHeld, stagedWords s.wbuf with
  | true, some ws => .next (succeed (populate ws s))
  | _, _ => .refused .unwrittenRead

/-- The instruction `ACCEPT_D`. -/
def execAcceptD (s : State) : Answers State := acceptDecode s

/-- The instruction `D_SCAN`. -/
def execDScan (s : State) : Answers State := .next (scanStep s)

/-- The instruction `D_READ`. -/
def execDRead (s : State) : Answers State := readStep s

/-- The instruction `D_CHECK`. -/
def execDCheck (s : State) : Answers State := .next (checkStep s)

/-- The instruction `D_INDEX`. -/
def execDIndex (s : State) : Answers State := .next (indexStep s)

/-- The instruction `D_COMMIT`. -/
def execDCommit (s : State) : Answers State := commitStep s

end Sys2Proof.Machine
end

