-- ==== Sys2Proof/Machine/EncodeSteps.lean ====
section
/-! DEFINITION. The three step rules of ENCODE (spec 41_encode R151 to R153). -/

namespace Sys2Proof.Machine

/-- R151 `ACCEPT_E`: the block's sum is not checked; the command record is taken. -/
def acceptEncode (s : State) : Answers State :=
  match encodeRefusal s with
  | some r => .refused r
  | none => .next (setPhase .eMark (takeCommand (beginEncode s)))

/-- R152: the marker goes out as 16 literal bits with the tag `RATE`. -/
def emitMarker (s : State) : State := emit (.lit 16 Config.marker Config.rate) s

/-- R152 `E_MARK`. -/
def markStep (s : State) : State := setPhase .eWord (clearCount (emitMarker s))

/-- R153: one word goes out with the tag `RATE`, and is counted. -/
def emitWord (w : Word) (s : State) : State := countWord (emit (.modw w Config.rate) s)

/-- R153: the end of a word: the command ends after the last one. -/
def afterWord (s : State) : State := if s.wcnt = Config.nwords then succeed s else setPhase .eWord s

/-- R153 `E_WORD`. -/
def wordStep (s : State) : Answers State := andThen (blkWord s s.wcnt) fun w => .next (afterWord (emitWord w s))

/-- The instruction `ACCEPT_E`. -/
def execAcceptE (s : State) : Answers State := acceptEncode s

/-- The instruction `E_MARK`. -/
def execEMark (s : State) : Answers State := .next (markStep s)

/-- The instruction `E_WORD`. -/
def execEWord (s : State) : Answers State := wordStep s

end Sys2Proof.Machine
end

