-- ==== Sys2Proof/Machine/Commands.lean ====
section
/-! DEFINITION. The two commands as whole functions (spec 40_decode R120, 41_encode R150): ordinary sequential programs
over the registers, in which `PHASE` has no part. -/

namespace Sys2Proof.Machine

/-- R120, the inner loop: `left` more groups. Ends in error with `Truncated` taken, or with all words staged. -/
def readBody : Nat → State → Except State State
  | 0, s => .ok s
  | left + 1, s =>
    match s.cursor.nextBytes with
    | (none, c) => .error (raise .truncated (setCursor c s))
    | (some g, c) => readBody left (takeGroup g (s.theCodec.demod g) (setCursor c s))

/-- R120, after an accepted candidate: seek the index mark, then populate block and descriptor. -/
def finishDecode (s : State) : Answers State :=
  let (n, t) := seekIndex s
  let u := recordTotal n t
  match stagedWords u.wbuf with
  | some ws => .next (succeed (populate ws u))
  | none => .refused .unwrittenRead

/-- R120, the loop over attempts, one turn for each scanned bit, at most `fuel` turns. On a captured stream the fuel reaches
to its end, so a turn with `EXH` comes before it runs out. Where it runs out, the command is still scanning, and the step
machine carries it on (R247; log 21). -/
def attempts : Nat → State → Answers State
  | 0, s => .next (setPhase .dScan s)
  | fuel + 1, s =>
    match s.cursor.nextBit with
    | (none, c) => .next (raise .notFound (setCursor c s))
    | (some b, c) =>
      let t := observeBit b (setCursor c s)
      if t.atMarker then
        match readBody Config.nwords (beginCandidate t.cursor.lastOffset t) with
        | .error u => .next u
        | .ok u => if u.sumAccepted then finishDecode u else attempts fuel u
      else attempts fuel t

/-- R120 `DECODE desc, cur`. On a cursor whose end is not in sight no one function is the whole command (R247: it may never
end): there the command is launched and its steps show the run (log 21). -/
def decodeWhole (s : State) : Answers State :=
  match decodeRefusal s with
  | some r => .refused r
  | none => attempts s.cursor.turns (beginDecode s)

/-- R150, the loop: `left` more words, from word `i` on. -/
def encodeBody : Nat → Nat → State → Answers State
  | 0, _, s => .next (succeed s)
  | left + 1, i, s => andThen (blkWord s i) fun w => encodeBody left (i + 1) (emitWord w s)

/-- R150 `ENCODE desc, sink`. -/
def encodeWhole (s : State) : Answers State :=
  match encodeRefusal s with
  | some r => .refused r
  | none => encodeBody Config.nwords 0 (emitMarker (beginEncode s))

/-- The instruction `DECODE`. -/
def execDecode (s : State) : Answers State := decodeWhole s

/-- The instruction `ENCODE`. -/
def execEncode (s : State) : Answers State := encodeWhole s

end Sys2Proof.Machine
end

