-- ==== Sys2Proof/Machine/Frame.lean ====
section
/-! DEFINITION. The two fields of a frame as they cross the track boundary (spec 30_encoding R95 to R97, R101, R106;
log 13): in a scanning or reading phase the field comes in, in an emitting phase it goes out, and in any other phase the
framer touches no raw bit. -/

namespace Sys2Proof.Machine

/-- At most `n` bits are scanned, one `D_SCAN` step each (R122), as long as the framer scans. -/
def scanBits : Nat → State → State
  | 0, s => s
  | n + 1, s => if s.phase = .dScan then scanBits n (scanStep s) else s

/-- A field that stands next on the captured stream is scanned bit by bit. -/
def scanField (field : List Bool) (s : State) : Answers State :=
  if s.cursor.next field then .next (scanBits field.length s) else .refused .fieldNotHere

/-- R97: a group that stands next on the captured stream is read whole. -/
def readField (g : Group) (s : State) : Answers State :=
  if s.cursor.next (toBits g) then readStep s else .refused .fieldNotHere

/-- R95: a group that is the modulated form of the word at hand is emitted. -/
def emitField (g : Group) (s : State) : Answers State :=
  andThen (blkWord s s.wcnt) fun w =>
    if s.theCodec.mod s.lastRawBit w = g then wordStep s else .refused .fieldNotHere

/-- The instruction `MARK`: a marker only where the framer scans (R101, R129); among groups its bits are data and the
next group read takes them. -/
def execMark (s : State) : Answers State :=
  match s.phase with
  | .dScan => scanField (toBits Config.marker) s
  | .eMark => .next (markStep s)
  | .idle => .next s
  | .dRead => .next s
  | .dCheck => .next s
  | .dIndex => .next s
  | .dCommit => .next s
  | .eWord => .next s

/-- The instruction `GRP`: read whole among groups; while the framer scans, 64 bits like any other. -/
def execGrp (g : Group) (s : State) : Answers State :=
  match s.phase with
  | .dRead => readField g s
  | .dScan => scanField (toBits g) s
  | .eWord => emitField g s
  | .idle => .next s
  | .dCheck => .next s
  | .dIndex => .next s
  | .dCommit => .next s
  | .eMark => .next s

end Sys2Proof.Machine
end

