-- ==== Sys2Proof/Machine/Requests.lean ====
section
/-! DEFINITION. The eight requests to the collaborators, run by themselves (spec 42_collaborators R171 to R186, 30_encoding
R100): the collaborator does its part, and the answer is left in `ans` (log 6). -/

namespace Sys2Proof.Machine

/-- The instruction `NEXT_BIT` (R171). -/
def execNextBit (s : State) : Answers State :=
  match s.cursor.nextBit with
  | (some b, c) => .next (answer (.bit b) (setCursor c s))
  | (none, c) => .next (answer .exh (setCursor c s))

/-- The instruction `NEXT_BYTES(8)` (R172). -/
def execNextBytes (s : State) : Answers State :=
  match s.cursor.nextBytes with
  | (some g, c) => .next (answer (.group g) (setCursor c s))
  | (none, c) => .next (answer .exh (setCursor c s))

/-- The instruction `OFFSET` (R173): no answer before any bit was delivered (U14). -/
def execOffset (s : State) : Answers State :=
  if s.cursor.pos = 0 then .refused .offsetBeforeBit else .next (answer (.offset s.cursor.lastOffset) s)

/-- The instruction `SEEK_INDEX` (R174). -/
def execSeekIndex (s : State) : Answers State :=
  let (n, t) := seekIndex s
  .next (answer (.length n) t)

/-- The instruction `DEMOD(g)` (R179). -/
def execDemod (g : Group) (s : State) : Answers State := .next (answer (.word (s.theCodec.demod g)) s)

/-- The instruction `MOD(p, w)` (R180). -/
def execMod (p : Bool) (w : Word) (s : State) : Answers State := .next (answer (.group (s.theCodec.mod p w)) s)

/-- The instruction `EMIT_LIT(n, v, rate)` (R185). -/
def execEmitLit (n : Nat) (v : BitVec n) (rate : Rate) (s : State) : Answers State :=
  .next (answer .none (emit (.lit n v rate) s))

/-- The instruction `EMIT_MOD(w, rate)` (R186): the sink modulates the word (C8). -/
def execEmitMod (w : Word) (rate : Rate) (s : State) : Answers State :=
  .next (answer .none (emit (.modw w rate) s))

end Sys2Proof.Machine
end

