-- ==== Sys2Proof/Machine/Dispatch.lean ====
section
/-! DEFINITION. The meaning of every row of the opcode table. -/

namespace Sys2Proof.Machine

def exec (i : Instr) (s : State) : Host.Outcome State Fault Refusal :=
  match i with
  | .decode => Sys2Proof.Machine.execDecode s
  | .encode => Sys2Proof.Machine.execEncode s
  | .mark => Sys2Proof.Machine.execMark s
  | .grp g => Sys2Proof.Machine.execGrp g s
  | .acceptD => Sys2Proof.Machine.execAcceptD s
  | .acceptE => Sys2Proof.Machine.execAcceptE s
  | .dScan => Sys2Proof.Machine.execDScan s
  | .dRead => Sys2Proof.Machine.execDRead s
  | .dCheck => Sys2Proof.Machine.execDCheck s
  | .dIndex => Sys2Proof.Machine.execDIndex s
  | .dCommit => Sys2Proof.Machine.execDCommit s
  | .eMark => Sys2Proof.Machine.execEMark s
  | .eWord => Sys2Proof.Machine.execEWord s
  | .nextBit => Sys2Proof.Machine.execNextBit s
  | .nextBytes => Sys2Proof.Machine.execNextBytes s
  | .offset => Sys2Proof.Machine.execOffset s
  | .seekIndex => Sys2Proof.Machine.execSeekIndex s
  | .demod g => Sys2Proof.Machine.execDemod g s
  | .mod p w => Sys2Proof.Machine.execMod p w s
  | .emitLit n v rate => Sys2Proof.Machine.execEmitLit n v rate s
  | .emitMod w rate => Sys2Proof.Machine.execEmitMod w rate s

end Sys2Proof.Machine
end

