-- ==== Sys2Proof/Machine/Fetch.lean ====
section
/-! DEFINITION. What the machine runs next (spec 10_state R21, 30_encoding R90, R101 to R103; logs 1 to 4). -/

namespace Sys2Proof.Machine

/-- What a step finds to do. -/
inductive Fetched where
  /-- No command in progress and none presented. -/
  | nothing
  /-- A situation the model gives no step. -/
  | stop (r : Refusal)
  /-- An item to decode and run, from this state. -/
  | item (i : Item) (s : State)
deriving DecidableEq, Repr

/-- R101: the selector string `PHASE ++ OP`, with `OP` as given. -/
def selector (p : Phase) (op : Nat) : Item := ⟨.step, [BitVec.ofNat 8 (2 * p.code + op)]⟩

/-- R101: the selector of a phase of a running command, whose `OP` the phase implies (R22, log 15). -/
def Phase.selector (p : Phase) : Item := Machine.selector p ((p.impliedOp.map Op.code).getD 0)

/-- R90, R101, R102: the accept step a presented command code selects in `IDLE`. -/
def fetchCommand (code : Byte) (s : State) : Fetched :=
  match decodeCmd [code] with
  | .ok (.decode, _) => .item (selector .idle Op.decode.code) s
  | .ok (.encode, _) => .item (selector .idle Op.encode.code) s
  | _ => .stop .unknownCommand

/-- An issued item (log 3): never a step rule, which `PHASE` alone selects (R21); never a request while a command runs,
whose collaborators are the framer's alone (R240). -/
def fetchIssued (it : Item) (s : State) : Fetched :=
  if it.format = .step then .stop .stepNotIssued
  else if it.format = .req ∧ s.phase ≠ .idle then .stop .sharedAccess
  else .item it { s with issue := none }

/-- R21, R103: the step rule of the phase, or, in `IDLE`, that of the command presented, if any (log 4). A command
presented while another runs has no step: refused as `busy` whatever its code, although R212 gives no order between `busy`
and `unknown_command` (DESIGN CHOICE, log 4). -/
def fetchPhase (s : State) : Fetched :=
  match s.phase, s.cmd with
  | .idle, none => .nothing
  | .idle, some code => fetchCommand code s
  | _, some _ => .stop .busy
  | p, none => .item p.selector s

/-- What the machine runs next: an issued item before anything else (DESIGN CHOICE, logs 3, 4). -/
def fetch (s : State) : Fetched :=
  match s.issue with
  | some it => fetchIssued it s
  | none => fetchPhase s

/-- The refusal for bytes that are no instruction. -/
def undecodableItem (e : DecodeError) : Refusal := .undecodable e

/-- R21: the phase with a code number. -/
def phaseOfCode : Nat → Phase
  | 0 => .idle
  | 1 => .dScan
  | 2 => .dRead
  | 3 => .dCheck
  | 4 => .dIndex
  | 5 => .dCommit
  | 6 => .eMark
  | _ => .eWord

/-- A word of the opcode table put where the next step finds it (log 1): a step selector in `PHASE` and the presented
command, a frame field on the track before a framer in the phase that reads it, a command or a request in `issue`. -/
def placeItem (it : Item) (w : Nat) (s : State) : State :=
  match it.format with
  | .step =>
    if (stepOfSelector w).isSome then
      { s with issue := none, phase := phaseOfCode (w / 2), cmd := if w < 2 then some (BitVec.ofNat 8 w) else none }
    else { s with issue := some it }
  | .frame16 =>
    { s with issue := some it, phase := .dScan, cursor := s.cursor.place (toBits (BitVec.ofNat 16 w)) }
  | .frame64 =>
    { s with issue := some it, phase := .dRead, cursor := s.cursor.place (toBits (BitVec.ofNat 64 w)) }
  | .cmd => { s with issue := some it }
  | .req => { s with issue := some it }

end Sys2Proof.Machine
end

