-- ==== Sys2Proof/Machine/Step.lean ====
section
/-! DEFINITION. One transition of the machine. -/

namespace Sys2Proof.Machine

/-- One transition (R21, D27): what the machine finds next is decoded and run. Where there is nothing to do, nothing
changes (R211, log 4). -/
def step (s : State) : Host.Outcome State Fault Refusal :=
  match fetch s with
  | .nothing => .next s
  | .stop r => .refused r
  | .item it t =>
    match decodeItem it.format it.bytes with
    | .ok (i, _) => exec i t
    | .error e => .refused (undecodableItem e)

/-- The state with a word of the opcode table stored where `step` finds its next instruction (log 1). -/
def State.withFetchWord (s : State) (nbits w : Nat) : State := placeItem (tableItem nbits w) w s

end Sys2Proof.Machine
end

