-- ==== Sys2Proof/Machine/HostPort.lean ====
section
/-! DEFINITION. What the host can do between commands (spec 00_scope R9, 20_memory R75, 30_encoding R90, R102, R103,
60_exceptions R212, 70_reset_and_hazards R231, R234 to R240). None of these is an instruction. -/

namespace Sys2Proof.Machine

/-- R75, R240: the host touches a command's state only when `PHASE = IDLE`. DESIGN CHOICES: a command record presented and not
yet accepted does not keep it away, though presentation and acceptance are one in R9 and R90 (log 4); where the spec names no
reason for a refusal, it is `sharedAccess` (log 18). -/
def whenIdle {α : Type} (s : State) (a : Answers α) : Answers α :=
  if s.phase = .idle then a else .refused .sharedAccess

/-- R90, R102, R103: the host presents a command record. DESIGN CHOICES, log 4: a record presented in `IDLE` before an earlier
one was accepted replaces it; a code other than 0 and 1 presented while a command runs is refused as `busy`. -/
def hostPresent (code : Byte) (s : State) : Answers State :=
  if s.phase ≠ .idle then .refused .busy
  else
    match decodeCmd [code] with
    | .ok _ => .next { s with cmd := some code }
    | .error _ => .refused .unknownCommand

/-- R34, R234: the host attaches a track's descriptor and its block. DESIGN CHOICE, log 4: a record that waits gets them as its
`DESC` (R90). -/
def hostAttachTrack (d : Desc) (b : Memory Byte) (s : State) : Answers State :=
  whenIdle s (.next { s with desc := d, blk := b })

/-- R234 (c), R236: the host attaches a cursor, anywhere on the track. DESIGN CHOICE, log 4: a record that waits gets it as its
`PORT` (R90). -/
def hostAttachCursor (c : Cursor) (s : State) : Answers State := whenIdle s (.next { s with cursor := c })

/-- R235 (b), R237: the host attaches a sink, with whatever it already holds. DESIGN CHOICE, log 4: a record that waits gets it
as its `PORT` (R90). -/
def hostAttachSink (es : List Emission) (s : State) : Answers State := whenIdle s (.next { s with sink := es })

/-- R8, R178: the host plugs in a codec. DESIGN CHOICES: what the sink holds is flattened with it from here on (log 7), and a
record that waits runs with it (log 4). -/
def hostPlugCodec (c : CodecChoice) (s : State) : Answers State := whenIdle s (.next { s with codec := c })

/-- R94: the response record: the result code, and descriptor, block and port as the command left them. -/
structure Response where
  res : Res
  desc : Desc
  blk : Memory Byte
  cursor : Cursor
  sink : List Emission
deriving DecidableEq, Repr

/-- R94, R75: what the host is handed back when a command has ended. DESIGN CHOICE, log 12: with `OWN = 0` the record is handed
back whole all the same, the fields that hold no value (R43) with what stands in them; only a read of such a field is refused.
It is answered in `IDLE` whether or not a command has ended. -/
def hostResponse (s : State) : Answers Response :=
  whenIdle s (.next { res := s.res, desc := s.desc, blk := s.blk, cursor := s.cursor, sink := s.sink })

/-- R30, R75: the host reads `RES`. DESIGN CHOICE, log 18: while a command runs the refusal is `sharedAccess`, whose row in R212
does not name `RES`. -/
def hostReadRes (s : State) : Answers Res := whenIdle s (.next s.res)

/-- R39: the host reads `DESC.VALID[0]`. -/
def hostReadValid (s : State) : Answers Bool := whenIdle s (.next s.desc.valid)

/-- R40: the host reads `DESC.OWN`. -/
def hostReadOwn (s : State) : Answers Bool := whenIdle s (.next s.desc.own)

/-- R37, R43: the host reads `DESC.DATA_BITOFF`. -/
def hostReadDataBitoff (s : State) : Answers Int :=
  whenIdle s (if s.desc.own then .next s.desc.dataBitoff else .refused .unwrittenRead)

/-- R38, R43: the host reads `DESC.TOTAL_BITS`. -/
def hostReadTotalBits (s : State) : Answers Nat :=
  whenIdle s (if s.desc.own then .next s.desc.totalBits else .refused .unwrittenRead)

/-- R41, R43: the host reads a byte of the block. -/
def hostReadBlk (addr : Nat) (s : State) : Answers Byte :=
  whenIdle s
    (if Config.len ≤ addr then .fault .blkAddress
     else if s.desc.own = false then .refused .unwrittenRead
     else
       match s.blk.read addr with
       | some b => .next b
       | none => .refused .unwrittenRead)

/-- R46, R231: power-on reset of the framer; the descriptor, block, cursor, sink and codec are the host's and stay. DESIGN
CHOICES: a command record presented and not yet accepted is dropped (log 4), and so are the model's own `issue` and `ans`
(logs 3, 6). -/
def powerOn (s : State) : State :=
  { State.reset with
    desc := s.desc, blk := s.blk, cursor := s.cursor, sink := s.sink, codec := s.codec, draws := s.draws }

end Sys2Proof.Machine
end

