-- ==== Sys2Proof/Safety.lean ====
section
/-! DEFINITION. The terms in which claims speak of runs: what a run is, when it has ended, what every step keeps, where a
marker stands in a stream. -/

namespace Sys2Proof.Machine

/-- `n` transitions, ending early at a fault or a refusal. -/
def runSteps : Nat → State → Answers State
  | 0, s => .next s
  | n + 1, s => andThen (step s) (runSteps n)

/-- R250: a command has ended. -/
def State.ended (s : State) : Prop := s.phase = .idle ∧ s.res ≠ .none

/-- R234: what the host sets up before a DECODE. -/
def State.readyToDecode (s : State) : Prop :=
  s.phase = .idle ∧ s.desc.len = 6144 ∧ s.desc.nsec = 1 ∧ s.desc.own = false

/-- R235: what the host sets up before an ENCODE of these words; the gate (R238) is not asked for. -/
def State.readyToEncode (s : State) (ws : List Word) : Prop :=
  s.phase = .idle ∧ s.desc.len = 6144 ∧ s.desc.nsec = 1 ∧ s.desc.own = true ∧ blkWords s.blk = some ws

/-- R90: the host has presented a command record and nothing else is under way. -/
def State.presented (s : State) (code : Byte) : Prop := s.issue = none ∧ s.cmd = some code

/-- R66, R129: in some bits the marker first stands at position `p`. -/
def firstMarkerAt (bits : List Bool) (p : Nat) : Prop :=
  (bits.drop p).take 16 = toBits Config.marker ∧ ∀ q < p, (bits.drop q).take 16 ≠ toBits Config.marker

/-- R135: the marker stands nowhere in some bits. -/
def noMarkerIn (bits : List Bool) : Prop := ∀ q, (bits.drop q).take 16 ≠ toBits Config.marker

/-- R123, R67: the words a codec finds in a body of raw bits, 64 bits each. -/
def bodyWords (c : Codec) (body : List Bool) : List Word :=
  (List.range Config.nwords).map fun i => c.demod (ofBits 64 ((body.drop (64 * i)).take 64))

/-- R124, R129, R130: from the first bits the scan comes to the last ones by rejected candidates alone. Each has all its
groups, and a word sum other than `CKSUM`; the next position tested is 98305 after its marker's start. -/
inductive Skips (c : Codec) : List Bool → List Bool → Prop where
  | refl (xs : List Bool) : Skips c xs xs
  | reject (xs ys : List Bool) (p : Nat) : firstMarkerAt xs p → p + Config.frameBits ≤ xs.length →
      sumWords (bodyWords c (xs.drop (p + 16))) ≠ Config.cksum → Skips c (xs.drop (p + 98305)) ys → Skips c xs ys

/-- R44, R176: the cursor reads one finite capture. -/
def Cursor.captured (c : Cursor) : Prop := c.kind = .reference ∨ c.kind = .consuming

/-- R61, R176: the cursor reads one finite capture and is in it. -/
def Cursor.inCapture (c : Cursor) : Prop := c.captured ∧ c.pos ≤ c.bits.length

/-- 93 U8: the cursor never exhausts. -/
def Cursor.endless (c : Cursor) : Prop := ∀ i, c.bitAt i ≠ none

/-- R176 `base(q)` for the bit before `pos`: the greatest mark at or before it, or 0 if there is none. -/
def isBase (marks : List Nat) (pos b : Nat) : Prop :=
  (b ∈ marks ∧ b < pos ∧ ∀ m ∈ marks, m < pos → m ≤ b) ∨ (b = 0 ∧ ∀ m ∈ marks, pos ≤ m)

/-- R176: the least mark after the bit before `pos`. -/
def isNextMark (marks : List Nat) (pos m : Nat) : Prop :=
  m ∈ marks ∧ pos ≤ m ∧ ∀ m' ∈ marks, pos ≤ m' → m ≤ m'

/-- 93 U2: the premises under which offsets fit registers of `OFFW` bits. -/
def State.offsetsFit (s : State) : Prop := 0 ≤ s.cand ∧ s.tot < 2 ^ Config.offw

/-- The phases in which a candidate's words are staged (R25 to R28). -/
def Phase.hasCandidate (p : Phase) : Prop := p = .dRead ∨ p = .dCheck ∨ p = .dIndex ∨ p = .dCommit

/-- What every step keeps. -/
structure State.Inv (s : State) : Prop where
  /-- R24: `NOBS` is 0 to 16. -/
  nobs_le : s.nobs ≤ 16
  /-- R26: `WCNT` never exceeds 1536. -/
  wcnt_le : s.wcnt ≤ 1536
  /-- R26: a word loop that goes on has words left. -/
  wcnt_lt : s.phase = .dRead ∨ s.phase = .eWord → s.wcnt < 1536
  /-- R176: `0 <= pos <= N`. -/
  pos_le : s.cursor.captured → s.cursor.pos ≤ s.cursor.bits.length
  /-- R176: every mark lies in the capture. -/
  marks_le : s.cursor.captured → ∀ m ∈ s.cursor.marks, m ≤ s.cursor.bits.length
  /-- The block's canonical form. -/
  blk_wf : s.blk.wf
  /-- R41: the block has the addresses 0 to 6143. -/
  blk_lt : ∀ c ∈ s.blk, c.1 < 6144
  /-- The staging buffer's canonical form. -/
  wbuf_wf : s.wbuf.wf
  /-- R28: the staging buffer has the indices 0 to 1535. -/
  wbuf_lt : ∀ c ∈ s.wbuf, c.1 < 1536
  /-- R30, R46: no result while a command is in progress. -/
  res_none : s.phase ≠ .idle → s.res = .none
  /-- R104: a command in progress has a descriptor of the one scheme. -/
  legal : s.phase ≠ .idle → s.desc.len = 6144 ∧ s.desc.nsec = 1
  /-- R22: `PHASE` implies `OP`. -/
  op_phase : ∀ o, s.phase.impliedOp = some o → s.op = o
  /-- R42, R104: DECODE runs on an unpopulated descriptor, ENCODE on a populated one. -/
  own_phase : ∀ o, s.phase.impliedOp = some o → (s.desc.own = true ↔ o = .encode)
  /-- R27: a candidate has an offset, and 16 bits have been observed. -/
  cand_held : s.phase.hasCandidate → s.candHeld = true ∧ s.nobs = 16
  /-- R25, R28: `SUM` is the wrapping sum of the words staged so far. -/
  sum_staged : s.phase.hasCandidate → ∃ ws, collect s.wbuf.read 0 s.wcnt = some ws ∧ s.sum = sumWords ws
  /-- R136: the check follows 1536 words. -/
  all_read : s.phase = .dCheck ∨ s.phase = .dIndex ∨ s.phase = .dCommit → s.wcnt = 1536
  /-- R124: only an accepted candidate goes on. -/
  accepted : s.phase = .dIndex ∨ s.phase = .dCommit → s.sum = Config.cksum
  /-- R29: the commit step finds a revolution length. -/
  tot_held : s.phase = .dCommit → s.totHeld = true
  /-- R238: a produced block has 1536 words, and they pass the gate. -/
  gate : s.desc.own = true → s.desc.valid = true ∧ ∃ ws, blkWords s.blk = some ws ∧ sumWords ws = Config.cksum

end Sys2Proof.Machine
end

