-- ==== Sys2Proof/Certificates/Slice0/Obligations.lean ====
section
/-! DEFINITION. The statements for the provers. Rule numbers are those of spec/; log numbers those of notes/assumptions. -/

open Sys2Proof Sys2Proof.Machine

/-! ### What a step runs; decoding and encoding -/

/-- A step runs the decoded instruction. Where nothing is issued the item is the phase's selector (R21, R101) or, in `IDLE`,
the accept step of the command presented; an issued item (the model's own port, log 3) is taken out of the port and run. -/
def Obligations.StepRunsTheDecodedInstruction : Prop :=
  (∀ (s : State) (i : Instr) (rest : List Byte),
    s.issue = none → s.cmd = none → s.phase ≠ .idle →
    decodeItem .step s.phase.selector.bytes = .ok (i, rest) → i.wf = true → step s = exec i s) ∧
  (∀ (s : State) (code : Byte) (rest : List Byte),
    s.presented code → s.phase = .idle →
    (decodeItem .cmd [code] = .ok (.decode, rest) → step s = exec .acceptD s) ∧
    (decodeItem .cmd [code] = .ok (.encode, rest) → step s = exec .acceptE s)) ∧
  (∀ (s : State) (it : Item) (i : Instr) (rest : List Byte),
    s.issue = some it → it.format ≠ .step → (it.format = .req → s.phase = .idle) →
    decodeItem it.format it.bytes = .ok (i, rest) → i.wf = true → step s = exec i { s with issue := none })

/-- R21, R90, R101: the step rule each value of `PHASE` selects, and the accept step each command code selects in `IDLE`.
With no command presented nothing happens in `IDLE` (the model's choice, log 4). -/
def Obligations.PhaseSelectsItsStepRule : Prop :=
  ∀ s : State, s.issue = none →
    (s.cmd = none →
      (s.phase = .idle → step s = .next s) ∧
      (s.phase = .dScan → step s = exec .dScan s) ∧
      (s.phase = .dRead → step s = exec .dRead s) ∧
      (s.phase = .dCheck → step s = exec .dCheck s) ∧
      (s.phase = .dIndex → step s = exec .dIndex s) ∧
      (s.phase = .dCommit → step s = exec .dCommit s) ∧
      (s.phase = .eMark → step s = exec .eMark s) ∧
      (s.phase = .eWord → step s = exec .eWord s)) ∧
    (s.phase = .idle →
      (s.cmd = some 0#8 → step s = exec .acceptD s) ∧ (s.cmd = some 1#8 → step s = exec .acceptE s))

/-- R102, R103, R212: a presented code other than 0 and 1 is refused; a command presented while another runs has no step,
and the commands themselves refuse then. That a code other than 0 and 1 is refused as `busy` while a command runs is the
model's choice between two reasons of R212 (log 4). -/
def Obligations.UnknownAndBusyCommandsAreRefused : Prop :=
  (∀ (s : State) (code : Byte), s.presented code → s.phase = .idle → 2 ≤ code.toNat → step s = .refused .unknownCommand) ∧
  (∀ (s : State) (code : Byte), s.presented code → s.phase ≠ .idle → step s = .refused .busy) ∧
  (∀ s : State, s.phase ≠ .idle →
    exec .decode s = .refused .busy ∧ exec .encode s = .refused .busy ∧
    exec .acceptD s = .refused .busy ∧ exec .acceptE s = .refused .busy)

/-- R21, R240, R212: a step rule is not issued by itself, and no request is while a command runs, whose collaborators are
the framer's alone (the issue port is the model's own, log 3). -/
def Obligations.IssuePortKeepsOutStepsAndSharedAccess : Prop :=
  ∀ (s : State) (it : Item), s.issue = some it →
    (it.format = .step → step s = .refused .stepNotIssued) ∧
    (it.format = .req → s.phase ≠ .idle → step s = .refused .sharedAccess) ∧
    (∀ e, it.format = .cmd → decodeItem .cmd it.bytes = .error e → step s = .refused (.undecodable e))

/-- Decode and encode agree, for every row of the opcode table and every operand its encoding admits. -/
def Obligations.DecodeOfEncodeIsTheInstruction : Prop :=
  ∀ (i : Instr) (rest : List Byte), i.wf = true → decodeItem (formatOf i) (encodeItem i ++ rest) = .ok (i, rest)

/-- Every word of a format has one meaning: what the decoder reads is well-formed, of that format, and encodes to the bytes
it was read from. -/
def Obligations.EncodeOfDecodeIsTheBytes : Prop :=
  ∀ (f : Format) (bs : List Byte) (i : Instr) (rest : List Byte),
    decodeItem f bs = .ok (i, rest) → i.wf = true ∧ formatOf i = f ∧ bs = encodeItem i ++ rest

/-- A few words of the opcode table, written out from its encodings (R90, R96, R97, R100, R101). -/
def Obligations.TableWordsDecode : Prop :=
  decodeItem .cmd [0b0#8] = .ok (.decode, []) ∧ decodeItem .cmd [0b1#8] = .ok (.encode, []) ∧
  decodeItem .frame16 [0b01101100#8, 0b10110001#8] = .ok (.mark, []) ∧
  decodeItem .frame64 [0x14#8, 0x52#8, 0x94#8, 0x54#8, 0xAA#8, 0x55#8, 0x14#8, 0x91#8] =
    .ok (.grp 0x14529454AA551491#64, []) ∧
  decodeItem .step [0b0010#8] = .ok (.dScan, []) ∧ decodeItem .step [0b1111#8] = .ok (.eWord, []) ∧
  decodeItem .step [0b0011#8] = .error .noSuchStep ∧ decodeItem .req [0b011#8] = .ok (.seekIndex, [])

/-! ### The steps of DECODE -/

/-- R121 `ACCEPT_D`. The last line of the next state (`CAND`, `TOT`, `WBUF` hold no value from here on, and the command
record is taken) follows R46 and R90 (logs 4, 12). -/
def Obligations.AcceptDStartsAnInvocation : Prop :=
  ∀ s : State, s.phase = .idle →
    (s.desc.len ≠ 6144 ∨ s.desc.nsec ≠ 1 → exec .acceptD s = .refused .badLength) ∧
    (s.desc.len = 6144 → s.desc.nsec = 1 → s.desc.own = true → exec .acceptD s = .refused .alreadyPopulated) ∧
    (s.readyToDecode →
      exec .acceptD s = .next
        { s with
          op := .decode, res := .none, win := 0x0000#16, nobs := 0, sum := 0x00000000#32, wcnt := 0, phase := .dScan,
          candHeld := false, totHeld := false, wbuf := [], cmd := none })

/-- R122 `D_SCAN`, on any cursor: exhaustion, a bit that completes the marker, any other bit. That exhaustion leaves an open
cursor's further state as it was is the model's choice (log 8). -/
def Obligations.DScanPullsOneBit : Prop :=
  ∀ s : State,
    (s.cursor.bitAt s.cursor.pos = none → exec .dScan s = .next { s with res := .notFound, phase := .idle }) ∧
    (∀ r : Bool, s.cursor.bitAt s.cursor.pos = some r →
      let win := s.win.extractLsb' 0 15 ++ BitVec.ofBool r
      let cur := s.cursor.advanced 1
      (16 ≤ s.nobs + 1 ∧ win = 0x6CB1#16 →
        exec .dScan s = .next
          { s with
            cursor := cur, win := win, nobs := 16, cand := cur.lastOffset - 15, candHeld := true, sum := 0x00000000#32,
            wcnt := 0, phase := .dRead }) ∧
      (¬(16 ≤ s.nobs + 1 ∧ win = 0x6CB1#16) →
        exec .dScan s = .next { s with cursor := cur, win := win, nobs := min (s.nobs + 1) 16, phase := .dScan }))

/-- R123 `D_READ`, on any cursor: exhaustion, with `n` bits left; a group `g`, whose bits are the next 64 and whose first is
`g[63]`. What exhaustion does to an open cursor's further state (one tick for each bit that was left) R131 leaves to the
cursor; it is the model's choice (log 8). -/
def Obligations.DReadTakesOneGroup : Prop :=
  ∀ s : State,
    (∀ n < 64, (∀ i < n, s.cursor.bitAt (s.cursor.pos + i) ≠ none) → s.cursor.bitAt (s.cursor.pos + n) = none →
      exec .dRead s = .next { s with cursor := s.cursor.advanced n, res := .truncated, phase := .idle }) ∧
    (∀ g : Group, s.wcnt < 1536 → (∀ i < 64, s.cursor.bitAt (s.cursor.pos + i) = some (g.getMsbD i)) →
      let w := s.theCodec.demod g
      exec .dRead s = .next
        { s with
          cursor := s.cursor.advanced 64, wbuf := s.wbuf.write s.wcnt w, sum := s.sum + w, win := g.extractLsb' 0 16,
          nobs := 16, wcnt := s.wcnt + 1, phase := if s.wcnt + 1 = 1536 then .dCheck else .dRead })

/-- R123, R28: the staging buffer after a group holds the group's word at `WCNT` and every other entry as before; the store
keeps its canonical form. -/
def Obligations.DReadStagesTheWordAlone : Prop :=
  ∀ (s : State) (g : Group), s.wcnt < 1536 → s.cursor.upTo 64 = toBits g →
    ∃ t, exec .dRead s = .next t ∧ t.wbuf.read s.wcnt = some (s.theCodec.demod g) ∧
      (∀ i, i ≠ s.wcnt → t.wbuf.read i = s.wbuf.read i) ∧ (s.wbuf.wf → t.wbuf.wf)

/-- R124, R203 `D_CHECK`: no register is written but `PHASE`; a mismatch resumes scanning and is no failure. -/
def Obligations.DCheckComparesTheSum : Prop :=
  ∀ s : State,
    (s.sum = 0x28F53CB9#32 → exec .dCheck s = .next { s with phase := .dIndex }) ∧
    (s.sum ≠ 0x28F53CB9#32 → exec .dCheck s = .next { s with phase := .dScan })

/-- R125 `D_INDEX`, with R174 and R176: to the next index mark and the length it completes, as `SEEK_INDEX` answers it on
any cursor; on the reference stream. Where the spec states no length (no further mark; no bit delivered yet, log 9) nothing
is claimed of it but that it is the next draw. -/
def Obligations.DIndexRecordsTheRevolution : Prop :=
  (∀ s : State, ∃ n t, exec .seekIndex s = .next t ∧ t.ans = .length n ∧
    exec .dIndex s = .next { t with ans := s.ans, tot := n, totHeld := true, phase := .dCommit }) ∧
  ∀ s : State, s.cursor.kind = .reference →
    (∀ m b, 1 ≤ s.cursor.pos → isNextMark s.cursor.marks s.cursor.pos m → isBase s.cursor.marks s.cursor.pos b →
      exec .dIndex s = .next
        { s with cursor := { s.cursor with pos := m }, tot := m - b, totHeld := true, phase := .dCommit }) ∧
    (∀ m, s.cursor.pos = 0 → isNextMark s.cursor.marks 0 m →
      exec .dIndex s = .next
        { s with
          cursor := { s.cursor with pos := m }, tot := Config.indexMissingLen s.draws, totHeld := true,
          draws := s.draws + 1, phase := .dCommit }) ∧
    ((∀ m ∈ s.cursor.marks, m < s.cursor.pos) → s.cursor.pos ≤ s.cursor.bits.length →
      exec .dIndex s = .next
        { s with
          cursor := { s.cursor with pos := s.cursor.bits.length }, tot := Config.indexMissingLen s.draws, totHeld := true,
          draws := s.draws + 1, phase := .dCommit })

/-- R126 `D_COMMIT`, byte by byte (R62, R65): all 6144 bytes of the block, most significant byte first, the four descriptor
fields, `RES` and `PHASE`; nothing else, and no byte outside the block. -/
def Obligations.DCommitPopulatesBlockAndDescriptor : Prop :=
  ∀ (s : State) (w : Nat → Word), s.candHeld = true → s.totHeld = true →
    (∀ i < 1536, s.wbuf.read i = some (w i)) →
    ∃ t, exec .dCommit s = .next t ∧
      (∀ i < 1536,
        t.blk.read (4 * i) = some ((w i).extractLsb' 24 8) ∧ t.blk.read (4 * i + 1) = some ((w i).extractLsb' 16 8) ∧
        t.blk.read (4 * i + 2) = some ((w i).extractLsb' 8 8) ∧ t.blk.read (4 * i + 3) = some ((w i).extractLsb' 0 8)) ∧
      (∀ a, 6144 ≤ a → t.blk.read a = s.blk.read a) ∧
      t = { s with
            blk := t.blk, desc := { s.desc with dataBitoff := s.cand, totalBits := s.tot, valid := true, own := true },
            res := .ok, phase := .idle }

/-- R43, R212: the commit step reads no register that holds no value, and the word step no byte that holds none. -/
def Obligations.UnwrittenStateIsNotRead : Prop :=
  (∀ s : State, s.candHeld = false ∨ s.totHeld = false ∨ (∃ i < 1536, s.wbuf.read i = none) →
    exec .dCommit s = .refused .unwrittenRead) ∧
  (∀ s : State, s.desc.own = false → exec .eWord s = .refused .unwrittenRead) ∧
  (∀ (s : State) (k : Nat), s.desc.own = true → s.wcnt < 1536 → k < 4 → s.blk.read (4 * s.wcnt + k) = none →
    exec .eWord s = .refused .unwrittenRead)

/-- R41, R28, R60: an entry of `WBUF` or a byte of `BLK` that does not exist is no access (log 19); no state that meets the
invariant comes to it. -/
def Obligations.NonexistentAddressesFault : Prop :=
  (∀ (s : State) (g : Group), 1536 ≤ s.wcnt → s.cursor.upTo 64 = toBits g → exec .dRead s = .fault .wbufIndex) ∧
  (∀ s : State, s.desc.own = true → 1536 ≤ s.wcnt → exec .eWord s = .fault .blkAddress) ∧
  (∀ (s : State) (r : Fault), s.Inv → step s ≠ .fault r)

/-! ### The steps of ENCODE -/

/-- R151 `ACCEPT_E`; the command record is taken (log 4). -/
def Obligations.AcceptEStartsAnInvocation : Prop :=
  ∀ s : State, s.phase = .idle →
    (s.desc.len ≠ 6144 ∨ s.desc.nsec ≠ 1 → exec .acceptE s = .refused .badLength) ∧
    (s.desc.len = 6144 → s.desc.nsec = 1 → s.desc.own = false → exec .acceptE s = .refused .noBlock) ∧
    (s.desc.len = 6144 → s.desc.nsec = 1 → s.desc.own = true →
      exec .acceptE s = .next { s with op := .encode, res := .none, wcnt := 0, phase := .eMark, cmd := none })

/-- R152 `E_MARK`: one literal emission with the tag `RATE`; the raw sequence grows by the marker's 16 bits. -/
def Obligations.EMarkEmitsTheMarker : Prop :=
  ∀ s : State, ∃ t,
    exec .eMark s = .next t ∧
    t = { s with sink := s.sink ++ [.lit 16 0x6CB1#16 Config.rate], wcnt := 0, phase := .eWord } ∧
    t.sinkBits =
      s.sinkBits ++
        [false, true, true, false, true, true, false, false, true, false, true, true, false, false, false, true]

/-- R153 `E_WORD`: the big-endian word at `4*WCNT` goes out; the raw sequence grows by `Mod` of the last raw bit and the
word; the command ends after the last word only. Where the sink holds no raw bit yet, the last raw bit is the model's open
one (log 11). -/
def Obligations.EWordEmitsOneWord : Prop :=
  ∀ (s : State) (b0 b1 b2 b3 : Byte), s.desc.own = true → s.wcnt < 1536 →
    s.blk.read (4 * s.wcnt) = some b0 → s.blk.read (4 * s.wcnt + 1) = some b1 →
    s.blk.read (4 * s.wcnt + 2) = some b2 → s.blk.read (4 * s.wcnt + 3) = some b3 →
    let w : Word := b0 ++ b1 ++ b2 ++ b3
    ∃ t,
      exec .eWord s = .next t ∧
      t.sinkBits = s.sinkBits ++ toBits (s.theCodec.mod s.lastRawBit w) ∧
      (s.wcnt + 1 ≠ 1536 →
        t = { s with sink := s.sink ++ [.modw w Config.rate], wcnt := s.wcnt + 1, phase := .eWord }) ∧
      (s.wcnt + 1 = 1536 →
        t = { s with sink := s.sink ++ [.modw w Config.rate], wcnt := s.wcnt + 1, res := .ok, phase := .idle })

/-! ### The requests -/

/-- R171 `NEXT_BIT`, on any cursor: the next undelivered bit, or `EXH`, and then for ever `EXH`. The answer stands in `ans`
(log 6). That `EXH` leaves an open cursor's further state as it was is the model's choice (log 8). What the bits are: those
of the capture (R176); of a revolving stream, the same over and over (93 U8, log 8). -/
def Obligations.NextBitDeliversTheNextBit : Prop :=
  ∀ s : State,
    (∀ b : Bool, s.cursor.bitAt s.cursor.pos = some b →
      exec .nextBit s = .next { s with cursor := s.cursor.advanced 1, ans := .bit b }) ∧
    (s.cursor.bitAt s.cursor.pos = none →
      exec .nextBit s = .next { s with ans := .exh } ∧ exec .nextBytes s = .next { s with ans := .exh }) ∧
    (s.cursor.captured →
      (∀ i, s.cursor.bitAt i = s.cursor.bits[i]?) ∧
      ∀ n, s.cursor.advanced n = { s.cursor with pos := s.cursor.pos + n }) ∧
    (s.cursor.kind = .revolving →
      (∀ i < s.cursor.bits.length, s.cursor.bitAt i = s.cursor.bits[i]?) ∧
      (∀ i, s.cursor.bitAt (i + s.cursor.bits.length) = s.cursor.bitAt i) ∧
      ∀ n, s.cursor.advanced n = { s.cursor with pos := s.cursor.pos + n })

/-- R172, R177 `NEXT_BYTES(8)`, on any cursor: what 64 requests for a bit would deliver, the earliest as `g[63]`; with `n`
bits left, fewer than 64, `EXH`, nothing delivered, and the cursor is exhausted: every later request for bits is answered
`EXH` too. What `EXH` does to an open cursor's further state (one tick for each bit that was left, and nothing from then on)
is the model's choice (log 8; R131 leaves it to the cursor). The answer stands in `ans` (log 6). -/
def Obligations.NextBytesDeliversSixtyFourBits : Prop :=
  ∀ s : State,
    ((∀ i < 64, s.cursor.bitAt (s.cursor.pos + i) ≠ none) →
      ∃ g : Group,
        exec .nextBytes s = .next { s with cursor := s.cursor.advanced 64, ans := .group g } ∧
        ∀ i < 64, ∃ t, exec .nextBit { s with cursor := s.cursor.advanced i } = .next t ∧
          t.ans = .bit (g.getMsbD i) ∧ t.cursor = s.cursor.advanced (i + 1)) ∧
    (∀ n < 64, (∀ i < n, s.cursor.bitAt (s.cursor.pos + i) ≠ none) → s.cursor.bitAt (s.cursor.pos + n) = none →
      ∃ t, exec .nextBytes s = .next t ∧ t = { s with cursor := s.cursor.advanced n, ans := .exh } ∧
        exec .nextBit t = .next t ∧ exec .nextBytes t = .next t)

/-- R173 `OFFSET`, with the reference stream's `base` (R176): the offset of the bit delivered last, counted from the latest
index mark at or before it. With another origin a stream counts from an open point (the model's choice, log 8). Before any
bit there is no answer (U14). -/
def Obligations.OffsetReportsTheLastBit : Prop :=
  ∀ s : State,
    (s.cursor.pos = 0 → exec .offset s = .refused .offsetBeforeBit) ∧
    (1 ≤ s.cursor.pos → exec .offset s = .next { s with ans := .offset s.cursor.lastOffset }) ∧
    (s.cursor.captured →
      (∀ b, s.cursor.origin = .indexMark → isBase s.cursor.marks s.cursor.pos b →
        s.cursor.lastOffset = (s.cursor.pos : Int) - 1 - b) ∧
      (∀ k, s.cursor.origin = .other k →
        s.cursor.lastOffset = (s.cursor.pos : Int) - 1 - Config.countingPoint k (s.cursor.pos - 1)))

/-- R174, R176 `SEEK_INDEX` on the reference stream: never `EXH`. Where the spec states no length (no further mark; no bit
delivered yet, log 9) nothing is claimed of the answer but that it is the next draw. -/
def Obligations.SeekIndexRunsToTheNextMark : Prop :=
  ∀ s : State, s.cursor.kind = .reference →
    (∀ m b, 1 ≤ s.cursor.pos → isNextMark s.cursor.marks s.cursor.pos m → isBase s.cursor.marks s.cursor.pos b →
      exec .seekIndex s = .next { s with cursor := { s.cursor with pos := m }, ans := .length (m - b) }) ∧
    (∀ m, s.cursor.pos = 0 → isNextMark s.cursor.marks 0 m →
      exec .seekIndex s = .next
        { s with
          cursor := { s.cursor with pos := m }, ans := .length (Config.indexMissingLen s.draws),
          draws := s.draws + 1 }) ∧
    ((∀ m ∈ s.cursor.marks, m < s.cursor.pos) → s.cursor.pos ≤ s.cursor.bits.length →
      exec .seekIndex s = .next
        { s with
          cursor := { s.cursor with pos := s.cursor.bits.length }, ans := .length (Config.indexMissingLen s.draws),
          draws := s.draws + 1 })

/-- R70: on a cursor whose seeks consume the mark they run to, a second `SEEK_INDEX` gives the next data, the revolution
that the next mark completes. That the reference stream stays at its mark (R176) and this kind does not is the model's
choice between the two rules (log 22). -/
def Obligations.SecondSeekGoesToTheNextMark : Prop :=
  ∀ (s : State) (m b : Nat), s.cursor.kind = .consuming → 1 ≤ s.cursor.pos → s.cursor.memo ≤ s.cursor.pos →
    isNextMark s.cursor.marks s.cursor.pos m → isBase s.cursor.marks s.cursor.pos b →
    ∃ t, exec .seekIndex s = .next t ∧
      t = { s with cursor := { s.cursor with pos := m, memo := m + 1 }, ans := .length (m - b) } ∧
      (∀ m', isNextMark s.cursor.marks (m + 1) m' →
        exec .seekIndex t = .next
          { t with cursor := { t.cursor with pos := m', memo := m' + 1 }, ans := .length (m' - m) }) ∧
      ((∀ m' ∈ s.cursor.marks, m' ≤ m) → m ≤ s.cursor.bits.length →
        exec .seekIndex t = .next
          { t with
            cursor := { t.cursor with pos := s.cursor.bits.length }, ans := .length (Config.indexMissingLen s.draws),
            draws := s.draws + 1 })

/-- R170 to R175 for an open cursor: every answer is its own, and no request moves it back. That such a cursor's state is a
place in its sequence and a number is the model's choice (log 8). -/
def Obligations.OpenCursorAnswersForItself : Prop :=
  ∀ (s : State) (k : Nat), s.cursor.kind = .other k →
    let src := Config.cursor k
    (exec .nextBit s = .next
      (match src.bitAt s.cursor.pos with
       | some b =>
         { s with
           cursor := { s.cursor with pos := s.cursor.pos + 1, memo := src.tick s.cursor.pos s.cursor.memo },
           ans := .bit b }
       | none => { s with ans := .exh })) ∧
    (1 ≤ s.cursor.pos →
      exec .offset s = .next { s with ans := .offset (src.offset s.cursor.pos s.cursor.memo) }) ∧
    (let r := src.seek s.cursor.pos s.cursor.memo
     s.cursor.pos ≤ r.place ∧
      exec .seekIndex s = .next
        { s with cursor := { s.cursor with pos := r.place, memo := r.memo }, ans := .length r.length })

/-- 93 U8: the revolving stream, a cursor that never exhausts. Its marks stand in every revolution and where each begins
(the model's choice, log 8); a seek consumes the mark it runs to (log 22). -/
def Obligations.RevolvingStreamHasItsMarksInEveryTurn : Prop :=
  ∀ s : State, s.cursor.kind = .revolving → s.cursor.bits ≠ [] → (∀ m ∈ s.cursor.marks, m ≤ s.cursor.bits.length) →
    let isMark := fun m => m % s.cursor.bits.length = 0 ∨ m % s.cursor.bits.length ∈ s.cursor.marks
    s.cursor.endless ∧
    (∀ b, 1 ≤ s.cursor.pos → s.cursor.origin = .indexMark → b < s.cursor.pos → isMark b →
      (∀ m, b < m → m < s.cursor.pos → ¬isMark m) →
      exec .offset s = .next { s with ans := .offset ((s.cursor.pos : Int) - 1 - b) }) ∧
    (∀ b m p, 1 ≤ s.cursor.pos → s.cursor.memo ≤ s.cursor.pos + 1 → p = max s.cursor.pos s.cursor.memo →
      b < p → isMark b → p ≤ m → isMark m → (∀ n, b < n → n < m → ¬isMark n) →
      exec .seekIndex s = .next
        { s with cursor := { s.cursor with pos := m, memo := m + 1 }, ans := .length (m - b) })

/-- R178 to R180 `DEMOD`, `MOD`: pure functions of the codec plugged in, total, under its one law: what `MOD` answers,
`DEMOD` takes back to the word. A group that `MOD` never answers is demodulated like any other (U7). -/
def Obligations.DemodTakesBackWhatModAnswers : Prop :=
  (∀ (s : State) (p : Bool) (w : Word),
    ∃ g : Group,
      exec (.mod p w) s = .next { s with ans := .group g } ∧ exec (.demod g) s = .next { s with ans := .word w }) ∧
  (∀ (s : State) (h : Group), exec (.demod h) s = .next { s with ans := .word (s.theCodec.demod h) }) ∧
  ∀ (s : State) (p : Bool) (w : Word), exec (.mod p w) s = .next { s with ans := .group (s.theCodec.mod p w) }

/-- R181, R182, R97: with the reference codec the answers are those of the odd-then-even layout: data bit `31-2j` is
`g[62-2j]`, data bit `30-2j` is `g[30-2j]`, and a clock bit is 1 exactly when the data bits on both sides are 0. -/
def Obligations.ReferenceCodecLayout : Prop :=
  ∀ (s : State) (p : Bool) (w : Word), s.codec = .reference →
    ∃ g : Group,
      exec (.mod p w) s = .next { s with ans := .group g } ∧
      (∀ j < 16, g.getLsbD (62 - 2 * j) = w.getLsbD (31 - 2 * j) ∧ g.getLsbD (30 - 2 * j) = w.getLsbD (30 - 2 * j)) ∧
      g.getLsbD 63 = (!p && !g.getLsbD 62) ∧
      (∀ k < 31, g.getLsbD (2 * k + 1) = (!g.getLsbD (2 * k + 2) && !g.getLsbD (2 * k))) ∧
      ∀ h : Group, exec (.demod h) s = .next { s with ans := .word (BitVec.ofBoolListLE
        ((List.range 32).map fun i => if i % 2 = 1 then h.getLsbD (i + 31) else h.getLsbD i)) }

/-- R185, R186 `EMIT_LIT`, `EMIT_MOD`: the emission is appended; the raw sequence grows by the literal's bits, bit `n-1`
first, or by `Mod` of the last raw bit and the word. That a sink answers nothing (`ans` is the model's own field, log 6),
and that before any bit the last raw bit is an open one (log 11), is the model's. -/
def Obligations.EmissionsAppendTheirBits : Prop :=
  ∀ s : State,
    (∀ (n : Nat) (v : BitVec n) (rate : Rate), ∃ t,
      exec (.emitLit n v rate) s = .next t ∧ t = { s with sink := s.sink ++ [.lit n v rate], ans := .none } ∧
      t.sinkBits = s.sinkBits ++ (List.range n).map fun i => v.getMsbD i) ∧
    (∀ (w : Word) (rate : Rate), ∃ t,
      exec (.emitMod w rate) s = .next t ∧ t = { s with sink := s.sink ++ [.modw w rate], ans := .none } ∧
      t.sinkBits = s.sinkBits ++ toBits (s.theCodec.mod s.lastRawBit w))

/-! ### The fields of a frame -/

/-- R96, R101, R122 `MARK` (what a frame field does as an instruction is the model's reading, log 13): a marker that stands
next is recognised where the framer scans, unless the window already ends in the marker's first 14 bits (the marker overlaps
itself by two bits); then its first two bits complete a marker. `E_MARK` puts it out. Elsewhere it does nothing. -/
def Obligations.MarkIsRecognisedOrEmitted : Prop :=
  ∀ s : State,
    (s.phase = .dScan → s.cursor.upTo 16 = toBits (0x6CB1#16) →
      (s.nobs < 14 ∨ s.win.extractLsb' 0 14 ≠ 0b01101100101100#14 →
        exec .mark s = .next
          { s with
            cursor := s.cursor.advanced 16, win := 0x6CB1#16, nobs := 16,
            cand := (s.cursor.advanced 16).lastOffset - 15, candHeld := true, sum := 0#32, wcnt := 0,
            phase := .dRead }) ∧
      (14 ≤ s.nobs → s.win.extractLsb' 0 14 = 0b01101100101100#14 →
        exec .mark s = .next
          { s with
            cursor := s.cursor.advanced 2, win := 0x6CB1#16, nobs := 16,
            cand := (s.cursor.advanced 2).lastOffset - 15, candHeld := true, sum := 0#32, wcnt := 0,
            phase := .dRead })) ∧
    (s.phase = .dScan → s.cursor.upTo 16 ≠ toBits (0x6CB1#16) → exec .mark s = .refused .fieldNotHere) ∧
    (s.phase = .eMark → exec .mark s = exec .eMark s) ∧
    (s.phase ≠ .dScan → s.phase ≠ .eMark → exec .mark s = .next s)

/-- R95, R97, R106 `GRP` (the model's reading, log 13): a group that stands next is read whole among groups, whatever its
bits; where the framer scans, its 64 bits are scanned, up to the first that completes a marker; where the framer emits it
goes out if it is the modulated form of the word at hand, after the last raw bit (of a sink without one: log 11). Elsewhere
it does nothing. -/
def Obligations.GroupIsReadOrScannedOrEmitted : Prop :=
  ∀ (s : State) (g : Group),
    let completes := fun k =>
      16 ≤ s.nobs + k ∧ ((toBits s.win ++ toBits g).drop k).take 16 = toBits Config.marker
    (s.phase = .dRead → s.cursor.upTo 64 = toBits g → s.wcnt < 1536 →
      exec (.grp g) s = .next
        { s with
          cursor := s.cursor.advanced 64, wbuf := s.wbuf.write s.wcnt (s.theCodec.demod g),
          sum := s.sum + s.theCodec.demod g, win := g.extractLsb' 0 16, nobs := 16, wcnt := s.wcnt + 1,
          phase := if s.wcnt + 1 = 1536 then .dCheck else .dRead }) ∧
    (s.phase = .dScan → s.cursor.upTo 64 = toBits g → (∀ k, 1 ≤ k → k ≤ 64 → ¬completes k) →
      exec (.grp g) s = .next
        { s with cursor := s.cursor.advanced 64, win := g.extractLsb' 0 16, nobs := 16 }) ∧
    (∀ k, s.phase = .dScan → s.cursor.upTo 64 = toBits g → 1 ≤ k → k ≤ 64 → completes k →
      (∀ j, 1 ≤ j → j < k → ¬completes j) →
      exec (.grp g) s = .next
        { s with
          cursor := s.cursor.advanced k, win := 0x6CB1#16, nobs := 16, cand := (s.cursor.advanced k).lastOffset - 15,
          candHeld := true, sum := 0#32, wcnt := 0, phase := .dRead }) ∧
    (s.phase = .dRead ∨ s.phase = .dScan → s.cursor.upTo 64 ≠ toBits g →
      exec (.grp g) s = .refused .fieldNotHere) ∧
    (∀ w : Word, s.phase = .eWord → s.desc.own = true → s.wcnt < 1536 → s.blk.readWord (4 * s.wcnt) = some w →
      (s.theCodec.mod s.lastRawBit w = g → exec (.grp g) s = exec .eWord s) ∧
      (s.theCodec.mod s.lastRawBit w ≠ g → exec (.grp g) s = .refused .fieldNotHere)) ∧
    (s.phase ≠ .dRead → s.phase ≠ .dScan → s.phase ≠ .eWord → exec (.grp g) s = .next s)

/-! ### The commands -/

/-- R91, R94, R120, R205, R71: on a capture DECODE always ends; accepted, it populates block and descriptor, all at once,
with a block of 1536 words that pass the gate; failed, it leaves block and descriptor as they were and the cursor exhausted.
It touches neither the sink nor anything else of the host's. -/
def Obligations.DecodeIsAllOrNothing : Prop :=
  ∀ s : State, s.readyToDecode → s.cursor.inCapture →
    ∃ t, exec .decode s = .next t ∧ t.ended ∧ t.op = .decode ∧
      t.cursor.bits = s.cursor.bits ∧ t.cursor.marks = s.cursor.marks ∧ t.cursor.origin = s.cursor.origin ∧
      t.cursor.kind = s.cursor.kind ∧ t.sink = s.sink ∧ t.codec = s.codec ∧ t.cmd = s.cmd ∧ t.issue = s.issue ∧
      t.ans = s.ans ∧
      ((t.res = .ok ∧
          t.desc = { s.desc with dataBitoff := t.cand, totalBits := t.tot, valid := true, own := true } ∧
          (∃ ws, ws.length = 1536 ∧ blkWords t.blk = some ws ∧ sumWords ws = 0x28F53CB9#32) ∧
          ∀ a, 6144 ≤ a → t.blk.read a = s.blk.read a) ∨
        ((t.res = .notFound ∨ t.res = .truncated) ∧ t.desc = s.desc ∧ t.blk = s.blk ∧
          t.cursor.pos = s.cursor.bits.length ∧ t.draws = s.draws))

/-- R150, R154, R156 `ENCODE`, whatever the words sum to (R105): one literal marker, then every word in order, all with the
tag `RATE`; the raw sequence grows by `frame(B)`; descriptor and block are as before. -/
def Obligations.EncodeEmitsTheFrame : Prop :=
  ∀ (s : State) (ws : List Word), s.readyToEncode ws →
    ∃ t, exec .encode s = .next t ∧
      t = { s with
            op := .encode, res := .ok, wcnt := 1536,
            sink := s.sink ++ .lit 16 0x6CB1#16 Config.rate :: ws.map fun w => .modw w Config.rate } ∧
      t.sinkBits = s.sinkBits ++ frameOf s.theCodec ws ∧ (frameOf s.theCodec ws).length = 98320

/-- R104: what a descriptor outside the scheme, or in the wrong state, is refused for, by the accept steps and by the whole
commands alike. -/
def Obligations.CommandsRefuseOtherDescriptors : Prop :=
  ∀ s : State, s.phase = .idle →
    (s.desc.len ≠ 6144 ∨ s.desc.nsec ≠ 1 →
      exec .acceptD s = .refused .badLength ∧ exec .acceptE s = .refused .badLength ∧
      exec .decode s = .refused .badLength ∧ exec .encode s = .refused .badLength) ∧
    (s.desc.len = 6144 → s.desc.nsec = 1 → s.desc.own = true →
      exec .acceptD s = .refused .alreadyPopulated ∧ exec .decode s = .refused .alreadyPopulated) ∧
    (s.desc.len = 6144 → s.desc.nsec = 1 → s.desc.own = false →
      exec .acceptE s = .refused .noBlock ∧ exec .encode s = .refused .noBlock)

/-- R120, R136: on a capture the two forms of DECODE agree. Presented to the step machine, a DECODE comes to the very state
the whole function gives, is in progress at every step before, and takes no more steps than R136's counts add up to. -/
def Obligations.SteppedDecodeIsTheWholeDecode : Prop :=
  ∀ s : State, s.presented 0#8 → s.readyToDecode → s.cursor.captured →
    ∃ n t, runSteps n s = .next t ∧ exec .decode { s with cmd := none } = .next t ∧
      (∀ k, 0 < k → k < n → ∃ u, runSteps k s = .next u ∧ u.phase ≠ .idle) ∧
      n ≤ (s.cursor.remaining + 1) + (s.cursor.remaining / 64 + 1) + s.cursor.remaining / 98320 + 3

/-- The whole DECODE on a cursor whose end is not in sight, which R247 lets run for ever: the command is launched as by
`ACCEPT_D`, and the step machine carries it on (the model's choice, log 21). -/
def Obligations.DecodeIsLaunchedWhereItsEndIsNotInSight : Prop :=
  ∀ s : State, s.readyToDecode → (s.cursor.kind = .revolving ∨ ∃ k, s.cursor.kind = .other k) →
    exec .decode s = .next
      { s with
        op := .decode, res := .none, win := 0x0000#16, nobs := 0, sum := 0x00000000#32, wcnt := 0, phase := .dScan,
        candHeld := false, totHeld := false, wbuf := [] } ∧
    (s.presented 0#8 → step s = exec .decode { s with cmd := none })

/-- R157, R150: the two forms of ENCODE agree, after 1538 steps, always. -/
def Obligations.SteppedEncodeIsTheWholeEncode : Prop :=
  ∀ (s : State) (ws : List Word), s.presented 1#8 → s.readyToEncode ws →
    runSteps 1538 s = exec .encode { s with cmd := none } ∧
      ∀ k, 0 < k → k < 1538 → ∃ u, runSteps k s = .next u ∧ u.phase ≠ .idle

/-! ### What DECODE finds -/

/-- R135 (Absence), R201: a stream with no occurrence of the marker, or with none after the candidates that were rejected,
gives `NotFound`. -/
def Obligations.StreamWithoutMarkerIsNotFound : Prop :=
  ∀ (s : State) (rest : List Bool), s.readyToDecode → s.cursor.captured →
    Skips s.theCodec s.cursor.ahead rest → noMarkerIn rest →
    ∃ t, exec .decode s = .next t ∧ t.res = .notFound ∧ t.desc = s.desc ∧ t.blk = s.blk

/-- R135 (Truncation), R202, R204: a marker with fewer than 1536 whole groups after it gives `Truncated`, whatever the bits
after it are, also when earlier candidates were rejected; no partial block. -/
def Obligations.CutShortCandidateIsTruncated : Prop :=
  ∀ (s : State) (rest : List Bool) (p : Nat), s.readyToDecode → s.cursor.captured →
    Skips s.theCodec s.cursor.ahead rest → firstMarkerAt rest p → rest.length < p + 98320 →
    ∃ t, exec .decode s = .next t ∧ t.res = .truncated ∧ t.desc = s.desc ∧ t.blk = s.blk

/-- R132: the round trip. A block whose words pass the gate is encoded; the frame's raw bits, with anything before them in
which no marker stands earlier and anything behind them, decode to the same block byte for byte, the marker found at the
frame's first bit. -/
def Obligations.EncodeThenDecodeReturnsTheBlock : Prop :=
  ∀ (e d : State) (ws : List Word) (pre suf : List Bool),
    e.readyToEncode ws → sumWords ws = 0x28F53CB9#32 → d.readyToDecode → d.cursor.captured → d.codec = e.codec →
    ∃ e', exec .encode e = .next e' ∧
      ∀ frame : List Bool, e'.sinkBits = e.sinkBits ++ frame →
        d.cursor.ahead = pre ++ frame ++ suf → firstMarkerAt d.cursor.ahead pre.length →
        ∃ t, exec .decode d = .next t ∧ t.res = .ok ∧ (∀ a < 6144, t.blk.read a = e.blk.read a) ∧
          t.desc.dataBitoff = (d.cursor.advanced (pre.length + 16)).lastOffset - 15

/-- R136: a DECODE whose first marker stands `d` bits after the cursor's place and has a body that passes the gate, whatever
its groups are (R106, U7), runs `d + 1556` steps, on any cursor. -/
def Obligations.CleanDecodeTakesItsStepCount : Prop :=
  ∀ (s : State) (d : Nat) (bits : List Bool), s.presented 0#8 → s.readyToDecode →
    s.cursor.upTo (d + 98320) = bits → bits.length = d + 98320 → firstMarkerAt bits d →
    sumWords (bodyWords s.theCodec (bits.drop (d + 16))) = 0x28F53CB9#32 →
    (∃ t, runSteps (d + 1556) s = .next t ∧ t.res = .ok ∧ t.phase = .idle ∧
      blkWords t.blk = some (bodyWords s.theCodec (bits.drop (d + 16)))) ∧
      ∀ k, 0 < k → k < d + 1556 → ∃ u, runSteps k s = .next u ∧ u.phase ≠ .idle

/-- R133: the checksum gate. A candidate's words, whatever its groups are (R106, U7), come to the check with their wrapping
sum; they are accepted if and only if it is `0x28F53CB9`; rejected, scanning goes on after the body (R130) with nothing
delivered to the host. On any cursor. -/
def Obligations.GateAcceptsExactlyTheConstantSum : Prop :=
  ∀ (s : State) (p : Nat) (bits : List Bool), s.presented 0#8 → s.readyToDecode →
    s.cursor.upTo (p + 98320) = bits → bits.length = p + 98320 → firstMarkerAt bits p →
    let ws := bodyWords s.theCodec (bits.drop (p + 16))
    ∃ t u, runSteps (p + 1553) s = .next t ∧ t.phase = .dCheck ∧ t.sum = sumWords ws ∧ step t = .next u ∧
      (sumWords ws = 0x28F53CB9#32 → u.phase = .dIndex) ∧
      (sumWords ws ≠ 0x28F53CB9#32 → u.phase = .dScan) ∧
      u.cursor = s.cursor.advanced (p + 98320) ∧ u.res = .none ∧ u.desc = s.desc ∧ u.blk = s.blk

/-- R95, R123, R154, R178: the words found in the body of a frame are the words the frame was made of, under any codec. -/
def Obligations.BodyOfAFrameIsItsWords : Prop :=
  ∀ (c : Codec) (ws : List Word) (suf : List Bool), ws.length = 1536 →
    bodyWords c ((frameOf c ws ++ suf).drop 16) = ws

/-- R127, R133: the sum does not depend on the order of the words, and one changed word always violates it. -/
def Obligations.SumIgnoresOrderAndSeesOneChange : Prop :=
  (∀ ws vs : List Word, ws.Perm vs → sumWords ws = sumWords vs) ∧
  (∀ (ws : List Word) (i : Nat) (h : i < ws.length) (w : Word), w ≠ ws[i] → sumWords ws = 0x28F53CB9#32 →
    sumWords (ws.set i w) ≠ 0x28F53CB9#32)

/-- R134, R129, R130: a false marker whose body does not pass the gate is skipped with its body, and the frame whose marker
is the first one tested after it is decoded; the next position tested is 98305 after the false marker's start, so a marker
that begins in the body's last 15 bits is found (D7). -/
def Obligations.FalseMarkerThenFrameDecodes : Prop :=
  ∀ (s : State) (ws : List Word) (p q : Nat) (suf : List Bool), s.readyToDecode → s.cursor.captured →
    firstMarkerAt s.cursor.ahead p → p + 98320 ≤ s.cursor.ahead.length →
    sumWords (bodyWords s.theCodec (s.cursor.ahead.drop (p + 16))) ≠ 0x28F53CB9#32 →
    firstMarkerAt (s.cursor.ahead.drop (p + 98305)) q →
    s.cursor.ahead.drop (p + 98305 + q) = frameOf s.theCodec ws ++ suf → ws.length = 1536 →
    sumWords ws = 0x28F53CB9#32 →
    ∃ t, exec .decode s = .next t ∧ t.res = .ok ∧ blkWords t.blk = some ws ∧
      t.desc.dataBitoff = (s.cursor.advanced (p + 98305 + q + 16)).lastOffset - 15

/-- R120, R130, R133, R134: after any number of rejected candidates, the first that passes the gate is decoded, whatever its
groups are; its offset is that of its marker's first bit. -/
def Obligations.CandidateAfterRejectionsDecodes : Prop :=
  ∀ (s : State) (rest : List Bool) (p : Nat), s.readyToDecode → s.cursor.captured →
    Skips s.theCodec s.cursor.ahead rest → firstMarkerAt rest p → p + 98320 ≤ rest.length →
    let ws := bodyWords s.theCodec (rest.drop (p + 16))
    sumWords ws = 0x28F53CB9#32 →
    ∃ t, exec .decode s = .next t ∧ t.res = .ok ∧ blkWords t.blk = some ws ∧
      t.desc.dataBitoff =
        (s.cursor.advanced (s.cursor.ahead.length - rest.length + p + 16)).lastOffset - 15

/-- R136, R247, with R133 to R135: on any cursor with `N` bits to deliver and no more, a presented DECODE ends, after no
more steps than R136's counts add up to, in the result its candidates give: none after the rejected ones, one cut short, or
the first that passes the gate. -/
def Obligations.DecodeOnAFiniteCursorEnds : Prop :=
  ∀ (s : State) (N : Nat), s.presented 0#8 → s.readyToDecode →
    (∀ i < N, s.cursor.bitAt (s.cursor.pos + i) ≠ none) → s.cursor.bitAt (s.cursor.pos + N) = none →
    ∃ n t, runSteps n s = .next t ∧ t.ended ∧ n ≤ (N + 1) + (N / 64 + 1) + N / 98320 + 3 ∧
      (∀ k, 0 < k → k < n → ∃ u, runSteps k s = .next u ∧ u.phase ≠ .idle) ∧
      ∀ rest, Skips s.theCodec (s.cursor.upTo N) rest →
        (noMarkerIn rest → t.res = .notFound ∧ t.desc = s.desc ∧ t.blk = s.blk) ∧
        ∀ p, firstMarkerAt rest p →
          (rest.length < p + 98320 → t.res = .truncated ∧ t.desc = s.desc ∧ t.blk = s.blk) ∧
          (p + 98320 ≤ rest.length → sumWords (bodyWords s.theCodec (rest.drop (p + 16))) = 0x28F53CB9#32 →
            t.res = .ok ∧ blkWords t.blk = some (bodyWords s.theCodec (rest.drop (p + 16))))

/-- R247, 93 U8: on a cursor that never exhausts, a DECODE that comes to no accepted candidate runs for ever: every step is
enabled, and none ends it. -/
def Obligations.EndlessDecodeRunsForEver : Prop :=
  ∀ s : State, s.presented 0#8 → s.readyToDecode → s.cursor.endless →
    (∀ n t, runSteps n s = .next t → t.phase ≠ .dIndex) →
    ∀ n, 0 < n → ∃ t, runSteps n s = .next t ∧ t.phase ≠ .idle ∧ t.res = .none ∧ t.desc = s.desc ∧ t.blk = s.blk

/-- R206: a second DECODE with an exhausted cursor gives `NotFound` at its first step. That an open cursor's further state
is as before, too, is the model's choice (log 8). -/
def Obligations.DecodeOnExhaustedCursorIsNotFound : Prop :=
  ∀ s : State, s.presented 0#8 → s.readyToDecode → s.cursor.bitAt s.cursor.pos = none →
    ∃ t, runSteps 2 s = .next t ∧ t.res = .notFound ∧ t.phase = .idle ∧ t.cursor = s.cursor ∧ t.desc = s.desc ∧
      t.blk = s.blk

/-- R155: what ENCODE emits depends on the block's words, the codec and `RATE` alone: two machines that agree on those, and
differ in anything else, append the same emissions and the same raw bits. -/
def Obligations.EncodeOutputDependsOnTheBlockAlone : Prop :=
  ∀ (s t : State) (ws : List Word), s.readyToEncode ws → t.readyToEncode ws → s.codec = t.codec →
    ∃ s' t' es bits, exec .encode s = .next s' ∧ exec .encode t = .next t' ∧
      s'.sink = s.sink ++ es ∧ t'.sink = t.sink ++ es ∧ s'.sinkBits = s.sinkBits ++ bits ∧ t'.sinkBits = t.sinkBits ++ bits

/-! ### The whole machine -/

/-- R46, R231: what the spec states of the state after power-on reset, and that the stores are in their canonical form. -/
def Obligations.ResetLeavesTheStatedValues : Prop :=
  State.reset.phase = .idle ∧ State.reset.res = .none ∧ State.reset.win = 0x0000#16 ∧ State.reset.nobs = 0 ∧
  State.reset.sum = 0#32 ∧ State.reset.wcnt = 0 ∧ State.reset.candHeld = false ∧ State.reset.totHeld = false ∧
  (∀ i, State.reset.wbuf.read i = none) ∧ State.reset.desc.len = 6144 ∧ State.reset.desc.nsec = 1 ∧
  State.reset.desc.valid = false ∧ State.reset.desc.own = false ∧ (∀ a, State.reset.blk.read a = none) ∧
  State.reset.blk.wf ∧ State.reset.wbuf.wf

/-- The invariant holds after reset. -/
def Obligations.ResetMeetsTheInvariant : Prop := State.reset.Inv

/-- Every step keeps the invariant, in every state that meets it: counters in range, the stores in canonical form and in
their address ranges, `RES` empty while a command runs, `PHASE` implying `OP`, `SUM` the wrapping sum of the staged words,
only an accepted candidate committed, and a produced block always one that passes the gate (R238). -/
def Obligations.StepKeepsTheInvariant : Prop :=
  ∀ s t : State, s.Inv → step s = .next t → t.Inv

/-- R31, R32, R64: what no step ever changes: the captured bits, the marks, the cursor's kind, the codec, the descriptor's
`LEN` and `NSEC`; and what a sink holds stays in front (R63, R237). -/
def Obligations.NoStepChangesTheCaptureOrTheScheme : Prop :=
  ∀ s t : State, step s = .next t →
    t.cursor.bits = s.cursor.bits ∧ t.cursor.marks = s.cursor.marks ∧ t.cursor.origin = s.cursor.origin ∧
    t.cursor.kind = s.cursor.kind ∧ t.codec = s.codec ∧ t.desc.len = s.desc.len ∧ t.desc.nsec = s.desc.nsec ∧
    s.sink <+: t.sink

/-- R42, R75: while the step machine runs a command, block and descriptor change in one step only, the one that ends a
DECODE with `OK`. -/
def Obligations.BlockChangesOnlyInTheCommitStep : Prop :=
  ∀ s t : State, s.issue = none → step s = .next t → (t.blk ≠ s.blk ∨ t.desc ≠ s.desc) →
    s.phase = .dCommit ∧ t.phase = .idle ∧ t.res = .ok

/-- R61, R175: no step moves the cursor backwards, in any state that meets the invariant; in a capture it stays (R176). -/
def Obligations.NoStepMovesTheCursorBack : Prop :=
  ∀ s t : State, s.Inv → step s = .next t →
    s.cursor.pos ≤ t.cursor.pos ∧ (t.cursor.captured → t.cursor.pos ≤ t.cursor.bits.length)

/-- R43, R75, R90, R94, R212, R234 to R237, R240: what the host can do when the framer is idle, whatever `OWN` is: read
`RES`, `VALID`, `OWN` and the response record, attach a track, a cursor, a sink, a codec, and present a command. The two
offset fields and the block's bytes it reads from a populated descriptor only; before, the read is refused. While a command
runs every access is refused. The model's choices: a command presented while a record still waits replaces it, and a code
other than 0 and 1 is refused as `busy` while a command runs (log 4); plugging in a codec (log 7); what is attached while a
record waits is that record's (log 4); the response record shows fields without value as they stand (log 12); reading `RES`
or plugging in a codec while a command runs is `sharedAccess` (log 18); a byte that does not exist is no access (R41, log
19). -/
def Obligations.HostReadsOnlyWhatIsThere : Prop :=
  ∀ s : State,
    (s.phase = .idle →
      hostReadRes s = .next s.res ∧ hostReadValid s = .next s.desc.valid ∧ hostReadOwn s = .next s.desc.own ∧
      hostResponse s = .next { res := s.res, desc := s.desc, blk := s.blk, cursor := s.cursor, sink := s.sink } ∧
      (∀ d b, hostAttachTrack d b s = .next { s with desc := d, blk := b }) ∧
      (∀ c, hostAttachCursor c s = .next { s with cursor := c }) ∧
      (∀ es, hostAttachSink es s = .next { s with sink := es }) ∧
      (∀ c, hostPlugCodec c s = .next { s with codec := c }) ∧
      (∀ code, code = 0#8 ∨ code = 1#8 → hostPresent code s = .next { s with cmd := some code }) ∧
      (∀ code : Byte, 2 ≤ code.toNat → hostPresent code s = .refused .unknownCommand) ∧
      ∀ a, 6144 ≤ a → hostReadBlk a s = .fault .blkAddress) ∧
    (s.phase = .idle → s.desc.own = true →
      hostReadDataBitoff s = .next s.desc.dataBitoff ∧ hostReadTotalBits s = .next s.desc.totalBits ∧
      (∀ a b, a < 6144 → s.blk.read a = some b → hostReadBlk a s = .next b) ∧
      ∀ a < 6144, s.blk.read a = none → hostReadBlk a s = .refused .unwrittenRead) ∧
    (s.phase = .idle → s.desc.own = false →
      hostReadDataBitoff s = .refused .unwrittenRead ∧ hostReadTotalBits s = .refused .unwrittenRead ∧
      ∀ a < 6144, hostReadBlk a s = .refused .unwrittenRead) ∧
    (s.phase ≠ .idle →
      hostReadRes s = .refused .sharedAccess ∧ hostReadValid s = .refused .sharedAccess ∧
      hostReadOwn s = .refused .sharedAccess ∧ hostReadDataBitoff s = .refused .sharedAccess ∧
      hostReadTotalBits s = .refused .sharedAccess ∧ (∀ a, hostReadBlk a s = .refused .sharedAccess) ∧
      hostResponse s = .refused .sharedAccess ∧ (∀ d b, hostAttachTrack d b s = .refused .sharedAccess) ∧
      (∀ c, hostAttachCursor c s = .refused .sharedAccess) ∧ (∀ es, hostAttachSink es s = .refused .sharedAccess) ∧
      (∀ c, hostPlugCodec c s = .refused .sharedAccess) ∧ ∀ code, hostPresent code s = .refused .busy)

/-- R46, R231: power-on reset, from every state: what the spec states of the framer's registers; descriptor, block, cursor
and sink are the host's and stay. The model's choices: the codec stays (log 7), and a record presented and not yet accepted
is dropped (log 4). -/
def Obligations.PowerOnLeavesTheHostsMatter : Prop :=
  ∀ s : State,
    ((powerOn s).phase = .idle ∧ (powerOn s).res = .none ∧ (powerOn s).win = 0x0000#16 ∧ (powerOn s).nobs = 0 ∧
      (powerOn s).sum = 0#32 ∧ (powerOn s).wcnt = 0 ∧ (powerOn s).candHeld = false ∧ (powerOn s).totHeld = false ∧
      ∀ i, (powerOn s).wbuf.read i = none) ∧
    (powerOn s).desc = s.desc ∧ (powerOn s).blk = s.blk ∧ (powerOn s).cursor = s.cursor ∧ (powerOn s).sink = s.sink ∧
    (powerOn s).codec = s.codec ∧ (powerOn s).cmd = none
end

