-- ==== Sys2Proof/Laws/State.lean ====
section
/-! SUPPORT. One lemma per field per named update, so that no later proof unfolds a record update. -/

namespace Sys2Proof.Machine

@[simp] theorem raise_phase (f : Failure) (s : State) : (raise f s).phase = .idle := rfl
@[simp] theorem raise_op (f : Failure) (s : State) : (raise f s).op = s.op := rfl
@[simp] theorem raise_win (f : Failure) (s : State) : (raise f s).win = s.win := rfl
@[simp] theorem raise_nobs (f : Failure) (s : State) : (raise f s).nobs = s.nobs := rfl
@[simp] theorem raise_sum (f : Failure) (s : State) : (raise f s).sum = s.sum := rfl
@[simp] theorem raise_wcnt (f : Failure) (s : State) : (raise f s).wcnt = s.wcnt := rfl
@[simp] theorem raise_cand (f : Failure) (s : State) : (raise f s).cand = s.cand := rfl
@[simp] theorem raise_candHeld (f : Failure) (s : State) : (raise f s).candHeld = s.candHeld := rfl
@[simp] theorem raise_tot (f : Failure) (s : State) : (raise f s).tot = s.tot := rfl
@[simp] theorem raise_totHeld (f : Failure) (s : State) : (raise f s).totHeld = s.totHeld := rfl
@[simp] theorem raise_wbuf (f : Failure) (s : State) : (raise f s).wbuf = s.wbuf := rfl
@[simp] theorem raise_res (f : Failure) (s : State) : (raise f s).res = f.res := rfl
@[simp] theorem raise_desc (f : Failure) (s : State) : (raise f s).desc = s.desc := rfl
@[simp] theorem raise_blk (f : Failure) (s : State) : (raise f s).blk = s.blk := rfl
@[simp] theorem raise_cursor (f : Failure) (s : State) : (raise f s).cursor = s.cursor := rfl
@[simp] theorem raise_sink (f : Failure) (s : State) : (raise f s).sink = s.sink := rfl
@[simp] theorem raise_cmd (f : Failure) (s : State) : (raise f s).cmd = s.cmd := rfl
@[simp] theorem raise_issue (f : Failure) (s : State) : (raise f s).issue = s.issue := rfl
@[simp] theorem raise_ans (f : Failure) (s : State) : (raise f s).ans = s.ans := rfl
@[simp] theorem raise_draws (f : Failure) (s : State) : (raise f s).draws = s.draws := rfl
@[simp] theorem raise_theCodec (f : Failure) (s : State) : (raise f s).theCodec = s.theCodec := rfl
@[simp] theorem raise_codec (f : Failure) (s : State) : (raise f s).codec = s.codec := rfl

@[simp] theorem setPhase_phase (p : Phase) (s : State) : (setPhase p s).phase = p := rfl
@[simp] theorem setPhase_op (p : Phase) (s : State) : (setPhase p s).op = s.op := rfl
@[simp] theorem setPhase_win (p : Phase) (s : State) : (setPhase p s).win = s.win := rfl
@[simp] theorem setPhase_nobs (p : Phase) (s : State) : (setPhase p s).nobs = s.nobs := rfl
@[simp] theorem setPhase_sum (p : Phase) (s : State) : (setPhase p s).sum = s.sum := rfl
@[simp] theorem setPhase_wcnt (p : Phase) (s : State) : (setPhase p s).wcnt = s.wcnt := rfl
@[simp] theorem setPhase_cand (p : Phase) (s : State) : (setPhase p s).cand = s.cand := rfl
@[simp] theorem setPhase_candHeld (p : Phase) (s : State) : (setPhase p s).candHeld = s.candHeld := rfl
@[simp] theorem setPhase_tot (p : Phase) (s : State) : (setPhase p s).tot = s.tot := rfl
@[simp] theorem setPhase_totHeld (p : Phase) (s : State) : (setPhase p s).totHeld = s.totHeld := rfl
@[simp] theorem setPhase_wbuf (p : Phase) (s : State) : (setPhase p s).wbuf = s.wbuf := rfl
@[simp] theorem setPhase_res (p : Phase) (s : State) : (setPhase p s).res = s.res := rfl
@[simp] theorem setPhase_desc (p : Phase) (s : State) : (setPhase p s).desc = s.desc := rfl
@[simp] theorem setPhase_blk (p : Phase) (s : State) : (setPhase p s).blk = s.blk := rfl
@[simp] theorem setPhase_cursor (p : Phase) (s : State) : (setPhase p s).cursor = s.cursor := rfl
@[simp] theorem setPhase_sink (p : Phase) (s : State) : (setPhase p s).sink = s.sink := rfl
@[simp] theorem setPhase_cmd (p : Phase) (s : State) : (setPhase p s).cmd = s.cmd := rfl
@[simp] theorem setPhase_issue (p : Phase) (s : State) : (setPhase p s).issue = s.issue := rfl
@[simp] theorem setPhase_ans (p : Phase) (s : State) : (setPhase p s).ans = s.ans := rfl
@[simp] theorem setPhase_draws (p : Phase) (s : State) : (setPhase p s).draws = s.draws := rfl
@[simp] theorem setPhase_theCodec (p : Phase) (s : State) : (setPhase p s).theCodec = s.theCodec := rfl
@[simp] theorem setPhase_codec (p : Phase) (s : State) : (setPhase p s).codec = s.codec := rfl

@[simp] theorem setCursor_phase (c : Cursor) (s : State) : (setCursor c s).phase = s.phase := rfl
@[simp] theorem setCursor_op (c : Cursor) (s : State) : (setCursor c s).op = s.op := rfl
@[simp] theorem setCursor_win (c : Cursor) (s : State) : (setCursor c s).win = s.win := rfl
@[simp] theorem setCursor_nobs (c : Cursor) (s : State) : (setCursor c s).nobs = s.nobs := rfl
@[simp] theorem setCursor_sum (c : Cursor) (s : State) : (setCursor c s).sum = s.sum := rfl
@[simp] theorem setCursor_wcnt (c : Cursor) (s : State) : (setCursor c s).wcnt = s.wcnt := rfl
@[simp] theorem setCursor_cand (c : Cursor) (s : State) : (setCursor c s).cand = s.cand := rfl
@[simp] theorem setCursor_candHeld (c : Cursor) (s : State) : (setCursor c s).candHeld = s.candHeld := rfl
@[simp] theorem setCursor_tot (c : Cursor) (s : State) : (setCursor c s).tot = s.tot := rfl
@[simp] theorem setCursor_totHeld (c : Cursor) (s : State) : (setCursor c s).totHeld = s.totHeld := rfl
@[simp] theorem setCursor_wbuf (c : Cursor) (s : State) : (setCursor c s).wbuf = s.wbuf := rfl
@[simp] theorem setCursor_res (c : Cursor) (s : State) : (setCursor c s).res = s.res := rfl
@[simp] theorem setCursor_desc (c : Cursor) (s : State) : (setCursor c s).desc = s.desc := rfl
@[simp] theorem setCursor_blk (c : Cursor) (s : State) : (setCursor c s).blk = s.blk := rfl
@[simp] theorem setCursor_cursor (c : Cursor) (s : State) : (setCursor c s).cursor = c := rfl
@[simp] theorem setCursor_sink (c : Cursor) (s : State) : (setCursor c s).sink = s.sink := rfl
@[simp] theorem setCursor_cmd (c : Cursor) (s : State) : (setCursor c s).cmd = s.cmd := rfl
@[simp] theorem setCursor_issue (c : Cursor) (s : State) : (setCursor c s).issue = s.issue := rfl
@[simp] theorem setCursor_ans (c : Cursor) (s : State) : (setCursor c s).ans = s.ans := rfl
@[simp] theorem setCursor_draws (c : Cursor) (s : State) : (setCursor c s).draws = s.draws := rfl
@[simp] theorem setCursor_theCodec (c : Cursor) (s : State) : (setCursor c s).theCodec = s.theCodec := rfl
@[simp] theorem setCursor_codec (c : Cursor) (s : State) : (setCursor c s).codec = s.codec := rfl

@[simp] theorem observeBit_phase (b : Bool) (s : State) : (observeBit b s).phase = s.phase := rfl
@[simp] theorem observeBit_op (b : Bool) (s : State) : (observeBit b s).op = s.op := rfl
@[simp] theorem observeBit_win (b : Bool) (s : State) : (observeBit b s).win = s.win.extractLsb' 0 15 ++ BitVec.ofBool b := rfl
@[simp] theorem observeBit_nobs (b : Bool) (s : State) : (observeBit b s).nobs = min (s.nobs + 1) 16 := rfl
@[simp] theorem observeBit_sum (b : Bool) (s : State) : (observeBit b s).sum = s.sum := rfl
@[simp] theorem observeBit_wcnt (b : Bool) (s : State) : (observeBit b s).wcnt = s.wcnt := rfl
@[simp] theorem observeBit_cand (b : Bool) (s : State) : (observeBit b s).cand = s.cand := rfl
@[simp] theorem observeBit_candHeld (b : Bool) (s : State) : (observeBit b s).candHeld = s.candHeld := rfl
@[simp] theorem observeBit_tot (b : Bool) (s : State) : (observeBit b s).tot = s.tot := rfl
@[simp] theorem observeBit_totHeld (b : Bool) (s : State) : (observeBit b s).totHeld = s.totHeld := rfl
@[simp] theorem observeBit_wbuf (b : Bool) (s : State) : (observeBit b s).wbuf = s.wbuf := rfl
@[simp] theorem observeBit_res (b : Bool) (s : State) : (observeBit b s).res = s.res := rfl
@[simp] theorem observeBit_desc (b : Bool) (s : State) : (observeBit b s).desc = s.desc := rfl
@[simp] theorem observeBit_blk (b : Bool) (s : State) : (observeBit b s).blk = s.blk := rfl
@[simp] theorem observeBit_cursor (b : Bool) (s : State) : (observeBit b s).cursor = s.cursor := rfl
@[simp] theorem observeBit_sink (b : Bool) (s : State) : (observeBit b s).sink = s.sink := rfl
@[simp] theorem observeBit_cmd (b : Bool) (s : State) : (observeBit b s).cmd = s.cmd := rfl
@[simp] theorem observeBit_issue (b : Bool) (s : State) : (observeBit b s).issue = s.issue := rfl
@[simp] theorem observeBit_ans (b : Bool) (s : State) : (observeBit b s).ans = s.ans := rfl
@[simp] theorem observeBit_draws (b : Bool) (s : State) : (observeBit b s).draws = s.draws := rfl
@[simp] theorem observeBit_theCodec (b : Bool) (s : State) : (observeBit b s).theCodec = s.theCodec := rfl
@[simp] theorem observeBit_codec (b : Bool) (s : State) : (observeBit b s).codec = s.codec := rfl

@[simp] theorem beginCandidate_phase (off : Int) (s : State) : (beginCandidate off s).phase = s.phase := rfl
@[simp] theorem beginCandidate_op (off : Int) (s : State) : (beginCandidate off s).op = s.op := rfl
@[simp] theorem beginCandidate_win (off : Int) (s : State) : (beginCandidate off s).win = s.win := rfl
@[simp] theorem beginCandidate_nobs (off : Int) (s : State) : (beginCandidate off s).nobs = s.nobs := rfl
@[simp] theorem beginCandidate_sum (off : Int) (s : State) : (beginCandidate off s).sum = 0#32 := rfl
@[simp] theorem beginCandidate_wcnt (off : Int) (s : State) : (beginCandidate off s).wcnt = 0 := rfl
@[simp] theorem beginCandidate_cand (off : Int) (s : State) : (beginCandidate off s).cand = off - 15 := rfl
@[simp] theorem beginCandidate_candHeld (off : Int) (s : State) : (beginCandidate off s).candHeld = true := rfl
@[simp] theorem beginCandidate_tot (off : Int) (s : State) : (beginCandidate off s).tot = s.tot := rfl
@[simp] theorem beginCandidate_totHeld (off : Int) (s : State) : (beginCandidate off s).totHeld = s.totHeld := rfl
@[simp] theorem beginCandidate_wbuf (off : Int) (s : State) : (beginCandidate off s).wbuf = s.wbuf := rfl
@[simp] theorem beginCandidate_res (off : Int) (s : State) : (beginCandidate off s).res = s.res := rfl
@[simp] theorem beginCandidate_desc (off : Int) (s : State) : (beginCandidate off s).desc = s.desc := rfl
@[simp] theorem beginCandidate_blk (off : Int) (s : State) : (beginCandidate off s).blk = s.blk := rfl
@[simp] theorem beginCandidate_cursor (off : Int) (s : State) : (beginCandidate off s).cursor = s.cursor := rfl
@[simp] theorem beginCandidate_sink (off : Int) (s : State) : (beginCandidate off s).sink = s.sink := rfl
@[simp] theorem beginCandidate_cmd (off : Int) (s : State) : (beginCandidate off s).cmd = s.cmd := rfl
@[simp] theorem beginCandidate_issue (off : Int) (s : State) : (beginCandidate off s).issue = s.issue := rfl
@[simp] theorem beginCandidate_ans (off : Int) (s : State) : (beginCandidate off s).ans = s.ans := rfl
@[simp] theorem beginCandidate_draws (off : Int) (s : State) : (beginCandidate off s).draws = s.draws := rfl
@[simp] theorem beginCandidate_theCodec (off : Int) (s : State) : (beginCandidate off s).theCodec = s.theCodec := rfl
@[simp] theorem beginCandidate_codec (off : Int) (s : State) : (beginCandidate off s).codec = s.codec := rfl

@[simp] theorem takeGroup_phase (g : Group) (w : Word) (s : State) : (takeGroup g w s).phase = s.phase := rfl
@[simp] theorem takeGroup_op (g : Group) (w : Word) (s : State) : (takeGroup g w s).op = s.op := rfl
@[simp] theorem takeGroup_win (g : Group) (w : Word) (s : State) : (takeGroup g w s).win = g.extractLsb' 0 16 := rfl
@[simp] theorem takeGroup_nobs (g : Group) (w : Word) (s : State) : (takeGroup g w s).nobs = 16 := rfl
@[simp] theorem takeGroup_sum (g : Group) (w : Word) (s : State) : (takeGroup g w s).sum = s.sum + w := rfl
@[simp] theorem takeGroup_wcnt (g : Group) (w : Word) (s : State) : (takeGroup g w s).wcnt = s.wcnt + 1 := rfl
@[simp] theorem takeGroup_cand (g : Group) (w : Word) (s : State) : (takeGroup g w s).cand = s.cand := rfl
@[simp] theorem takeGroup_candHeld (g : Group) (w : Word) (s : State) : (takeGroup g w s).candHeld = s.candHeld := rfl
@[simp] theorem takeGroup_tot (g : Group) (w : Word) (s : State) : (takeGroup g w s).tot = s.tot := rfl
@[simp] theorem takeGroup_totHeld (g : Group) (w : Word) (s : State) : (takeGroup g w s).totHeld = s.totHeld := rfl
@[simp] theorem takeGroup_wbuf (g : Group) (w : Word) (s : State) : (takeGroup g w s).wbuf = s.wbuf.write s.wcnt w := rfl
@[simp] theorem takeGroup_res (g : Group) (w : Word) (s : State) : (takeGroup g w s).res = s.res := rfl
@[simp] theorem takeGroup_desc (g : Group) (w : Word) (s : State) : (takeGroup g w s).desc = s.desc := rfl
@[simp] theorem takeGroup_blk (g : Group) (w : Word) (s : State) : (takeGroup g w s).blk = s.blk := rfl
@[simp] theorem takeGroup_cursor (g : Group) (w : Word) (s : State) : (takeGroup g w s).cursor = s.cursor := rfl
@[simp] theorem takeGroup_sink (g : Group) (w : Word) (s : State) : (takeGroup g w s).sink = s.sink := rfl
@[simp] theorem takeGroup_cmd (g : Group) (w : Word) (s : State) : (takeGroup g w s).cmd = s.cmd := rfl
@[simp] theorem takeGroup_issue (g : Group) (w : Word) (s : State) : (takeGroup g w s).issue = s.issue := rfl
@[simp] theorem takeGroup_ans (g : Group) (w : Word) (s : State) : (takeGroup g w s).ans = s.ans := rfl
@[simp] theorem takeGroup_draws (g : Group) (w : Word) (s : State) : (takeGroup g w s).draws = s.draws := rfl
@[simp] theorem takeGroup_theCodec (g : Group) (w : Word) (s : State) : (takeGroup g w s).theCodec = s.theCodec := rfl
@[simp] theorem takeGroup_codec (g : Group) (w : Word) (s : State) : (takeGroup g w s).codec = s.codec := rfl

@[simp] theorem drawLength_phase (s : State) : (drawLength s).2.phase = s.phase := rfl
@[simp] theorem drawLength_op (s : State) : (drawLength s).2.op = s.op := rfl
@[simp] theorem drawLength_win (s : State) : (drawLength s).2.win = s.win := rfl
@[simp] theorem drawLength_nobs (s : State) : (drawLength s).2.nobs = s.nobs := rfl
@[simp] theorem drawLength_sum (s : State) : (drawLength s).2.sum = s.sum := rfl
@[simp] theorem drawLength_wcnt (s : State) : (drawLength s).2.wcnt = s.wcnt := rfl
@[simp] theorem drawLength_cand (s : State) : (drawLength s).2.cand = s.cand := rfl
@[simp] theorem drawLength_candHeld (s : State) : (drawLength s).2.candHeld = s.candHeld := rfl
@[simp] theorem drawLength_tot (s : State) : (drawLength s).2.tot = s.tot := rfl
@[simp] theorem drawLength_totHeld (s : State) : (drawLength s).2.totHeld = s.totHeld := rfl
@[simp] theorem drawLength_wbuf (s : State) : (drawLength s).2.wbuf = s.wbuf := rfl
@[simp] theorem drawLength_res (s : State) : (drawLength s).2.res = s.res := rfl
@[simp] theorem drawLength_desc (s : State) : (drawLength s).2.desc = s.desc := rfl
@[simp] theorem drawLength_blk (s : State) : (drawLength s).2.blk = s.blk := rfl
@[simp] theorem drawLength_cursor (s : State) : (drawLength s).2.cursor = s.cursor := rfl
@[simp] theorem drawLength_sink (s : State) : (drawLength s).2.sink = s.sink := rfl
@[simp] theorem drawLength_cmd (s : State) : (drawLength s).2.cmd = s.cmd := rfl
@[simp] theorem drawLength_issue (s : State) : (drawLength s).2.issue = s.issue := rfl
@[simp] theorem drawLength_ans (s : State) : (drawLength s).2.ans = s.ans := rfl
@[simp] theorem drawLength_draws (s : State) : (drawLength s).2.draws = s.draws + 1 := rfl
@[simp] theorem drawLength_theCodec (s : State) : (drawLength s).2.theCodec = s.theCodec := rfl
@[simp] theorem drawLength_codec (s : State) : (drawLength s).2.codec = s.codec := rfl

@[simp] theorem recordTotal_phase (n : Nat) (s : State) : (recordTotal n s).phase = s.phase := rfl
@[simp] theorem recordTotal_op (n : Nat) (s : State) : (recordTotal n s).op = s.op := rfl
@[simp] theorem recordTotal_win (n : Nat) (s : State) : (recordTotal n s).win = s.win := rfl
@[simp] theorem recordTotal_nobs (n : Nat) (s : State) : (recordTotal n s).nobs = s.nobs := rfl
@[simp] theorem recordTotal_sum (n : Nat) (s : State) : (recordTotal n s).sum = s.sum := rfl
@[simp] theorem recordTotal_wcnt (n : Nat) (s : State) : (recordTotal n s).wcnt = s.wcnt := rfl
@[simp] theorem recordTotal_cand (n : Nat) (s : State) : (recordTotal n s).cand = s.cand := rfl
@[simp] theorem recordTotal_candHeld (n : Nat) (s : State) : (recordTotal n s).candHeld = s.candHeld := rfl
@[simp] theorem recordTotal_tot (n : Nat) (s : State) : (recordTotal n s).tot = n := rfl
@[simp] theorem recordTotal_totHeld (n : Nat) (s : State) : (recordTotal n s).totHeld = true := rfl
@[simp] theorem recordTotal_wbuf (n : Nat) (s : State) : (recordTotal n s).wbuf = s.wbuf := rfl
@[simp] theorem recordTotal_res (n : Nat) (s : State) : (recordTotal n s).res = s.res := rfl
@[simp] theorem recordTotal_desc (n : Nat) (s : State) : (recordTotal n s).desc = s.desc := rfl
@[simp] theorem recordTotal_blk (n : Nat) (s : State) : (recordTotal n s).blk = s.blk := rfl
@[simp] theorem recordTotal_cursor (n : Nat) (s : State) : (recordTotal n s).cursor = s.cursor := rfl
@[simp] theorem recordTotal_sink (n : Nat) (s : State) : (recordTotal n s).sink = s.sink := rfl
@[simp] theorem recordTotal_cmd (n : Nat) (s : State) : (recordTotal n s).cmd = s.cmd := rfl
@[simp] theorem recordTotal_issue (n : Nat) (s : State) : (recordTotal n s).issue = s.issue := rfl
@[simp] theorem recordTotal_ans (n : Nat) (s : State) : (recordTotal n s).ans = s.ans := rfl
@[simp] theorem recordTotal_draws (n : Nat) (s : State) : (recordTotal n s).draws = s.draws := rfl
@[simp] theorem recordTotal_theCodec (n : Nat) (s : State) : (recordTotal n s).theCodec = s.theCodec := rfl
@[simp] theorem recordTotal_codec (n : Nat) (s : State) : (recordTotal n s).codec = s.codec := rfl

@[simp] theorem populate_phase (ws : List Word) (s : State) : (populate ws s).phase = s.phase := rfl
@[simp] theorem populate_op (ws : List Word) (s : State) : (populate ws s).op = s.op := rfl
@[simp] theorem populate_win (ws : List Word) (s : State) : (populate ws s).win = s.win := rfl
@[simp] theorem populate_nobs (ws : List Word) (s : State) : (populate ws s).nobs = s.nobs := rfl
@[simp] theorem populate_sum (ws : List Word) (s : State) : (populate ws s).sum = s.sum := rfl
@[simp] theorem populate_wcnt (ws : List Word) (s : State) : (populate ws s).wcnt = s.wcnt := rfl
@[simp] theorem populate_cand (ws : List Word) (s : State) : (populate ws s).cand = s.cand := rfl
@[simp] theorem populate_candHeld (ws : List Word) (s : State) : (populate ws s).candHeld = s.candHeld := rfl
@[simp] theorem populate_tot (ws : List Word) (s : State) : (populate ws s).tot = s.tot := rfl
@[simp] theorem populate_totHeld (ws : List Word) (s : State) : (populate ws s).totHeld = s.totHeld := rfl
@[simp] theorem populate_wbuf (ws : List Word) (s : State) : (populate ws s).wbuf = s.wbuf := rfl
@[simp] theorem populate_res (ws : List Word) (s : State) : (populate ws s).res = s.res := rfl
@[simp] theorem populate_desc_len (ws : List Word) (s : State) : (populate ws s).desc.len = s.desc.len := rfl
@[simp] theorem populate_desc_nsec (ws : List Word) (s : State) : (populate ws s).desc.nsec = s.desc.nsec := rfl
@[simp] theorem populate_desc_dataBitoff (ws : List Word) (s : State) : (populate ws s).desc.dataBitoff = s.cand := rfl
@[simp] theorem populate_desc_totalBits (ws : List Word) (s : State) : (populate ws s).desc.totalBits = s.tot := rfl
@[simp] theorem populate_desc_valid (ws : List Word) (s : State) : (populate ws s).desc.valid = true := rfl
@[simp] theorem populate_desc_own (ws : List Word) (s : State) : (populate ws s).desc.own = true := rfl
@[simp] theorem populate_blk (ws : List Word) (s : State) : (populate ws s).blk = s.blk.writeWords 0 ws := rfl
@[simp] theorem populate_cursor (ws : List Word) (s : State) : (populate ws s).cursor = s.cursor := rfl
@[simp] theorem populate_sink (ws : List Word) (s : State) : (populate ws s).sink = s.sink := rfl
@[simp] theorem populate_cmd (ws : List Word) (s : State) : (populate ws s).cmd = s.cmd := rfl
@[simp] theorem populate_issue (ws : List Word) (s : State) : (populate ws s).issue = s.issue := rfl
@[simp] theorem populate_ans (ws : List Word) (s : State) : (populate ws s).ans = s.ans := rfl
@[simp] theorem populate_draws (ws : List Word) (s : State) : (populate ws s).draws = s.draws := rfl
@[simp] theorem populate_theCodec (ws : List Word) (s : State) : (populate ws s).theCodec = s.theCodec := rfl
@[simp] theorem populate_codec (ws : List Word) (s : State) : (populate ws s).codec = s.codec := rfl

@[simp] theorem succeed_phase (s : State) : (succeed s).phase = .idle := rfl
@[simp] theorem succeed_op (s : State) : (succeed s).op = s.op := rfl
@[simp] theorem succeed_win (s : State) : (succeed s).win = s.win := rfl
@[simp] theorem succeed_nobs (s : State) : (succeed s).nobs = s.nobs := rfl
@[simp] theorem succeed_sum (s : State) : (succeed s).sum = s.sum := rfl
@[simp] theorem succeed_wcnt (s : State) : (succeed s).wcnt = s.wcnt := rfl
@[simp] theorem succeed_cand (s : State) : (succeed s).cand = s.cand := rfl
@[simp] theorem succeed_candHeld (s : State) : (succeed s).candHeld = s.candHeld := rfl
@[simp] theorem succeed_tot (s : State) : (succeed s).tot = s.tot := rfl
@[simp] theorem succeed_totHeld (s : State) : (succeed s).totHeld = s.totHeld := rfl
@[simp] theorem succeed_wbuf (s : State) : (succeed s).wbuf = s.wbuf := rfl
@[simp] theorem succeed_res (s : State) : (succeed s).res = .ok := rfl
@[simp] theorem succeed_desc (s : State) : (succeed s).desc = s.desc := rfl
@[simp] theorem succeed_blk (s : State) : (succeed s).blk = s.blk := rfl
@[simp] theorem succeed_cursor (s : State) : (succeed s).cursor = s.cursor := rfl
@[simp] theorem succeed_sink (s : State) : (succeed s).sink = s.sink := rfl
@[simp] theorem succeed_cmd (s : State) : (succeed s).cmd = s.cmd := rfl
@[simp] theorem succeed_issue (s : State) : (succeed s).issue = s.issue := rfl
@[simp] theorem succeed_ans (s : State) : (succeed s).ans = s.ans := rfl
@[simp] theorem succeed_draws (s : State) : (succeed s).draws = s.draws := rfl
@[simp] theorem succeed_theCodec (s : State) : (succeed s).theCodec = s.theCodec := rfl
@[simp] theorem succeed_codec (s : State) : (succeed s).codec = s.codec := rfl

@[simp] theorem beginDecode_phase (s : State) : (beginDecode s).phase = s.phase := rfl
@[simp] theorem beginDecode_op (s : State) : (beginDecode s).op = .decode := rfl
@[simp] theorem beginDecode_win (s : State) : (beginDecode s).win = 0x0000#16 := rfl
@[simp] theorem beginDecode_nobs (s : State) : (beginDecode s).nobs = 0 := rfl
@[simp] theorem beginDecode_sum (s : State) : (beginDecode s).sum = 0#32 := rfl
@[simp] theorem beginDecode_wcnt (s : State) : (beginDecode s).wcnt = 0 := rfl
@[simp] theorem beginDecode_cand (s : State) : (beginDecode s).cand = s.cand := rfl
@[simp] theorem beginDecode_candHeld (s : State) : (beginDecode s).candHeld = false := rfl
@[simp] theorem beginDecode_tot (s : State) : (beginDecode s).tot = s.tot := rfl
@[simp] theorem beginDecode_totHeld (s : State) : (beginDecode s).totHeld = false := rfl
@[simp] theorem beginDecode_wbuf (s : State) : (beginDecode s).wbuf = [] := rfl
@[simp] theorem beginDecode_res (s : State) : (beginDecode s).res = .none := rfl
@[simp] theorem beginDecode_desc (s : State) : (beginDecode s).desc = s.desc := rfl
@[simp] theorem beginDecode_blk (s : State) : (beginDecode s).blk = s.blk := rfl
@[simp] theorem beginDecode_cursor (s : State) : (beginDecode s).cursor = s.cursor := rfl
@[simp] theorem beginDecode_sink (s : State) : (beginDecode s).sink = s.sink := rfl
@[simp] theorem beginDecode_cmd (s : State) : (beginDecode s).cmd = s.cmd := rfl
@[simp] theorem beginDecode_issue (s : State) : (beginDecode s).issue = s.issue := rfl
@[simp] theorem beginDecode_ans (s : State) : (beginDecode s).ans = s.ans := rfl
@[simp] theorem beginDecode_draws (s : State) : (beginDecode s).draws = s.draws := rfl
@[simp] theorem beginDecode_theCodec (s : State) : (beginDecode s).theCodec = s.theCodec := rfl
@[simp] theorem beginDecode_codec (s : State) : (beginDecode s).codec = s.codec := rfl

@[simp] theorem beginEncode_phase (s : State) : (beginEncode s).phase = s.phase := rfl
@[simp] theorem beginEncode_op (s : State) : (beginEncode s).op = .encode := rfl
@[simp] theorem beginEncode_win (s : State) : (beginEncode s).win = s.win := rfl
@[simp] theorem beginEncode_nobs (s : State) : (beginEncode s).nobs = s.nobs := rfl
@[simp] theorem beginEncode_sum (s : State) : (beginEncode s).sum = s.sum := rfl
@[simp] theorem beginEncode_wcnt (s : State) : (beginEncode s).wcnt = 0 := rfl
@[simp] theorem beginEncode_cand (s : State) : (beginEncode s).cand = s.cand := rfl
@[simp] theorem beginEncode_candHeld (s : State) : (beginEncode s).candHeld = s.candHeld := rfl
@[simp] theorem beginEncode_tot (s : State) : (beginEncode s).tot = s.tot := rfl
@[simp] theorem beginEncode_totHeld (s : State) : (beginEncode s).totHeld = s.totHeld := rfl
@[simp] theorem beginEncode_wbuf (s : State) : (beginEncode s).wbuf = s.wbuf := rfl
@[simp] theorem beginEncode_res (s : State) : (beginEncode s).res = .none := rfl
@[simp] theorem beginEncode_desc (s : State) : (beginEncode s).desc = s.desc := rfl
@[simp] theorem beginEncode_blk (s : State) : (beginEncode s).blk = s.blk := rfl
@[simp] theorem beginEncode_cursor (s : State) : (beginEncode s).cursor = s.cursor := rfl
@[simp] theorem beginEncode_sink (s : State) : (beginEncode s).sink = s.sink := rfl
@[simp] theorem beginEncode_cmd (s : State) : (beginEncode s).cmd = s.cmd := rfl
@[simp] theorem beginEncode_issue (s : State) : (beginEncode s).issue = s.issue := rfl
@[simp] theorem beginEncode_ans (s : State) : (beginEncode s).ans = s.ans := rfl
@[simp] theorem beginEncode_draws (s : State) : (beginEncode s).draws = s.draws := rfl
@[simp] theorem beginEncode_theCodec (s : State) : (beginEncode s).theCodec = s.theCodec := rfl
@[simp] theorem beginEncode_codec (s : State) : (beginEncode s).codec = s.codec := rfl

@[simp] theorem takeCommand_phase (s : State) : (takeCommand s).phase = s.phase := rfl
@[simp] theorem takeCommand_op (s : State) : (takeCommand s).op = s.op := rfl
@[simp] theorem takeCommand_win (s : State) : (takeCommand s).win = s.win := rfl
@[simp] theorem takeCommand_nobs (s : State) : (takeCommand s).nobs = s.nobs := rfl
@[simp] theorem takeCommand_sum (s : State) : (takeCommand s).sum = s.sum := rfl
@[simp] theorem takeCommand_wcnt (s : State) : (takeCommand s).wcnt = s.wcnt := rfl
@[simp] theorem takeCommand_cand (s : State) : (takeCommand s).cand = s.cand := rfl
@[simp] theorem takeCommand_candHeld (s : State) : (takeCommand s).candHeld = s.candHeld := rfl
@[simp] theorem takeCommand_tot (s : State) : (takeCommand s).tot = s.tot := rfl
@[simp] theorem takeCommand_totHeld (s : State) : (takeCommand s).totHeld = s.totHeld := rfl
@[simp] theorem takeCommand_wbuf (s : State) : (takeCommand s).wbuf = s.wbuf := rfl
@[simp] theorem takeCommand_res (s : State) : (takeCommand s).res = s.res := rfl
@[simp] theorem takeCommand_desc (s : State) : (takeCommand s).desc = s.desc := rfl
@[simp] theorem takeCommand_blk (s : State) : (takeCommand s).blk = s.blk := rfl
@[simp] theorem takeCommand_cursor (s : State) : (takeCommand s).cursor = s.cursor := rfl
@[simp] theorem takeCommand_sink (s : State) : (takeCommand s).sink = s.sink := rfl
@[simp] theorem takeCommand_cmd (s : State) : (takeCommand s).cmd = none := rfl
@[simp] theorem takeCommand_issue (s : State) : (takeCommand s).issue = s.issue := rfl
@[simp] theorem takeCommand_ans (s : State) : (takeCommand s).ans = s.ans := rfl
@[simp] theorem takeCommand_draws (s : State) : (takeCommand s).draws = s.draws := rfl
@[simp] theorem takeCommand_theCodec (s : State) : (takeCommand s).theCodec = s.theCodec := rfl
@[simp] theorem takeCommand_codec (s : State) : (takeCommand s).codec = s.codec := rfl

@[simp] theorem emit_phase (e : Emission) (s : State) : (emit e s).phase = s.phase := rfl
@[simp] theorem emit_op (e : Emission) (s : State) : (emit e s).op = s.op := rfl
@[simp] theorem emit_win (e : Emission) (s : State) : (emit e s).win = s.win := rfl
@[simp] theorem emit_nobs (e : Emission) (s : State) : (emit e s).nobs = s.nobs := rfl
@[simp] theorem emit_sum (e : Emission) (s : State) : (emit e s).sum = s.sum := rfl
@[simp] theorem emit_wcnt (e : Emission) (s : State) : (emit e s).wcnt = s.wcnt := rfl
@[simp] theorem emit_cand (e : Emission) (s : State) : (emit e s).cand = s.cand := rfl
@[simp] theorem emit_candHeld (e : Emission) (s : State) : (emit e s).candHeld = s.candHeld := rfl
@[simp] theorem emit_tot (e : Emission) (s : State) : (emit e s).tot = s.tot := rfl
@[simp] theorem emit_totHeld (e : Emission) (s : State) : (emit e s).totHeld = s.totHeld := rfl
@[simp] theorem emit_wbuf (e : Emission) (s : State) : (emit e s).wbuf = s.wbuf := rfl
@[simp] theorem emit_res (e : Emission) (s : State) : (emit e s).res = s.res := rfl
@[simp] theorem emit_desc (e : Emission) (s : State) : (emit e s).desc = s.desc := rfl
@[simp] theorem emit_blk (e : Emission) (s : State) : (emit e s).blk = s.blk := rfl
@[simp] theorem emit_cursor (e : Emission) (s : State) : (emit e s).cursor = s.cursor := rfl
@[simp] theorem emit_sink (e : Emission) (s : State) : (emit e s).sink = s.sink ++ [e] := rfl
@[simp] theorem emit_cmd (e : Emission) (s : State) : (emit e s).cmd = s.cmd := rfl
@[simp] theorem emit_issue (e : Emission) (s : State) : (emit e s).issue = s.issue := rfl
@[simp] theorem emit_ans (e : Emission) (s : State) : (emit e s).ans = s.ans := rfl
@[simp] theorem emit_draws (e : Emission) (s : State) : (emit e s).draws = s.draws := rfl
@[simp] theorem emit_theCodec (e : Emission) (s : State) : (emit e s).theCodec = s.theCodec := rfl
@[simp] theorem emit_codec (e : Emission) (s : State) : (emit e s).codec = s.codec := rfl

@[simp] theorem countWord_phase (s : State) : (countWord s).phase = s.phase := rfl
@[simp] theorem countWord_op (s : State) : (countWord s).op = s.op := rfl
@[simp] theorem countWord_win (s : State) : (countWord s).win = s.win := rfl
@[simp] theorem countWord_nobs (s : State) : (countWord s).nobs = s.nobs := rfl
@[simp] theorem countWord_sum (s : State) : (countWord s).sum = s.sum := rfl
@[simp] theorem countWord_wcnt (s : State) : (countWord s).wcnt = s.wcnt + 1 := rfl
@[simp] theorem countWord_cand (s : State) : (countWord s).cand = s.cand := rfl
@[simp] theorem countWord_candHeld (s : State) : (countWord s).candHeld = s.candHeld := rfl
@[simp] theorem countWord_tot (s : State) : (countWord s).tot = s.tot := rfl
@[simp] theorem countWord_totHeld (s : State) : (countWord s).totHeld = s.totHeld := rfl
@[simp] theorem countWord_wbuf (s : State) : (countWord s).wbuf = s.wbuf := rfl
@[simp] theorem countWord_res (s : State) : (countWord s).res = s.res := rfl
@[simp] theorem countWord_desc (s : State) : (countWord s).desc = s.desc := rfl
@[simp] theorem countWord_blk (s : State) : (countWord s).blk = s.blk := rfl
@[simp] theorem countWord_cursor (s : State) : (countWord s).cursor = s.cursor := rfl
@[simp] theorem countWord_sink (s : State) : (countWord s).sink = s.sink := rfl
@[simp] theorem countWord_cmd (s : State) : (countWord s).cmd = s.cmd := rfl
@[simp] theorem countWord_issue (s : State) : (countWord s).issue = s.issue := rfl
@[simp] theorem countWord_ans (s : State) : (countWord s).ans = s.ans := rfl
@[simp] theorem countWord_draws (s : State) : (countWord s).draws = s.draws := rfl
@[simp] theorem countWord_theCodec (s : State) : (countWord s).theCodec = s.theCodec := rfl
@[simp] theorem countWord_codec (s : State) : (countWord s).codec = s.codec := rfl

@[simp] theorem clearCount_phase (s : State) : (clearCount s).phase = s.phase := rfl
@[simp] theorem clearCount_op (s : State) : (clearCount s).op = s.op := rfl
@[simp] theorem clearCount_win (s : State) : (clearCount s).win = s.win := rfl
@[simp] theorem clearCount_nobs (s : State) : (clearCount s).nobs = s.nobs := rfl
@[simp] theorem clearCount_sum (s : State) : (clearCount s).sum = s.sum := rfl
@[simp] theorem clearCount_wcnt (s : State) : (clearCount s).wcnt = 0 := rfl
@[simp] theorem clearCount_cand (s : State) : (clearCount s).cand = s.cand := rfl
@[simp] theorem clearCount_candHeld (s : State) : (clearCount s).candHeld = s.candHeld := rfl
@[simp] theorem clearCount_tot (s : State) : (clearCount s).tot = s.tot := rfl
@[simp] theorem clearCount_totHeld (s : State) : (clearCount s).totHeld = s.totHeld := rfl
@[simp] theorem clearCount_wbuf (s : State) : (clearCount s).wbuf = s.wbuf := rfl
@[simp] theorem clearCount_res (s : State) : (clearCount s).res = s.res := rfl
@[simp] theorem clearCount_desc (s : State) : (clearCount s).desc = s.desc := rfl
@[simp] theorem clearCount_blk (s : State) : (clearCount s).blk = s.blk := rfl
@[simp] theorem clearCount_cursor (s : State) : (clearCount s).cursor = s.cursor := rfl
@[simp] theorem clearCount_sink (s : State) : (clearCount s).sink = s.sink := rfl
@[simp] theorem clearCount_cmd (s : State) : (clearCount s).cmd = s.cmd := rfl
@[simp] theorem clearCount_issue (s : State) : (clearCount s).issue = s.issue := rfl
@[simp] theorem clearCount_ans (s : State) : (clearCount s).ans = s.ans := rfl
@[simp] theorem clearCount_draws (s : State) : (clearCount s).draws = s.draws := rfl
@[simp] theorem clearCount_theCodec (s : State) : (clearCount s).theCodec = s.theCodec := rfl
@[simp] theorem clearCount_codec (s : State) : (clearCount s).codec = s.codec := rfl

@[simp] theorem answer_phase (a : Answer) (s : State) : (answer a s).phase = s.phase := rfl
@[simp] theorem answer_op (a : Answer) (s : State) : (answer a s).op = s.op := rfl
@[simp] theorem answer_win (a : Answer) (s : State) : (answer a s).win = s.win := rfl
@[simp] theorem answer_nobs (a : Answer) (s : State) : (answer a s).nobs = s.nobs := rfl
@[simp] theorem answer_sum (a : Answer) (s : State) : (answer a s).sum = s.sum := rfl
@[simp] theorem answer_wcnt (a : Answer) (s : State) : (answer a s).wcnt = s.wcnt := rfl
@[simp] theorem answer_cand (a : Answer) (s : State) : (answer a s).cand = s.cand := rfl
@[simp] theorem answer_candHeld (a : Answer) (s : State) : (answer a s).candHeld = s.candHeld := rfl
@[simp] theorem answer_tot (a : Answer) (s : State) : (answer a s).tot = s.tot := rfl
@[simp] theorem answer_totHeld (a : Answer) (s : State) : (answer a s).totHeld = s.totHeld := rfl
@[simp] theorem answer_wbuf (a : Answer) (s : State) : (answer a s).wbuf = s.wbuf := rfl
@[simp] theorem answer_res (a : Answer) (s : State) : (answer a s).res = s.res := rfl
@[simp] theorem answer_desc (a : Answer) (s : State) : (answer a s).desc = s.desc := rfl
@[simp] theorem answer_blk (a : Answer) (s : State) : (answer a s).blk = s.blk := rfl
@[simp] theorem answer_cursor (a : Answer) (s : State) : (answer a s).cursor = s.cursor := rfl
@[simp] theorem answer_sink (a : Answer) (s : State) : (answer a s).sink = s.sink := rfl
@[simp] theorem answer_cmd (a : Answer) (s : State) : (answer a s).cmd = s.cmd := rfl
@[simp] theorem answer_issue (a : Answer) (s : State) : (answer a s).issue = s.issue := rfl
@[simp] theorem answer_ans (a : Answer) (s : State) : (answer a s).ans = a := rfl
@[simp] theorem answer_draws (a : Answer) (s : State) : (answer a s).draws = s.draws := rfl
@[simp] theorem answer_theCodec (a : Answer) (s : State) : (answer a s).theCodec = s.theCodec := rfl
@[simp] theorem answer_codec (a : Answer) (s : State) : (answer a s).codec = s.codec := rfl

end Sys2Proof.Machine
end

