-- ==== Sys2Proof/Laws/Cursor.lean ====
section
/-! SUPPORT. What each cursor operation can answer, said once, for every kind of cursor. -/

namespace Sys2Proof.Machine

/-! ### Runs of bits -/

theorem length_bitsFrom_le (f : Nat → Option Bool) (i n : Nat) : (bitsFrom f i n).length ≤ n := by
  induction n generalizing i with
  | zero => simp [bitsFrom]
  | succ n ih =>
    rw [bitsFrom]
    split
    · simp
    · simpa using ih (i + 1)

/-- Where a run of bits is short, the sequence has ended. -/
theorem bitsFrom_short (f : Nat → Option Bool) (i n : Nat) (h : (bitsFrom f i n).length < n) :
    f (i + (bitsFrom f i n).length) = none := by
  induction n generalizing i with
  | zero => omega
  | succ n ih =>
    rw [bitsFrom] at h ⊢
    split
    · next hi => simpa using hi
    · next b hb =>
      rw [hb] at h
      rw [List.length_cons, show i + ((bitsFrom f (i + 1) n).length + 1) = i + 1 + (bitsFrom f (i + 1) n).length by omega]
      exact ih (i + 1) (by simpa using h)

/-- A run of bits holds the sequence's bits. -/
theorem getElem_bitsFrom (f : Nat → Option Bool) (i n j : Nat) (h : j < (bitsFrom f i n).length) :
    f (i + j) = some (bitsFrom f i n)[j] := by
  induction n generalizing i j with
  | zero => simp [bitsFrom] at h
  | succ n ih =>
    rcases hi : f i with _ | b
    · simp [bitsFrom, hi] at h
    · simp only [bitsFrom, hi] at h ⊢
      cases j with
      | zero => simpa using hi
      | succ j =>
        rw [show i + (j + 1) = i + 1 + j by omega, List.getElem_cons_succ]
        exact ih (i + 1) j (by simpa using h)

/-- A run of a list's bits. -/
theorem bitsFrom_getElem? (l : List Bool) (i n : Nat) : bitsFrom (fun j => l[j]?) i n = (l.drop i).take n := by
  induction n generalizing i with
  | zero => simp [bitsFrom]
  | succ n ih =>
    rw [bitsFrom]
    split
    · next hi => rw [List.drop_eq_nil_of_le (List.getElem?_eq_none_iff.1 hi), List.take_nil]
    · next b hb =>
      obtain ⟨hlt, rfl⟩ := List.getElem?_eq_some_iff.1 hb
      rw [ih, List.drop_eq_getElem_cons hlt, List.take_succ_cons]

/-- A run of bits after a whole one. -/
theorem bitsFrom_add (f : Nat → Option Bool) (i m n : Nat) (h : (bitsFrom f i m).length = m) :
    bitsFrom f i (m + n) = bitsFrom f i m ++ bitsFrom f (i + m) n := by
  induction m generalizing i with
  | zero => simp [bitsFrom]
  | succ m ih =>
    rcases hi : f i with _ | b
    · simp [bitsFrom, hi] at h
    · simp only [bitsFrom, hi, List.length_cons, Nat.add_right_cancel_iff] at h
      rw [show m + 1 + n = (m + n) + 1 by omega, bitsFrom, bitsFrom, hi]
      simp only [List.cons_append]
      rw [ih (i + 1) h, show i + 1 + m = i + (m + 1) by omega]

/-- A run that is short is no longer when more is asked for. -/
theorem bitsFrom_of_short (f : Nat → Option Bool) (i n m : Nat) (h : (bitsFrom f i n).length < n) (hm : n ≤ m) :
    bitsFrom f i m = bitsFrom f i n := by
  induction n generalizing i m with
  | zero => omega
  | succ n ih =>
    obtain ⟨m, rfl⟩ : ∃ k, m = k + 1 := ⟨m - 1, by omega⟩
    rcases hi : f i with _ | b
    · simp [bitsFrom, hi]
    · simp only [bitsFrom, hi] at h ⊢
      rw [ih (i + 1) m (by simpa using h) (by omega)]

/-! ### A cursor's bits -/

theorem Cursor.kind_cases (c : Cursor) :
    c.kind = .reference ∨ c.kind = .consuming ∨ c.kind = .revolving ∨ ∃ k, c.kind = .other k := by
  cases c.kind <;> simp

theorem Cursor.bitAt_captured (c : Cursor) (h : c.captured) (i : Nat) : c.bitAt i = c.bits[i]? := by
  rcases h with h | h <;> simp [Cursor.bitAt, h]

/-- A cursor's next bits are a run of its sequence. -/
theorem Cursor.upTo_eq (c : Cursor) (n : Nat) : c.upTo n = bitsFrom c.bitAt c.pos n := by
  rcases hk : c.kind with _ | _ | _ | k <;> simp only [Cursor.upTo, hk, Cursor.ahead] <;> rw [← bitsFrom_getElem?] <;>
    congr 1 <;> funext j <;> simp [Cursor.bitAt, hk]

theorem Cursor.upTo_captured (c : Cursor) (h : c.captured) (n : Nat) : c.upTo n = c.ahead.take n := by
  rcases h with h | h <;> simp [Cursor.upTo, h]

theorem Cursor.length_upTo_le (c : Cursor) (n : Nat) : (c.upTo n).length ≤ n := by
  rw [Cursor.upTo_eq]
  exact length_bitsFrom_le _ _ _

theorem Cursor.upTo_short (c : Cursor) (n m : Nat) (h : (c.upTo n).length < n) (hm : n ≤ m) : c.upTo m = c.upTo n := by
  simp only [Cursor.upTo_eq] at h ⊢
  exact bitsFrom_of_short _ _ _ _ h hm

theorem Cursor.length_ahead (c : Cursor) : c.ahead.length = c.remaining := by simp [Cursor.ahead, Cursor.remaining]

/-! ### A cursor moved on -/

theorem ticks_add (f : Nat → Nat → Nat) (p m a b : Nat) : ticks f p m (a + b) = ticks f (p + a) (ticks f p m a) b := by
  induction a generalizing p m with
  | zero => simp [ticks]
  | succ a ih =>
    rw [show a + 1 + b = (a + b) + 1 by omega, ticks, ticks, ih, show p + 1 + a = p + (a + 1) by omega]

@[simp] theorem Cursor.advanced_bits (c : Cursor) (n : Nat) : (c.advanced n).bits = c.bits := rfl
@[simp] theorem Cursor.advanced_marks (c : Cursor) (n : Nat) : (c.advanced n).marks = c.marks := rfl
@[simp] theorem Cursor.advanced_origin (c : Cursor) (n : Nat) : (c.advanced n).origin = c.origin := rfl
@[simp] theorem Cursor.advanced_kind (c : Cursor) (n : Nat) : (c.advanced n).kind = c.kind := rfl
@[simp] theorem Cursor.advanced_pos (c : Cursor) (n : Nat) : (c.advanced n).pos = c.pos + n := rfl
@[simp] theorem Cursor.advanced_captured (c : Cursor) (n : Nat) : (c.advanced n).captured ↔ c.captured := Iff.rfl

@[simp] theorem Cursor.advanced_zero (c : Cursor) : c.advanced 0 = c := by
  obtain ⟨_, _, _, _, k, _⟩ := c
  cases k <;> rfl

@[simp] theorem Cursor.advanced_advanced (c : Cursor) (m n : Nat) : (c.advanced m).advanced n = c.advanced (m + n) := by
  obtain ⟨_, _, _, _, k, _⟩ := c
  cases k <;> simp [Cursor.advanced, Nat.add_assoc, ticks_add]

theorem Cursor.advanced_of_captured (c : Cursor) (h : c.captured) (n : Nat) : c.advanced n = { c with pos := c.pos + n } := by
  rcases h with h | h <;> simp [Cursor.advanced, h]

@[simp] theorem Cursor.bitAt_advanced (c : Cursor) (n : Nat) : (c.advanced n).bitAt = c.bitAt := rfl

@[simp] theorem Cursor.ahead_advanced (c : Cursor) (n : Nat) : (c.advanced n).ahead = c.ahead.drop n := by
  simp [Cursor.ahead]

/-- R177 (c): the bits after a whole run of bits. -/
theorem Cursor.upTo_add (c : Cursor) (m n : Nat) (h : (c.upTo m).length = m) :
    c.upTo (m + n) = c.upTo m ++ (c.advanced m).upTo n := by
  simp only [Cursor.upTo_eq] at h ⊢
  exact bitsFrom_add _ _ _ _ h

/-! ### The requests -/

/-- R171: a bit, and one place further; or `EXH` at the end, and nothing moved. -/
theorem Cursor.nextBit_cases (c : Cursor) :
    (∃ b, c.bitAt c.pos = some b ∧ c.nextBit = (some b, c.advanced 1)) ∨ (c.bitAt c.pos = none ∧ c.nextBit = (none, c)) := by
  rcases h : c.bitAt c.pos with _ | b
  · exact .inr ⟨rfl, by simp [Cursor.nextBit, h]⟩
  · exact .inl ⟨b, rfl, by simp [Cursor.nextBit, h]⟩

theorem Cursor.nextBit_some (c : Cursor) (b : Bool) (h : c.bitAt c.pos = some b) : c.nextBit = (some b, c.advanced 1) := by
  simp [Cursor.nextBit, h]

theorem Cursor.nextBit_none (c : Cursor) (h : c.bitAt c.pos = none) : c.nextBit = (none, c) := by simp [Cursor.nextBit, h]

/-- R172: 64 bits, and 64 places further; or `EXH` with fewer left, and exhausted. -/
theorem Cursor.nextBytes_cases (c : Cursor) :
    (∃ g : Group, c.upTo 64 = toBits g ∧ c.nextBytes = (some g, c.advanced 64)) ∨
      ((c.upTo 64).length < 64 ∧ c.nextBytes = (none, c.advanced (c.upTo 64).length)) := by
  by_cases h : (c.upTo 64).length = 64
  · exact .inl ⟨ofBits 64 (c.upTo 64), (toBits_ofBits _ h).symm, by simp [Cursor.nextBytes, h]⟩
  · exact .inr ⟨by have := c.length_upTo_le 64; omega, by simp [Cursor.nextBytes, h]⟩

/-- R172 with the bits given. -/
theorem Cursor.nextBytes_some (c : Cursor) (g : Group) (h : c.upTo 64 = toBits g) :
    c.nextBytes = (some g, c.advanced 64) := by
  rcases c.nextBytes_cases with ⟨g', hg, h'⟩ | ⟨h', _⟩
  · rw [h', show g' = g by rw [← ofBits_toBits g', ← hg, h, ofBits_toBits]]
  · rw [h, length_toBits] at h'; omega

/-- R172: a captured stream that has not 64 bits left is at its end. -/
theorem Cursor.advanced_exhausted (c : Cursor) (hc : c.captured) (h : (c.upTo 64).length < 64) :
    c.bits.length < c.pos + 64 ∧ c.advanced (c.upTo 64).length = { c with pos := max c.pos c.bits.length } := by
  rw [c.upTo_captured hc] at h ⊢
  have hl := c.length_ahead
  rw [Cursor.remaining] at hl
  rw [List.length_take, hl] at h ⊢
  refine ⟨by omega, ?_⟩
  rw [c.advanced_of_captured hc]
  congr 1
  omega

/-- R172: a captured stream that answers a group has 64 bits left. -/
theorem Cursor.pos_of_group (c : Cursor) (hc : c.captured) (g : Group) (h : c.upTo 64 = toBits g) :
    c.pos + 64 ≤ c.bits.length := by
  have hl := congrArg List.length h
  rw [c.upTo_captured hc, List.length_take, c.length_ahead, Cursor.remaining, length_toBits] at hl
  omega

theorem Cursor.pos_of_bit (c : Cursor) (hc : c.captured) (b : Bool) (h : c.bitAt c.pos = some b) :
    c.pos < c.bits.length := by
  rw [c.bitAt_captured hc] at h
  exact (List.getElem?_eq_some_iff.1 h).1

/-- R176: the mark a seek runs to is the least of those that have not passed. -/
theorem markFrom_some (marks : List Nat) (p m : Nat) :
    markFrom marks p = some m ↔ isNextMark marks p m := by
  simp only [markFrom, isNextMark, List.min?_eq_some_iff, List.mem_filter, decide_eq_true_eq, and_imp]
  exact and_assoc

theorem markFrom_none (marks : List Nat) (p : Nat) : markFrom marks p = none ↔ ∀ m ∈ marks, m < p := by
  simp [markFrom, List.min?_eq_none_iff, List.filter_eq_nil_iff]

theorem Cursor.pos_le_passed (c : Cursor) : c.pos ≤ c.passed := by
  rcases hk : c.kind with _ | _ | _ | k <;> simp [Cursor.passed, hk]

/-- R174 on a stream: to the next mark, with a length or, before any bit, without; or to the end, without. -/
theorem Cursor.seekStream_cases (c : Cursor) :
    (∃ m, isNextMark c.marksTo c.passed m ∧
        c.seekStream = (if c.pos = 0 then none else some (m - markBelow c.marksTo c.passed), c.atMark m)) ∨
      ((∀ m ∈ c.marksTo, m < c.passed) ∧ c.seekStream = (none, { c with pos := max c.pos c.bits.length })) := by
  rcases h : markFrom c.marksTo c.passed with _ | m
  · exact .inr ⟨(markFrom_none _ _).1 h, by simp [Cursor.seekStream, h]⟩
  · exact .inl ⟨m, (markFrom_some _ _ _).1 h, by simp [Cursor.seekStream, h]⟩

/-- R174, R175 for any cursor: a seek goes forward and leaves the stream as it is; a captured stream stays in its capture. -/
theorem Cursor.seekIndex_spec (c : Cursor) :
    ∃ p m, c.seekIndex.2 = { c with pos := p, memo := m } ∧ c.pos ≤ p ∧
      (c.captured → p ∈ c.marks ∨ p = max c.pos c.bits.length) := by
  have hs : c.seekIndex = c.seekStream →
      (c.captured → c.marksTo = c.marks) → (∀ m, ∃ q, c.atMark m = { c with pos := m, memo := q }) →
      ∃ p m, c.seekIndex.2 = { c with pos := p, memo := m } ∧ c.pos ≤ p ∧
        (c.captured → p ∈ c.marks ∨ p = max c.pos c.bits.length) := by
    intro e hm ha
    rcases c.seekStream_cases with ⟨m, ⟨h1, h2, _⟩, h⟩ | ⟨_, h⟩
    · obtain ⟨q, hq⟩ := ha m
      exact ⟨m, q, by rw [e, h, hq], c.pos_le_passed.trans h2, fun hc => .inl (hm hc ▸ h1)⟩
    · exact ⟨_, c.memo, by rw [e, h], le_max_left _ _, fun _ => .inr rfl⟩
  rcases c.kind_cases with hk | hk | hk | ⟨k, hk⟩
  · exact hs (by simp [Cursor.seekIndex, hk]) (fun _ => by simp [Cursor.marksTo, hk])
      fun m => ⟨c.memo, by simp [Cursor.atMark, hk]⟩
  · exact hs (by simp [Cursor.seekIndex, hk]) (fun _ => by simp [Cursor.marksTo, hk])
      fun m => ⟨m + 1, by simp [Cursor.atMark, hk]⟩
  · exact hs (by simp [Cursor.seekIndex, hk]) (fun h => by rcases h with h | h <;> simp [hk] at h)
      fun m => ⟨m + 1, by simp [Cursor.atMark, hk]⟩
  · exact ⟨_, ((Config.cursor k).seek c.pos c.memo).memo, by simp [Cursor.seekIndex, hk, Cursor.seekOpen],
      (Config.cursor k).forward c.pos c.memo,
      fun h => by rcases h with h | h <;> simp [hk] at h⟩

/-- R174 for the attached cursor: the framer's registers stay, the stream stays, the cursor goes forward. -/
theorem seekIndex_spec (s : State) :
    ∃ p m d, (seekIndex s).2 = { s with cursor := { s.cursor with pos := p, memo := m }, draws := d } ∧ s.cursor.pos ≤ p ∧
      (s.cursor.captured → p ∈ s.cursor.marks ∨ p = max s.cursor.pos s.cursor.bits.length) := by
  obtain ⟨p, m, h, hle, hc⟩ := s.cursor.seekIndex_spec
  rcases hn : s.cursor.seekIndex with ⟨_ | n, c⟩ <;> rw [hn] at h <;> cases h
  · exact ⟨p, m, s.draws + 1, by simp [seekIndex, hn, drawLength, setCursor], hle, hc⟩
  · exact ⟨p, m, s.draws, by simp [seekIndex, hn, setCursor], hle, hc⟩

end Sys2Proof.Machine
end

