-- ==== Sys2Proof/Laws/Memory.lean ====
section
/-! SUPPORT. The laws of a store: read after write, canonical form, words of bytes. -/

namespace Sys2Proof.Machine

variable {α : Type}

theorem Memory.wf_cons (c : Nat × α) (m : Memory α) :
    Memory.wf (c :: m) ↔ (∀ d ∈ m, c.1 < d.1) ∧ Memory.wf m := by
  simp [Memory.wf, List.pairwise_cons]

/-- What is in the store after a write. -/
theorem Memory.mem_write (m : Memory α) (a : Nat) (v : α) (d : Nat × α) (h : d ∈ m.write a v) : d = (a, v) ∨ d ∈ m := by
  induction m with
  | nil => simpa [Memory.write] using h
  | cons c m ih =>
    obtain ⟨b, u⟩ := c
    simp only [Memory.write] at h
    split at h
    · simpa using h
    · split at h
      · rcases List.mem_cons.1 h with rfl | h <;> simp [*]
      · rcases List.mem_cons.1 h with rfl | h
        · simp
        · rcases ih h with rfl | h <;> simp [*]

/-- A write keeps the canonical form. -/
theorem Memory.wf_write (m : Memory α) (a : Nat) (v : α) (h : m.wf) : (m.write a v).wf := by
  induction m with
  | nil => simp [Memory.write, Memory.wf]
  | cons c m ih =>
    obtain ⟨b, u⟩ := c
    rw [Memory.wf_cons] at h
    simp only [Memory.write]
    split
    · next hlt =>
      rw [Memory.wf_cons, Memory.wf_cons]
      refine ⟨fun d hd => ?_, h⟩
      rcases List.mem_cons.1 hd with rfl | hd
      · exact hlt
      · exact lt_trans hlt (h.1 d hd)
    · split
      · next heq =>
        subst heq
        rw [Memory.wf_cons]
        exact h
      · next hlt hne =>
        rw [Memory.wf_cons]
        refine ⟨fun d hd => ?_, ih h.2⟩
        rcases Memory.mem_write m a v d hd with rfl | hd
        · show b < a
          omega
        · exact h.1 d hd

/-- Reading where one has just written. -/
@[simp] theorem Memory.read_write_same (m : Memory α) (a : Nat) (v : α) : (m.write a v).read a = some v := by
  induction m with
  | nil => simp [Memory.write, Memory.read]
  | cons c m ih =>
    obtain ⟨b, u⟩ := c
    simp only [Memory.write]
    split
    · simp [Memory.read]
    · split
      · simp [Memory.read]
      · next hlt hne => simp [Memory.read, Ne.symm hne, ih]

/-- A write leaves every other address alone. -/
theorem Memory.read_write_other (m : Memory α) (a b : Nat) (v : α) (h : b ≠ a) : (m.write a v).read b = m.read b := by
  induction m with
  | nil => simp [Memory.write, Memory.read, Ne.symm h]
  | cons c m ih =>
    obtain ⟨d, u⟩ := c
    simp only [Memory.write]
    split
    · simp [Memory.read, Ne.symm h]
    · split
      · next heq => subst heq; simp [Memory.read, Ne.symm h]
      · simp [Memory.read, ih]

/-- Reading after a write, in one equation. -/
theorem Memory.read_write (m : Memory α) (a b : Nat) (v : α) :
    (m.write a v).read b = if b = a then some v else m.read b := by
  split
  · next h => subst h; simp
  · next h => exact Memory.read_write_other m a b v h

/-- A word write keeps the canonical form. -/
theorem Memory.wf_writeWord (m : Memory Byte) (a : Nat) (w : Word) (h : m.wf) : (m.writeWord a w).wf :=
  Memory.wf_write _ _ _ (Memory.wf_write _ _ _ (Memory.wf_write _ _ _ (Memory.wf_write _ _ _ h)))

/-- Writing words keeps the canonical form. -/
theorem Memory.wf_writeWords (ws : List Word) (m : Memory Byte) (i : Nat) (h : m.wf) : (m.writeWords i ws).wf := by
  induction ws generalizing m i with
  | nil => exact h
  | cons w ws ih => exact ih _ _ (Memory.wf_writeWord m _ w h)

/-- A word write changes the four bytes at its address and no other. -/
theorem Memory.read_writeWord (m : Memory Byte) (a b : Nat) (w : Word) :
    (m.writeWord a w).read b =
      if b = a then some (w.extractLsb' 24 8) else if b = a + 1 then some (w.extractLsb' 16 8)
      else if b = a + 2 then some (w.extractLsb' 8 8) else if b = a + 3 then some (w.extractLsb' 0 8)
      else m.read b := by
  simp only [Memory.writeWord, Memory.read_write]
  split_ifs <;> first | omega | rfl

/-- The four bytes of a word put together again, the most significant first (R62). -/
theorem bytes_of_word (w : Word) :
    w.extractLsb' 24 8 ++ w.extractLsb' 16 8 ++ w.extractLsb' 8 8 ++ w.extractLsb' 0 8 = w := by
  apply BitVec.eq_of_getLsbD_eq
  intro i hi
  have hi : i < 32 := hi
  simp only [BitVec.getLsbD_append, BitVec.getLsbD_extractLsb']
  interval_cases i <;> simp

/-- Reading back a word. -/
@[simp] theorem Memory.readWord_writeWord_same (m : Memory Byte) (a : Nat) (w : Word) :
    (m.writeWord a w).readWord a = some w := by
  simp [Memory.readWord, Memory.read_writeWord, bytes_of_word]

/-- A word write leaves every word away from it alone. -/
theorem Memory.readWord_writeWord_other (m : Memory Byte) (a b : Nat) (w : Word) (h : b + 4 ≤ a ∨ a + 4 ≤ b) :
    (m.writeWord a w).readWord b = m.readWord b := by
  have h1 : ∀ k < 4, (m.writeWord a w).read (b + k) = m.read (b + k) := by
    intro k hk
    rw [Memory.read_writeWord]
    split_ifs <;> first | omega | rfl
  have h0 := h1 0 (by omega)
  simp only [Nat.add_zero] at h0
  simp only [Memory.readWord, h0, h1 1 (by omega), h1 2 (by omega), h1 3 (by omega)]

/-- A byte after some words have been written from word index `i` on: bytes before them are as they were. -/
theorem Memory.read_writeWords_before (ws : List Word) (m : Memory Byte) (i b : Nat) (h : b < 4 * i) :
    (m.writeWords i ws).read b = m.read b := by
  induction ws generalizing m i with
  | nil => rfl
  | cons w ws ih =>
    rw [Memory.writeWords, ih _ _ (by omega), Memory.read_writeWord]
    split_ifs <;> first | omega | rfl

/-- Bytes after the written words are as they were. -/
theorem Memory.read_writeWords_after (ws : List Word) (m : Memory Byte) (i b : Nat) (h : 4 * (i + ws.length) ≤ b) :
    (m.writeWords i ws).read b = m.read b := by
  induction ws generalizing m i with
  | nil => rfl
  | cons w ws ih =>
    simp only [List.length_cons] at h
    rw [Memory.writeWords, ih _ _ (by omega), Memory.read_writeWord]
    split_ifs <;> first | omega | rfl

/-- Words before the written ones are as they were. -/
theorem Memory.readWord_writeWords_before (ws : List Word) (m : Memory Byte) (i j : Nat) (h : j < i) :
    (m.writeWords i ws).readWord (4 * j) = m.readWord (4 * j) := by
  simp only [Memory.readWord]
  rw [Memory.read_writeWords_before _ _ _ _ (by omega), Memory.read_writeWords_before _ _ _ _ (by omega),
    Memory.read_writeWords_before _ _ _ _ (by omega), Memory.read_writeWords_before _ _ _ _ (by omega)]

/-- Reading back a written word. -/
theorem Memory.readWord_writeWords (ws : List Word) (m : Memory Byte) (i j : Nat) (h : j < ws.length) :
    (m.writeWords i ws).readWord (4 * (i + j)) = some ws[j] := by
  induction ws generalizing m i j with
  | nil => simp at h
  | cons w ws ih =>
    rw [Memory.writeWords]
    cases j with
    | zero =>
      rw [Nat.add_zero, Memory.readWord_writeWords_before _ _ _ _ (by omega)]
      simp
    | succ j =>
      have hj : j < ws.length := by simpa using h
      have := ih (m.writeWord (4 * i) w) (i + 1) j hj
      rw [show i + (j + 1) = i + 1 + j by omega, this]
      simp

/-- Where the written words lie, and nothing else. -/
theorem Memory.mem_writeWords_lt (ws : List Word) (m : Memory Byte) (i n : Nat) (hm : ∀ c ∈ m, c.1 < 4 * n)
    (hi : i + ws.length ≤ n) : ∀ c ∈ m.writeWords i ws, c.1 < 4 * n := by
  induction ws generalizing m i with
  | nil => exact hm
  | cons w ws ih =>
    simp only [List.length_cons] at hi
    apply ih _ _ _ (by omega)
    intro c hc
    simp only [Memory.writeWord] at hc
    rcases Memory.mem_write _ _ _ _ hc with rfl | hc
    · show 4 * i + 3 < 4 * n
      omega
    rcases Memory.mem_write _ _ _ _ hc with rfl | hc
    · show 4 * i + 2 < 4 * n
      omega
    rcases Memory.mem_write _ _ _ _ hc with rfl | hc
    · show 4 * i + 1 < 4 * n
      omega
    rcases Memory.mem_write _ _ _ _ hc with rfl | hc
    · show 4 * i < 4 * n
      omega
    exact hm c hc

/-- What collecting some values says: each is there, in order. -/
theorem collect_eq_some (f : Nat → Option α) (i n : Nat) (l : List α) :
    collect f i n = some l ↔ l.length = n ∧ ∀ j (h : j < l.length), f (i + j) = some l[j] := by
  induction n generalizing i l with
  | zero => cases l <;> simp [collect]
  | succ n ih =>
    simp only [collect]
    constructor
    · intro h
      split at h
      · simp at h
      · next a ha =>
        obtain ⟨l', hl', rfl⟩ := Option.map_eq_some_iff.1 h
        obtain ⟨hlen, hj⟩ := (ih _ _).1 hl'
        refine ⟨by simp [hlen], fun j h => ?_⟩
        cases j with
        | zero => simpa using ha
        | succ j => simpa [show i + (j + 1) = i + 1 + j by omega] using hj j (by simpa using h)
    · rintro ⟨hlen, hj⟩
      cases l with
      | nil => simp at hlen
      | cons a l =>
        have h0 := hj 0 (by simp)
        simp only [Nat.add_zero, List.getElem_cons_zero] at h0
        have : collect f (i + 1) n = some l := by
          rw [ih]
          refine ⟨by simpa using hlen, fun j h => ?_⟩
          have := hj (j + 1) (by simpa using h)
          simpa [show i + (j + 1) = i + 1 + j by omega] using this
        simp [h0, this]

/-- Collecting depends on the collected entries alone. -/
theorem collect_congr (f g : Nat → Option α) (i n : Nat) (h : ∀ j < n, f (i + j) = g (i + j)) :
    collect f i n = collect g i n := by
  induction n generalizing i with
  | zero => rfl
  | succ n ih =>
    have h0 := h 0 (by omega)
    simp only [Nat.add_zero] at h0
    have := ih (i + 1) (fun j hj => by
      have := h (j + 1) (by omega)
      simpa [show i + (j + 1) = i + 1 + j by omega] using this)
    simp only [collect, h0, this]

/-- One more collected entry. -/
theorem collect_succ (f : Nat → Option α) (i n : Nat) (l : List α) (a : α) (hl : collect f i n = some l)
    (ha : f (i + n) = some a) : collect f i (n + 1) = some (l ++ [a]) := by
  rw [collect_eq_some] at hl ⊢
  obtain ⟨rfl, hj⟩ := hl
  refine ⟨by simp, fun j h => ?_⟩
  rw [List.getElem_append]
  split
  · next hlt => exact hj j hlt
  · next hge =>
    have : j = l.length := by simp at h; omega
    subst this
    simpa using ha

/-- Reset leaves both stores in their canonical form, nothing listed. -/
theorem reset_blk_wf : State.reset.blk.wf := List.Pairwise.nil

theorem reset_wbuf_wf : State.reset.wbuf.wf := List.Pairwise.nil

/-- The block just written holds the words it was written with (R62, R126). -/
theorem blkWords_writeWords (m : Memory Byte) (ws : List Word) (h : ws.length = Config.nwords) :
    blkWords (m.writeWords 0 ws) = some ws := by
  rw [blkWords, collect_eq_some]
  exact ⟨h, fun j hj => Memory.readWord_writeWords ws m 0 j hj⟩

end Sys2Proof.Machine
end

