-- ==== Sys2Proof/Laws/Sink.lean ====
section
/-! SUPPORT. The raw bits of emissions, one after another. -/

namespace Sys2Proof.Machine

/-- The last bit of some bits after others. -/
theorem lastOr_append (a b : List Bool) (d : Bool) : lastOr d (a ++ b) = lastOr (lastOr d a) b := by
  induction a generalizing d with
  | nil => rfl
  | cons x a ih => exact ih x

/-- R183: emissions after others flatten to their bits after the others'. -/
theorem flatten_append (c : Codec) (p : Bool) (es fs : List Emission) :
    flatten c p (es ++ fs) = flatten c p es ++ flatten c (lastOr p (flatten c p es)) fs := by
  induction es generalizing p with
  | nil => rfl
  | cons e es ih => simp [flatten, ih, lastOr_append]

/-- R186, R185: one emission's bits come after the sink's. -/
theorem sinkBits_emit (e : Emission) (s : State) :
    (emit e s).sinkBits = s.sinkBits ++ emissionBits s.theCodec s.lastRawBit e := by
  show flatten s.theCodec Config.bitBefore (s.sink ++ [e]) = _
  simp [State.sinkBits, State.lastRawBit, flatten_append, flatten]

/-- The last of a value's bits is its bit 0. -/
theorem lastOr_toBits {n : Nat} (v : BitVec n) (h : 0 < n) (d : Bool) : lastOr d (toBits v) = v.getLsbD 0 := by
  obtain ⟨n, rfl⟩ : ∃ m, n = m + 1 := ⟨n - 1, by omega⟩
  rw [toBits, List.range_succ, List.map_append, lastOr_append]
  simp [lastOr, BitVec.getMsbD]

/-- R154: the emissions of some words flatten to their groups. -/
theorem flatten_words (c : Codec) (p : Bool) (r : Rate) (ws : List Word) :
    flatten c p (ws.map fun w => .modw w r) = groupsBits c p ws := by
  induction ws generalizing p with
  | nil => rfl
  | cons w ws ih => rw [List.map_cons, flatten, emissionBits, groupsBits, lastOr_toBits _ (by omega), ih]

/-- R154: the emissions of one ENCODE flatten to the frame, whatever the sink held before. -/
theorem flatten_frame (c : Codec) (p : Bool) (r : Rate) (ws : List Word) :
    flatten c p (.lit 16 Config.marker r :: ws.map fun w => .modw w r) = frameOf c ws := by
  rw [flatten, emissionBits, frameOf, lastOr_toBits _ (by omega), flatten_words]

/-- R95: the groups of some words are 64 bits each. -/
@[simp] theorem length_groupsBits (c : Codec) (p : Bool) (ws : List Word) :
    (groupsBits c p ws).length = 64 * ws.length := by
  induction ws generalizing p with
  | nil => rfl
  | cons w ws ih => simp [groupsBits, ih]; omega

/-- R7, R95: a frame of 1536 words is 98320 bits. -/
theorem length_frameOf (c : Codec) (ws : List Word) : (frameOf c ws).length = 16 + 64 * ws.length := by
  simp [frameOf]

end Sys2Proof.Machine
end

