-- ==== Sys2Proof/Laws/Ops.lean ====
section
/-! SUPPORT. What each shared operation can do, said once: proofs cite these instead of unfolding the operation. -/

namespace Sys2Proof.Machine

/-- Two things one after another come to a next state only through both. -/
theorem andThen_next {α β : Type} {o : Answers α} {f : α → Answers β} {b : β} :
    andThen o f = .next b ↔ ∃ a, o = .next a ∧ f a = .next b := by
  cases o <;> simp [andThen]

@[simp] theorem andThen_of_next {α β : Type} (a : α) (f : α → Answers β) : andThen (.next a) f = f a := rfl

/-- R104, R121: a DECODE is accepted exactly when the host has set it up. -/
theorem decodeRefusal_none (s : State) : decodeRefusal s = none ↔ s.readyToDecode := by
  simp only [decodeRefusal, State.readyToDecode, Desc.legal]
  split_ifs <;> simp_all

/-- R104, R151: an ENCODE is accepted exactly on a populated descriptor of the scheme, in `IDLE`. -/
theorem encodeRefusal_none (s : State) :
    encodeRefusal s = none ↔ s.phase = .idle ∧ s.desc.len = 6144 ∧ s.desc.nsec = 1 ∧ s.desc.own = true := by
  simp only [encodeRefusal, Desc.legal]
  split_ifs <;> simp_all

/-- R62, R43: a word of the block is read exactly from a populated block, inside it, its four bytes there. -/
theorem blkWord_next (s : State) (i : Nat) (w : Word) :
    blkWord s i = .next w ↔ s.desc.own = true ∧ i < 1536 ∧ s.blk.readWord (4 * i) = some w := by
  simp only [blkWord, Config.len]
  split_ifs with h1 h2
  · simp [h1]
  · simp; omega
  · rcases h : s.blk.readWord (4 * i) with _ | v <;> simp [h1]
    omega

/-- R122: what a scan step does. -/
theorem scanStep_cases (s : State) :
    (s.cursor.bitAt s.cursor.pos = none ∧ scanStep s = raise .notFound s) ∨
      (∃ b, s.cursor.bitAt s.cursor.pos = some b ∧
        let t := observeBit b (setCursor (s.cursor.advanced 1) s)
        (t.atMarker = true ∧ scanStep s = setPhase .dRead (beginCandidate (s.cursor.advanced 1).lastOffset t)) ∨
          (t.atMarker = false ∧ scanStep s = setPhase .dScan t)) := by
  rcases s.cursor.nextBit_cases with ⟨b, hb, h⟩ | ⟨hl, h⟩
  · refine .inr ⟨b, hb, ?_⟩
    cases ha : (observeBit b (setCursor (s.cursor.advanced 1) s)).atMarker <;> simp [scanStep, h, scanBit, ha]
  · exact .inl ⟨hl, by simp [scanStep, h, setCursor]⟩

/-- R123: what a read step can do when it answers a next state. -/
theorem readStep_next (s t : State) (h : readStep s = .next t) :
    ((s.cursor.upTo 64).length < 64 ∧
        t = raise .truncated (setCursor (s.cursor.advanced (s.cursor.upTo 64).length) s)) ∨
      (∃ g : Group, s.cursor.upTo 64 = toBits g ∧ s.wcnt < 1536 ∧
        let u := takeGroup g (s.theCodec.demod g) (setCursor (s.cursor.advanced 64) s)
        t = setPhase (phaseAfterWord u) u) := by
  rcases s.cursor.nextBytes_cases with ⟨g, hg, hn⟩ | ⟨hl, hn⟩
  · simp only [readStep, hn, readGroup] at h
    split at h
    · next hw => exact .inr ⟨g, hg, by simpa using hw, by simpa using h.symm⟩
    · simp at h
  · simp only [readStep, hn] at h
    exact .inl ⟨hl, by simpa using h.symm⟩

/-- R126: the commit step answers a next state exactly when all it reads is there. -/
theorem commitStep_next (s t : State) :
    commitStep s = .next t ↔
      s.candHeld = true ∧ s.totHeld = true ∧ ∃ ws, stagedWords s.wbuf = some ws ∧ t = succeed (populate ws s) := by
  simp only [commitStep]
  cases h1 : s.candHeld <;> cases h2 : s.totHeld <;> rcases h3 : stagedWords s.wbuf with _ | ws <;>
    simp [eq_comm]

/-- R125: what the index step does. -/
theorem indexStep_eq (s : State) :
    indexStep s = setPhase .dCommit (recordTotal (seekIndex s).1 (seekIndex s).2) := rfl

/-- R153: what a word step can do when it answers a next state. -/
theorem wordStep_next (s t : State) :
    wordStep s = .next t ↔ ∃ w, blkWord s s.wcnt = .next w ∧ t = afterWord (emitWord w s) := by
  rw [wordStep, andThen_next]
  simp [eq_comm]

/-- The step machine runs an item only where none of the refusals applies (R21, R101 to R103, R240). -/
theorem fetch_item (s t : State) (it : Item) (h : fetch s = .item it t) :
    (s.issue = some it ∧ t = { s with issue := none } ∧ it.format ≠ .step ∧ (it.format = .req → s.phase = .idle)) ∨
      (s.issue = none ∧ t = s ∧
        ((s.phase ≠ .idle ∧ s.cmd = none ∧ it = s.phase.selector) ∨
          (s.phase = .idle ∧ ((s.cmd = some 0#8 ∧ it = selector .idle 0) ∨
            (s.cmd = some 1#8 ∧ it = selector .idle 1))))) := by
  have code_eq : ∀ (c : Byte) (n : Nat), n < 256 → c.toNat = n → c = BitVec.ofNat 8 n := by
    intro c n hn h
    apply BitVec.eq_of_toNat_eq
    simp [h, Nat.mod_eq_of_lt hn]
  unfold fetch at h
  split at h
  · next it' hi =>
    left
    simp only [fetchIssued] at h
    split_ifs at h with h1 h2
    cases h
    refine ⟨hi, rfl, h1, fun hr => ?_⟩
    by_contra hp
    exact h2 ⟨hr, hp⟩
  · next hi =>
    right
    refine ⟨hi, ?_⟩
    unfold fetchPhase at h
    split at h
    · cases h
    · next code hp hc =>
      simp only [fetchCommand, decodeCmd, takeNat] at h
      simp only [List.length_singleton, le_refl, if_true, Machine.natOfBytes, List.take_succ_cons, List.take_zero,
        List.foldl_cons, List.foldl_nil, Nat.mul_zero, Nat.zero_add, bind, Except.bind, pure, Except.pure] at h
      rcases hcode : code.toNat with _ | _ | n
      · rw [hcode] at h
        cases h
        exact ⟨rfl, .inr ⟨hp, .inl ⟨by rw [hc, code_eq code 0 (by omega) hcode], rfl⟩⟩⟩
      · rw [hcode] at h
        cases h
        exact ⟨rfl, .inr ⟨hp, .inr ⟨by rw [hc, code_eq code 1 (by omega) hcode], rfl⟩⟩⟩
      · rw [hcode] at h
        cases h
    · cases h
    · next hc hp =>
      cases h
      exact ⟨rfl, .inl ⟨hp, hc, rfl⟩⟩

end Sys2Proof.Machine
end

