-- ==== Sys2Proof/Laws/Commands.lean ====
section
/-! SUPPORT. What the loops of the whole commands and of a scanned field can do, said once. -/

namespace Sys2Proof.Machine

/-- R153: what a word loop reads does not change as words go out. -/
@[simp] theorem blkWord_emitWord (w : Word) (s : State) (i : Nat) : blkWord (emitWord w s) i = blkWord s i := rfl

/-- R62: in a populated block the words are read one by one. -/
theorem blkWord_of_blkWords (s : State) (ws : List Word) (ho : s.desc.own = true) (hb : blkWords s.blk = some ws)
    (i : Nat) (hi : i < ws.length) : blkWord s i = .next ws[i] := by
  obtain ⟨hl, hw⟩ := (collect_eq_some _ _ _ _).1 hb
  rw [blkWord_next]
  exact ⟨ho, by simpa [hl] using hi, by simpa using hw i hi⟩

/-- R150: the word loop, its words at hand, emits them in order and ends the command. -/
theorem encodeBody_next (ws : List Word) (i : Nat) (s : State)
    (h : ∀ (j : Nat) (hj : j < ws.length), blkWord s (i + j) = .next ws[j]) :
    encodeBody ws.length i s =
      .next (succeed
        { s with sink := s.sink ++ ws.map fun w => .modw w Config.rate, wcnt := s.wcnt + ws.length }) := by
  induction ws generalizing i s with
  | nil => simp [encodeBody]
  | cons w ws ih =>
    have h0 : blkWord s i = .next w := h 0 (Nat.succ_pos _)
    rw [List.length_cons, encodeBody, h0, andThen_of_next, ih]
    · simp [emitWord, countWord, emit, succeed]; omega
    · intro j hj
      have := h (j + 1) (by simpa using hj)
      rw [blkWord_emitWord]
      simpa [show i + 1 + j = i + (j + 1) by omega] using this

/-- R120: the group loop that comes to its end has taken 64 bits for each word, and touched nothing but the cursor and
the candidate's registers. -/
theorem readBody_ok (n : Nat) (s t : State) (h : readBody n s = .ok t) :
    (s.cursor.upTo (64 * n)).length = 64 * n ∧
      t = { s with
            cursor := s.cursor.advanced (64 * n), wbuf := t.wbuf, sum := t.sum, win := t.win, nobs := t.nobs,
            wcnt := s.wcnt + n } := by
  induction n generalizing s with
  | zero => cases h; exact ⟨by simp [Cursor.upTo_eq, bitsFrom], by simp⟩
  | succ n ih =>
    simp only [readBody] at h
    rcases s.cursor.nextBytes_cases with ⟨g, hg, hn⟩ | ⟨hl, hn⟩ <;> rw [hn] at h <;> simp only at h
    · obtain ⟨hp, ht⟩ := ih _ h
      have h64 : (s.cursor.upTo 64).length = 64 := by rw [hg, length_toBits]
      refine ⟨?_, ?_⟩
      · rw [show 64 * (n + 1) = 64 + 64 * n by omega, Cursor.upTo_add _ _ _ h64, List.length_append, h64]
        simpa using hp
      · rw [ht]
        simp [takeGroup, setCursor, Nat.mul_add, Nat.add_comm, Nat.add_left_comm]
    · cases h

/-- R120, R202: the group loop that ends early has taken `Truncated`, the cursor exhausted. -/
theorem readBody_error (n : Nat) (s t : State) (h : readBody n s = .error t) :
    (s.cursor.upTo (64 * n)).length < 64 * n ∧
      t = raise .truncated
        { s with
          cursor := s.cursor.advanced (s.cursor.upTo (64 * n)).length, wbuf := t.wbuf, sum := t.sum, win := t.win,
          nobs := t.nobs, wcnt := t.wcnt } := by
  induction n generalizing s with
  | zero => cases h
  | succ n ih =>
    simp only [readBody] at h
    rcases s.cursor.nextBytes_cases with ⟨g, hg, hn⟩ | ⟨hl, hn⟩ <;> rw [hn] at h <;> simp only at h
    · obtain ⟨hp, ht⟩ := ih _ h
      have h64 : (s.cursor.upTo 64).length = 64 := by rw [hg, length_toBits]
      have hu : s.cursor.upTo (64 * (n + 1)) = s.cursor.upTo 64 ++ (s.cursor.advanced 64).upTo (64 * n) := by
        rw [show 64 * (n + 1) = 64 + 64 * n by omega, Cursor.upTo_add _ _ _ h64]
      rw [hu, List.length_append, h64]
      simp at hp
      refine ⟨by omega, ?_⟩
      rw [ht]
      simp [takeGroup, setCursor, raise]
    · cases h
      have hu : s.cursor.upTo (64 * (n + 1)) = s.cursor.upTo 64 := s.cursor.upTo_short 64 _ hl (by omega)
      rw [hu]
      exact ⟨by omega, by simp only [setCursor, raise]⟩

/-- R122: a scanned field moves the cursor and writes the registers of a scan; everything of the host's stays. -/
theorem scanBits_keeps (n : Nat) (s : State) :
    (scanBits n s).desc = s.desc ∧ (scanBits n s).blk = s.blk ∧ (scanBits n s).sink = s.sink ∧
      ∃ k, (scanBits n s).cursor = s.cursor.advanced k := by
  induction n generalizing s with
  | zero => exact ⟨rfl, rfl, rfl, 0, by simp [scanBits]⟩
  | succ n ih =>
    simp only [scanBits]
    split
    · obtain ⟨h1, h2, h3, k, h4⟩ := ih (scanStep s)
      rw [h1, h2, h3, h4]
      rcases scanStep_cases s with ⟨_, e⟩ | ⟨b, _, ⟨_, e⟩ | ⟨_, e⟩⟩ <;> rw [e]
      · exact ⟨rfl, rfl, rfl, k, rfl⟩
      · exact ⟨rfl, rfl, rfl, 1 + k, by simp⟩
      · exact ⟨rfl, rfl, rfl, 1 + k, by simp⟩
    · exact ⟨rfl, rfl, rfl, 0, by simp⟩

end Sys2Proof.Machine
end

