-- ==== Sys2Proof/Laws/PerInstr.lean ====
section
/-! SUPPORT. One lemma per instruction: how many bytes its encoding takes. -/

namespace Sys2Proof.Laws

open Machine (bytesOfNat length_bytesOfNat)

/-- How many bytes an item takes, from the widths of its fields. -/
def EncodedLength.bytes : Instr → Nat
  | .decode => 1
  | .encode => 1
  | .mark => 2
  | .grp _ => 8
  | .acceptD => 1
  | .acceptE => 1
  | .dScan => 1
  | .dRead => 1
  | .dCheck => 1
  | .dIndex => 1
  | .dCommit => 1
  | .eMark => 1
  | .eWord => 1
  | .nextBit => 1
  | .nextBytes => 1
  | .offset => 1
  | .seekIndex => 1
  | .demod _ => 1 + 8
  | .mod _ _ => 1 + (1 + 4)
  | .emitLit _ _ _ => 1 + (1 + (32 + 4))
  | .emitMod _ _ => 1 + (4 + 4)

/-- The encoding of an instruction has its bytes, and no item is longer than the longest. -/
def EncodedLength.Statement (i : Instr) : Prop :=
  (encodeItem i).length = EncodedLength.bytes i ∧ EncodedLength.bytes i ≤ longestItem

theorem EncodedLength.decode : EncodedLength.Statement .decode := ⟨rfl, by decide⟩
theorem EncodedLength.encode : EncodedLength.Statement .encode := ⟨rfl, by decide⟩
theorem EncodedLength.mark : EncodedLength.Statement .mark := ⟨rfl, by decide⟩
theorem EncodedLength.grp (g : Group) : EncodedLength.Statement (.grp g) :=
  ⟨length_bytesOfNat _ _, by change 8 ≤ longestItem; decide⟩
theorem EncodedLength.acceptD : EncodedLength.Statement .acceptD := ⟨rfl, by decide⟩
theorem EncodedLength.acceptE : EncodedLength.Statement .acceptE := ⟨rfl, by decide⟩
theorem EncodedLength.dScan : EncodedLength.Statement .dScan := ⟨rfl, by decide⟩
theorem EncodedLength.dRead : EncodedLength.Statement .dRead := ⟨rfl, by decide⟩
theorem EncodedLength.dCheck : EncodedLength.Statement .dCheck := ⟨rfl, by decide⟩
theorem EncodedLength.dIndex : EncodedLength.Statement .dIndex := ⟨rfl, by decide⟩
theorem EncodedLength.dCommit : EncodedLength.Statement .dCommit := ⟨rfl, by decide⟩
theorem EncodedLength.eMark : EncodedLength.Statement .eMark := ⟨rfl, by decide⟩
theorem EncodedLength.eWord : EncodedLength.Statement .eWord := ⟨rfl, by decide⟩
theorem EncodedLength.nextBit : EncodedLength.Statement .nextBit := ⟨rfl, by decide⟩
theorem EncodedLength.nextBytes : EncodedLength.Statement .nextBytes := ⟨rfl, by decide⟩
theorem EncodedLength.offset : EncodedLength.Statement .offset := ⟨rfl, by decide⟩
theorem EncodedLength.seekIndex : EncodedLength.Statement .seekIndex := ⟨rfl, by decide⟩

theorem EncodedLength.demod (g : Group) : EncodedLength.Statement (.demod g) :=
  ⟨by simp only [encodeItem, List.length_append, length_bytesOfNat, EncodedLength.bytes],
    by change 9 ≤ longestItem; decide⟩

theorem EncodedLength.mod (p : Bool) (w : Word) : EncodedLength.Statement (.mod p w) :=
  ⟨by simp only [encodeItem, List.length_append, length_bytesOfNat, EncodedLength.bytes],
    by change 6 ≤ longestItem; decide⟩

theorem EncodedLength.emitLit (n : Nat) (v : BitVec n) (rate : Rate) : EncodedLength.Statement (.emitLit n v rate) :=
  ⟨by simp only [encodeItem, List.length_append, length_bytesOfNat, EncodedLength.bytes],
    by change 38 ≤ longestItem; decide⟩

theorem EncodedLength.emitMod (w : Word) (rate : Rate) : EncodedLength.Statement (.emitMod w rate) :=
  ⟨by simp only [encodeItem, List.length_append, length_bytesOfNat, EncodedLength.bytes],
    by change 9 ≤ longestItem; decide⟩

end Sys2Proof.Laws
end

