-- ==== Sys2Proof/Laws/Scan.lean ====
section
/-! SUPPORT. The window as a run of bits, and runs one after another: what proofs about scanning cite. -/

namespace Sys2Proof.Machine

/-- A bit of a value, by its place in delivery order. -/
theorem getElem_toBits {n : Nat} (v : BitVec n) (i : Nat) (h : i < (toBits v).length) : (toBits v)[i] = v.getMsbD i := by
  simp [toBits]

/-- A value's bits decide it. -/
theorem toBits_inj {n : Nat} (v w : BitVec n) : toBits v = toBits w ↔ v = w :=
  ⟨fun h => by rw [← ofBits_toBits v, h, ofBits_toBits], fun h => h ▸ rfl⟩

/-- R23: bit 0 of the window is the bit observed last, every other the bit below it before. -/
theorem getLsbD_observeBit (b : Bool) (s : State) (j : Nat) (h : j < 16) :
    (observeBit b s).win.getLsbD j = if j = 0 then b else s.win.getLsbD (j - 1) := by
  show (s.win.extractLsb' 0 15 ++ BitVec.ofBool b : BitVec (15 + 1)).getLsbD j = _
  rw [BitVec.getLsbD_append]
  by_cases h0 : j = 0
  · subst h0
    cases b <;> rfl
  · simp [h0, show ¬j < 1 by omega, show j - 1 < 15 by omega]

/-- R23: an observed bit enters the window at its last place, the oldest leaves. -/
theorem toBits_observeBit (b : Bool) (s : State) : toBits (observeBit b s).win = (toBits s.win).drop 1 ++ [b] := by
  apply List.ext_getElem
  · simp
  · intro i h1 h2
    have hi : i < 16 := by simpa using h1
    rw [getElem_toBits, BitVec.getMsbD, getLsbD_observeBit b s _ (by omega)]
    by_cases h15 : i = 15
    · subst h15
      rw [List.getElem_append_right (by simp)]
      simp
    · rw [List.getElem_append_left (by simp; omega), List.getElem_drop, getElem_toBits, BitVec.getMsbD]
      simp [hi, show 1 + i < 16 by omega, show ¬(15 - i = 0) by omega, show 15 - (1 + i) = 15 - i - 1 by omega]

/-- R123: the window after a group is the group's last 16 bits. -/
theorem toBits_lastSixteen (g : Group) : toBits (g.extractLsb' 0 16) = (toBits g).drop 48 := by
  apply List.ext_getElem
  · simp
  · intro i h1 h2
    have hi : i < 16 := by simpa using h1
    rw [getElem_toBits, List.getElem_drop, getElem_toBits]
    simp [BitVec.getMsbD, hi, show 48 + i < 64 by omega, show 63 - (48 + i) = 15 - i by omega,
      show 15 - i < 16 by omega]

/-- R122: a scan is at the marker exactly when 16 bits have been observed and the window's bits are the marker's. -/
theorem atMarker_iff (s : State) : s.atMarker = true ↔ s.nobs = 16 ∧ toBits s.win = toBits Config.marker := by
  simp [State.atMarker, toBits_inj]

/-- R122: after `k` more of the given bits, `nobs` observed before and the window's bits in front, a marker is complete. -/
def Completes (nobs : Nat) (bits : List Bool) (k : Nat) : Prop :=
  16 ≤ nobs + k ∧ (bits.drop k).take 16 = toBits Config.marker

theorem Cursor.upTo_cons (c : Cursor) (n : Nat) (b : Bool) (bs : List Bool) (h : c.upTo (n + 1) = b :: bs) :
    c.bitAt c.pos = some b ∧ (c.advanced 1).upTo n = bs := by
  rw [Cursor.upTo_eq, bitsFrom] at h
  split at h
  · cases h
  · next x hx => cases h; exact ⟨hx, by rw [Cursor.upTo_eq]; rfl⟩

/-- The bits of a scan, the window in front, after one more of them. -/
theorem drop_observeBit (s : State) (b : Bool) (bs : List Bool) :
    (toBits s.win ++ b :: bs).drop 1 = toBits (observeBit b s).win ++ bs := by
  rw [toBits_observeBit, List.drop_append_of_le_length (by simp), List.append_assoc]
  rfl

/-- R122: the scan is at the marker exactly when the bit just observed completes it. -/
theorem atMarker_observeBit (s : State) (b : Bool) (bs : List Bool) :
    (observeBit b s).atMarker = true ↔ Completes s.nobs (toBits s.win ++ b :: bs) 1 := by
  rw [atMarker_iff, Completes, drop_observeBit, List.take_append_of_le_length (by simp), List.take_of_length_le (by simp)]
  simp

/-- What completes after one more bit completes one later. -/
theorem completes_observeBit (s : State) (b : Bool) (bs : List Bool) (k : Nat) (h : 1 ≤ k) :
    Completes (observeBit b s).nobs (toBits (observeBit b s).win ++ bs) k ↔
      Completes s.nobs (toBits s.win ++ b :: bs) (k + 1) := by
  rw [Completes, Completes, Nat.add_comm k 1, ← List.drop_drop, drop_observeBit]
  have : 16 ≤ (observeBit b s).nobs + k ↔ 16 ≤ s.nobs + (1 + k) := by simp; omega
  rw [this]

/-- R122: a scan of bits none of which completes a marker. -/
theorem scanBits_quiet (n : Nat) (s : State) (bits : List Bool) (hp : s.phase = .dScan) (hb : s.cursor.upTo n = bits)
    (hl : bits.length = n) (hno : ∀ k, 1 ≤ k → k ≤ n → ¬Completes s.nobs (toBits s.win ++ bits) k) :
    scanBits n s =
      { s with
        cursor := s.cursor.advanced n, win := ofBits 16 ((toBits s.win ++ bits).drop n),
        nobs := if n = 0 then s.nobs else min (s.nobs + n) 16 } := by
  induction n generalizing s bits with
  | zero =>
    obtain rfl : bits = [] := List.eq_nil_of_length_eq_zero hl
    simp [scanBits, ofBits_toBits]
  | succ n ih =>
    obtain ⟨b, bs, rfl⟩ : ∃ b bs, bits = b :: bs := by cases bits <;> simp at hl ⊢
    obtain ⟨h1, h2⟩ := Cursor.upTo_cons _ _ _ _ hb
    rcases scanStep_cases s with ⟨h, _⟩ | ⟨b', hb', e⟩
    · rw [h1] at h; cases h
    rw [h1] at hb'
    cases hb'
    rcases e with ⟨h, _⟩ | ⟨_, e⟩
    · exact absurd ((atMarker_observeBit _ b bs).1 h) (hno 1 le_rfl (by omega))
    rw [scanBits, if_pos hp, e,
      ih (setPhase .dScan (observeBit b (setCursor (s.cursor.advanced 1) s))) bs rfl h2 (by simpa using hl) fun k hk1 hk2 h =>
      hno (k + 1) (by omega) (by omega) ((completes_observeBit (setCursor (s.cursor.advanced 1) s) b bs k hk1).1 h)]
    simp only [setPhase, hp.symm]
    congr 1
    · show ofBits 16 ((toBits (observeBit b (setCursor (s.cursor.advanced 1) s)).win ++ bs).drop n) = _
      rw [← drop_observeBit, List.drop_drop, Nat.add_comm]
      rfl
    · simp; split <;> omega
    · simp [Nat.add_comm]

/-- R122: a scan ends at the first bit that completes a marker. -/
theorem scanBits_completes (n k : Nat) (s : State) (bits : List Bool) (hp : s.phase = .dScan) (hb : s.cursor.upTo n = bits)
    (hl : bits.length = n) (h1 : 1 ≤ k) (hk : k ≤ n) (hc : Completes s.nobs (toBits s.win ++ bits) k)
    (hno : ∀ j, 1 ≤ j → j < k → ¬Completes s.nobs (toBits s.win ++ bits) j) :
    scanBits n s =
      { s with
        cursor := s.cursor.advanced k, win := Config.marker, nobs := 16, cand := (s.cursor.advanced k).lastOffset - 15,
        candHeld := true, sum := 0#32, wcnt := 0, phase := .dRead } := by
  induction n generalizing s bits k with
  | zero => omega
  | succ n ih =>
    obtain ⟨b, bs, rfl⟩ : ∃ b bs, bits = b :: bs := by cases bits <;> simp at hl ⊢
    obtain ⟨hb1, h2⟩ := Cursor.upTo_cons _ _ _ _ hb
    rcases scanStep_cases s with ⟨h, _⟩ | ⟨b', hb', e⟩
    · rw [hb1] at h; cases h
    rw [hb1] at hb'
    cases hb'
    have hiff := atMarker_observeBit (setCursor (s.cursor.advanced 1) s) b bs
    rcases e with ⟨h, e⟩ | ⟨h, e⟩
    · obtain rfl : k = 1 := by
        by_contra hx
        exact hno 1 le_rfl (by omega) (hiff.1 h)
      have hstop : ∀ (m : Nat) (t : State), t.phase = .dRead → scanBits m t = t := by
        intro m t ht
        cases m <;> simp [scanBits, ht]
      rw [scanBits, if_pos hp, e, hstop _ _ (by simp)]
      obtain ⟨a1, a2⟩ := (atMarker_iff _).1 h
      rw [toBits_inj] at a2
      simp only [setPhase, beginCandidate]
      simp only [observeBit, setCursor] at a1 a2 ⊢
      simp only [a1]
      congr 1
    · obtain ⟨j, rfl⟩ : ∃ j, k = j + 1 := ⟨k - 1, by omega⟩
      have hj : 1 ≤ j := by
        rcases Nat.eq_zero_or_pos j with rfl | hj
        · rw [hiff.2 hc] at h; cases h
        · exact hj
      rw [scanBits, if_pos hp, e,
        ih j (setPhase .dScan (observeBit b (setCursor (s.cursor.advanced 1) s))) bs rfl h2 (by simpa using hl) hj (by omega)
        ((completes_observeBit (setCursor (s.cursor.advanced 1) s) b bs j hj).2 hc)
        fun i hi1 hi2 h => hno (i + 1) (by omega) (by omega) ((completes_observeBit (setCursor (s.cursor.advanced 1) s) b bs i hi1).1 h)]
      simp [Nat.add_comm, observeBit, setCursor, setPhase]

/-- A run is a run after a run. -/
theorem runSteps_add (m n : Nat) (s : State) : runSteps (m + n) s = andThen (runSteps m s) (runSteps n) := by
  induction m generalizing s with
  | zero => simp [runSteps]
  | succ m ih =>
    rw [Nat.succ_add, runSteps, runSteps]
    cases h : step s with
    | next t => simpa [andThen] using ih t
    | fault r => rfl
    | refused r => rfl

/-- A run of one step. -/
theorem runSteps_one (s : State) : runSteps 1 s = step s := by
  rw [runSteps]
  cases step s <;> rfl

end Sys2Proof.Machine
end

