-- ==== Sys2Proof/Tests/Slice0.lean ====
section
/-! SUPPORT. Tests: what the checks refuse, words written out from the encodings, single steps with the results of
spec/95_test_vectors.md, and for every obligation with hypotheses a state that meets them. -/

namespace Sys2Proof.Tests

set_option Elab.async false

open Sys2Proof.Machine

/-! ### Helpers -/

/-- A field of the next state, if there is one. -/
def field {α : Type} (f : State → α) (o : Answers State) : Option α :=
  match o with
  | .next t => some (f t)
  | .fault _ => none
  | .refused _ => none

/-- The reason of a refusal, if it is one. -/
def refusal {α : Type} (o : Answers α) : Option Refusal :=
  match o with
  | .next _ => none
  | .fault _ => none
  | .refused r => some r

/-- What a decoding gives, if anything. -/
def decoded (f : Format) (bs : List Byte) : Option Instr :=
  match decodeItem f bs with
  | .ok (i, _) => some i
  | .error _ => none

/-- The machine after reset, a capture attached. -/
def capture (bits : List Bool) (marks : List Nat) (pos : Nat) : State :=
  { State.reset with cursor := { Cursor.empty with bits := bits, marks := marks, pos := pos } }

/-- The same with a cursor of another kind. -/
def captureOf (k : CursorKind) (bits : List Bool) (marks : List Nat) (pos : Nat) : State :=
  { State.reset with cursor := { Cursor.empty with bits := bits, marks := marks, pos := pos, kind := k } }

/-- A phase of a command on that machine. -/
def inPhase (p : Phase) (s : State) : State := { s with phase := p }

/-- A store that holds `f i` at each of `n` addresses from `i` on. -/
def tabulate {α : Type} (f : Nat → α) : Nat → Nat → Memory α
  | _, 0 => []
  | i, n + 1 => (i, f i) :: tabulate f (i + 1) n

theorem read_tabulate {α : Type} (f : Nat → α) (i n a : Nat) (h1 : i ≤ a) (h2 : a < i + n) :
    (tabulate f i n).read a = some (f a) := by
  induction n generalizing i with
  | zero => omega
  | succ n ih =>
    by_cases h : i = a
    · simp [tabulate, Memory.read, h]
    · simpa [tabulate, Memory.read, h] using ih (i + 1) (by omega) (by omega)

theorem collect_tabulate (w : Word) (n : Nat) :
    collect (tabulate (fun _ => w) 0 n).read 0 n = some (List.replicate n w) := by
  rw [collect_eq_some]
  refine ⟨List.length_replicate, fun j h => ?_⟩
  rw [List.length_replicate] at h
  rw [read_tabulate _ 0 n _ (by omega) (by omega), List.getElem_replicate]

theorem staged_tabulate (w : Word) : stagedWords (tabulate (fun _ => w) 0 1536) = some (List.replicate 1536 w) :=
  collect_tabulate w 1536

/-- Block `A` of 95_test_vectors 2.1. -/
def blockA : List Word := 0x28F53CB9#32 :: List.replicate 1535 0#32

theorem length_blockA : blockA.length = 1536 := by
  rw [blockA, List.length_cons, List.length_replicate]

theorem sumWords_replicate_zero (n : Nat) : sumWords (List.replicate n 0#32) = 0#32 := by
  induction n with
  | zero => rfl
  | succ n ih => rw [List.replicate_succ', sumWords, List.foldl_append]; simpa [sumWords] using ih

theorem sumWords_cons (w : Word) (ws : List Word) : sumWords (w :: ws) = w + sumWords ws := by
  have h : ∀ (l : List Word) (a b : Word), l.foldl (· + ·) (a + b) = a + l.foldl (· + ·) b := by
    intro l
    induction l with
    | nil => intro a b; rfl
    | cons x l ih => intro a b; simp only [List.foldl_cons, BitVec.add_assoc, ih]
  simpa [sumWords] using h ws w 0#32

theorem sum_blockA : sumWords blockA = 0x28F53CB9#32 := by
  rw [blockA, sumWords_cons, sumWords_replicate_zero]; decide

/-- A block of zeros (V-S1). -/
def zeroBlock : List Word := List.replicate 1536 0#32

theorem length_zeroBlock : zeroBlock.length = 1536 := List.length_replicate

theorem sum_zeroBlock : sumWords zeroBlock ≠ 0x28F53CB9#32 := by
  rw [zeroBlock, sumWords_replicate_zero]; decide

/-- A populated descriptor and block, as P1 of 95_test_vectors leaves them. -/
def populated (ws : List Word) : State :=
  { State.reset with
    desc := { Desc.created with dataBitoff := 37, totalBits := 100000, valid := true, own := true }
    blk := Memory.writeWords [] 0 ws }

theorem ready_populated (ws : List Word) (h : ws.length = 1536) : (populated ws).readyToEncode ws :=
  ⟨rfl, rfl, rfl, rfl, blkWords_writeWords [] ws h⟩

theorem ready_capture (bits : List Bool) (marks : List Nat) (pos : Nat) : (capture bits marks pos).readyToDecode :=
  ⟨rfl, rfl, rfl, rfl⟩

theorem frame_starts (c : Codec) (ws : List Word) : firstMarkerAt (frameOf c ws) 0 :=
  ⟨by rw [List.drop_zero, frameOf, List.take_append_of_le_length (by simp)]; decide,
    fun q h => absurd h (Nat.not_lt_zero q)⟩

/-! ### Well-formedness -/

/-- The one check refuses a literal emission of 256 bits and admits one of 255. -/
theorem test_emitLit_of_256_bits_is_ill_formed :
    (Instr.emitLit 256 0#256 0#32).wf = false ∧ (Instr.emitLit 255 0#255 0#32).wf = true := by decide

/-- What an ill-formed term's bytes decode to is not that term: its count byte wraps (256 reads as 0). -/
theorem test_ill_formed_term_does_not_survive : decoded .req (encodeItem (.emitLit 256 0#256 0#32)) = some (.emitLit 0 0#0 0#32) := by
  decide

/-! ### Decoding: words written out from the encodings (opcode_table; R90, R96, R97, R100, R101) -/

theorem test_decode_DECODE : decoded .cmd [0b0#8] = some .decode := by decide
theorem test_decode_ENCODE : decoded .cmd [0b1#8] = some .encode := by decide
theorem test_decode_MARK : decoded .frame16 [0b01101100#8, 0b10110001#8] = some .mark := by decide
theorem test_decode_GRP : decoded .frame64 [0x14#8, 0x52#8, 0x94#8, 0x54#8, 0xAA#8, 0x55#8, 0x14#8, 0x91#8] =
    some (.grp 0x14529454AA551491#64) := by decide
theorem test_decode_ACCEPT_D : decoded .step [0b0000#8] = some .acceptD := by decide
theorem test_decode_ACCEPT_E : decoded .step [0b0001#8] = some .acceptE := by decide
theorem test_decode_D_SCAN : decoded .step [0b0010#8] = some .dScan := by decide
theorem test_decode_D_READ : decoded .step [0b0100#8] = some .dRead := by decide
theorem test_decode_D_CHECK : decoded .step [0b0110#8] = some .dCheck := by decide
theorem test_decode_D_INDEX : decoded .step [0b1000#8] = some .dIndex := by decide
theorem test_decode_D_COMMIT : decoded .step [0b1010#8] = some .dCommit := by decide
theorem test_decode_E_MARK : decoded .step [0b1101#8] = some .eMark := by decide
theorem test_decode_E_WORD : decoded .step [0b1111#8] = some .eWord := by decide
theorem test_decode_NEXT_BIT : decoded .req [0b000#8] = some .nextBit := by decide
theorem test_decode_NEXT_BYTES : decoded .req [0b001#8] = some .nextBytes := by decide
theorem test_decode_OFFSET : decoded .req [0b010#8] = some .offset := by decide
theorem test_decode_SEEK_INDEX : decoded .req [0b011#8] = some .seekIndex := by decide
theorem test_decode_DEMOD : decoded .req [0b100#8, 0x01#8, 0x23#8, 0x45#8, 0x67#8, 0x89#8, 0xAB#8, 0xCD#8, 0xEF#8] =
    some (.demod 0x0123456789ABCDEF#64) := by decide
theorem test_decode_MOD : decoded .req [0b101#8, 1#8, 0x12#8, 0x34#8, 0x56#8, 0x78#8] = some (.mod true 0x12345678#32) := by
  decide
theorem test_decode_EMIT_LIT :
    decoded .req (0b110#8 :: 16#8 :: List.replicate 30 0#8 ++ [0x6C#8, 0xB1#8, 0#8, 0#8, 0#8, 7#8]) =
      some (.emitLit 16 0x6CB1#16 7#32) := by decide
theorem test_decode_EMIT_MOD : decoded .req [0b111#8, 0x28#8, 0xF5#8, 0x3C#8, 0xB9#8, 0#8, 0#8, 0#8, 7#8] =
    some (.emitMod 0x28F53CB9#32 7#32) := by decide

/-- R101, R102, R96, R100: strings that do not occur are refused by name. -/
theorem test_decode_refuses :
    decoded .step [0b0011#8] = none ∧ decoded .step [0b1110#8] = none ∧ decoded .cmd [2#8] = none ∧
      decoded .frame16 [0x6C#8, 0xB0#8] = none ∧ decoded .req [8#8] = none ∧ decoded .frame64 [0#8] = none ∧
      decoded .req [0b101#8, 2#8, 0#8, 0#8, 0#8, 0#8] = none := by decide

/-- The table's words, read by the host's function: the first format that reads a one-byte word (log 2). -/
theorem test_table_words :
    decodeTableWord 8 0 = some .decode ∧ decodeTableWord 8 1 = some .encode ∧ decodeTableWord 8 2 = some .dScan ∧
      decodeTableWord 8 15 = some .eWord ∧ decodeTableWord 8 3 = some .seekIndex ∧
      decodeTableWord 8 5 = some (.mod false 0#32) ∧ decodeTableWord 8 7 = some (.emitMod 0#32 0#32) ∧
      decodeTableWord 16 0x6CB1 = some .mark ∧ decodeTableWord 16 0x6CB0 = none ∧
      decodeTableWord 64 0x14529454AA551491 = some (.grp 0x14529454AA551491#64) := by decide

/-! ### Single steps, with results from 95_test_vectors -/

/-- V-X1 and V-W4: an empty capture; a marker alone. -/
theorem test_decode_not_found : field State.res (exec .decode (capture [] [0] 0)) = some .notFound := by decide
theorem test_decode_truncated :
    field (fun t => (t.res, t.cand, t.cursor.pos)) (exec .decode (capture (toBits 0x6CB1#16) [0] 0)) =
      some (.truncated, 0, 16) := by decide

/-- V-R4, and P3 by the law of the word loop. -/
theorem test_encode_no_block : refusal (exec .encode State.reset) = some .noBlock := by decide

theorem exec_encode_populated (ws : List Word) (h : ws.length = 1536) :
    exec .encode (populated ws) = .next
      { populated ws with
        op := .encode, res := .ok, wcnt := 1536,
        sink := .lit 16 0x6CB1#16 Config.rate :: ws.map fun w => .modw w Config.rate } := by
  have hr : encodeRefusal (populated ws) = none := rfl
  have hl := encodeBody_next ws 0 (emitMarker (beginEncode (populated ws))) fun j hj => by
    have := blkWord_of_blkWords (populated ws) ws rfl (ready_populated ws h).2.2.2.2 j hj
    rw [Nat.zero_add]
    exact this
  rw [h] at hl
  simp only [exec, execEncode, encodeWhole, hr]
  exact hl

/-- The marker field: recognised where the framer scans; put out where it emits. -/
theorem test_mark_scanned :
    field (fun t => (t.phase, t.cand, t.cursor.pos))
      (exec .mark (inPhase .dScan (capture (true :: toBits 0x6CB1#16) [0] 1))) = some (.dRead, 1, 17) := by decide +kernel
theorem test_mark_not_here :
    refusal (exec .mark (inPhase .dScan (capture (toBits 0x6CB0#16) [0] 0))) = some .fieldNotHere := by decide

/-- P1, its first group. -/
theorem test_grp_read :
    field (fun t => (t.sum, t.win, t.wcnt, t.wbuf))
      (exec (.grp 0x14529454AA551491#64) (inPhase .dRead (capture (toBits 0x14529454AA551491#64) [0] 0))) =
      some (0x28F53CB9#32, 0x1491#16, 1, [(0, 0x28F53CB9#32)]) := by decide +kernel
theorem test_grp_not_here :
    refusal (exec (.grp 0#64) (inPhase .dRead (capture (toBits 1#64) [0] 0))) = some .fieldNotHere := by decide

/-- V-R1, V-R3; R46. -/
theorem test_acceptD_bad_length :
    refusal (exec .acceptD { State.reset with desc := { Desc.created with len := 512 } }) = some .badLength ∧
      refusal (exec .acceptD { State.reset with desc := { Desc.created with own := true } }) = some .alreadyPopulated := by
  decide
theorem test_acceptD_clears_the_window :
    field (fun t => (t.phase, t.win, t.nobs, t.wcnt)) (exec .acceptD { State.reset with win := 0x2D96#16, nobs := 14, wcnt := 3 }) =
      some (.dScan, 0#16, 0, 0) := by decide

theorem test_acceptE_no_block : refusal (exec .acceptE State.reset) = some .noBlock := by decide
theorem test_acceptE_accepted :
    field (fun t => (t.phase, t.op, t.wcnt))
      (exec .acceptE { State.reset with desc := { Desc.created with own := true }, wcnt := 9 }) = some (.eMark, .encode, 0) := by
  decide

/-- V-W1, bit 16; V-W3: fifteen bits never match. -/
theorem test_dScan_matches :
    field (fun t => (t.phase, t.win, t.nobs, t.cand))
      (exec .dScan { inPhase .dScan (capture (true :: toBits 0x6CB1#16) [0] 16) with win := 0xB658#16, nobs := 16 }) =
      some (.dRead, 0x6CB1#16, 16, 1) := by decide
theorem test_dScan_needs_sixteen_bits :
    field (fun t => (t.phase, t.win, t.nobs))
      (exec .dScan { inPhase .dScan (capture (toBits 0x6CB1#16) [0] 15) with win := 0x3658#16, nobs := 14 }) =
      some (.dScan, 0x6CB1#16, 15) := by decide

/-- V-S2's last addition drops the carry; V-X6: one bit short. -/
theorem test_dRead_last_word :
    field (fun t => (t.phase, t.sum, t.wcnt, t.win))
      (exec .dRead
        { inPhase .dRead (capture (toBits 0x1452A954AA554A92#64) [0] 0) with sum := 0xFFFFFA01#32, wcnt := 1535 }) =
      some (.dCheck, 0x28F53CB9#32, 1536, 0x4A92#16) := by decide +kernel
theorem test_dRead_one_bit_short :
    field (fun t => (t.phase, t.res, t.cursor.pos, t.wcnt))
      (exec .dRead { inPhase .dRead (capture (List.replicate 63 false) [0] 0) with wcnt := 1535 }) =
      some (.idle, .truncated, 63, 1535) := by decide

/-- V-S3, V-S4. -/
theorem test_dCheck_accepts :
    field State.phase (exec .dCheck { State.reset with phase := .dCheck, sum := 0x28F53CB9#32 }) = some .dIndex := by decide
theorem test_dCheck_rejects :
    field (fun t => (t.phase, t.res)) (exec .dCheck { State.reset with phase := .dCheck, sum := 0x28F53CBA#32 }) =
      some (.dScan, .none) := by decide

/-- V-O1, V-O3, with the marks alone. -/
theorem test_dIndex_plain :
    field (fun t => (t.tot, t.cursor.pos, t.phase)) (exec .dIndex (capture [] [0, 100000] 98357)) =
      some (100000, 100000, .dCommit) := by decide
theorem test_dIndex_mark_between : field State.tot (exec .dIndex (capture [] [0, 50, 100000] 98357)) = some 99950 := by decide

/-- R43; and a commit of 1536 equal words. -/
theorem test_dCommit_unwritten : refusal (exec .dCommit State.reset) = some .unwrittenRead := by decide

/-- A machine that has come to the commit step with `n` words staged, all `w` (the gate is not the commit step's). -/
def staged (w : Word) (n : Nat) : State :=
  { State.reset with
    phase := .dCommit, cand := -13, candHeld := true, tot := 99950, totHeld := true,
    wbuf := tabulate (fun _ => w) 0 n }

theorem exec_dCommit_staged (s : State) (ws : List Word) (h1 : s.candHeld = true) (h2 : s.totHeld = true)
    (h3 : stagedWords s.wbuf = some ws) : exec .dCommit s = .next (succeed (populate ws s)) :=
  (commitStep_next s _).2 ⟨h1, h2, ws, h3, rfl⟩

theorem test_dCommit_completes :
    exec .dCommit (staged 7#32 1536) = .next (succeed (populate (List.replicate 1536 7#32) (staged 7#32 1536))) :=
  exec_dCommit_staged _ _ rfl rfl (staged_tabulate 7#32)

theorem test_eMark_emits :
    exec .eMark { State.reset with phase := .eMark, wcnt := 5 } =
      .next { State.reset with phase := .eWord, wcnt := 0, sink := [.lit 16 0x6CB1#16 Config.rate] } := rfl

/-- The first and the last word: big-endian, and the end of the command. -/
theorem test_eWord_first :
    exec .eWord
        { State.reset with
          phase := .eWord, desc := { Desc.created with own := true },
          blk := [(0, 0x28#8), (1, 0xF5#8), (2, 0x3C#8), (3, 0xB9#8)] } =
      .next
        { State.reset with
          phase := .eWord, desc := { Desc.created with own := true },
          blk := [(0, 0x28#8), (1, 0xF5#8), (2, 0x3C#8), (3, 0xB9#8)], wcnt := 1,
          sink := [.modw 0x28F53CB9#32 Config.rate] } := rfl
theorem test_eWord_last :
    field (fun t => (t.phase, t.res, t.wcnt))
      (exec .eWord
        { State.reset with
          phase := .eWord, desc := { Desc.created with own := true }, wcnt := 1535,
          blk := [(6140, 0x28#8), (6141, 0xE3#8), (6142, 0x45#8), (6143, 0xB8#8)] }) = some (.idle, .ok, 1536) := by decide

/-- 95_test_vectors 2.9. -/
theorem test_nextBit :
    field (fun t => (t.ans, t.cursor.pos)) (exec .nextBit (capture [true, false, true, true] [0, 2] 0)) =
      some (.bit true, 1) := by decide
theorem test_nextBytes_exhausts :
    field (fun t => (t.ans, t.cursor.pos)) (exec .nextBytes (capture [true, false, true, true] [0, 2] 3)) =
      some (.exh, 4) := by decide
theorem test_offset_restarts_at_a_mark :
    field State.ans (exec .offset (capture [true, false, true, true] [0, 2] 3)) = some (.offset 0) ∧
      field State.ans (exec .offset (capture [true, false, true, true] [0, 2] 2)) = some (.offset 1) := by decide
theorem test_offset_before_any_bit :
    refusal (exec .offset (capture [true, false, true, true] [0, 2] 0)) = some .offsetBeforeBit := by decide
theorem test_seekIndex :
    field (fun t => (t.ans, t.cursor.pos)) (exec .seekIndex (capture [true, false, true, true] [0, 2] 1)) =
      some (.length 2, 2) := by decide
theorem test_seekIndex_to_the_end :
    field (fun t => (t.cursor.pos, t.draws)) (exec .seekIndex (capture [true, false, true, true] [0, 2] 3)) =
      some (4, 1) := by decide

/-- R70: a second seek gives the next data; R176: the reference stream stays at its mark. -/
theorem test_second_seek :
    field (fun t => (t.ans, t.cursor.pos))
        (andThen (exec .seekIndex (captureOf .consuming (List.replicate 9 false) [0, 2, 7] 1)) (exec .seekIndex)) =
      some (.length 5, 7) ∧
    field (fun t => (t.ans, t.cursor.pos))
        (andThen (exec .seekIndex (capture (List.replicate 9 false) [0, 2, 7] 1)) (exec .seekIndex)) =
      some (.length 2, 2) := by decide

/-- A revolution of three bits, again and again: bits, offsets and revolution lengths. -/
theorem test_revolving :
    field (fun t => (t.ans, t.cursor.pos)) (exec .nextBit (captureOf .revolving [true, false, false] [] 6)) =
      some (.bit true, 7) ∧
    field State.ans (exec .offset (captureOf .revolving [true, false, false] [] 8)) = some (.offset 1) ∧
    field (fun t => (t.ans, t.cursor.pos)) (exec .seekIndex (captureOf .revolving [true, false, false] [] 7)) =
      some (.length 3, 9) := by decide

/-- 95_test_vectors 2.4. -/
theorem test_demod :
    field State.ans (exec (.demod 0x0123456789ABCDEF#64) State.reset) = some (.word 0x0303CFCF#32) ∧
      field State.ans (exec (.demod 0xBEFBBEFEFFFFBEBB#64) State.reset) = some (.word 0x7DF73CB9#32) := by decide
theorem test_mod :
    field State.ans (exec (.mod true 0x12345678#32) State.reset) = some (.group 0x2912A91492945452#64) ∧
      field State.ans (exec (.mod false 0x28F53CB9#32) State.reset) = some (.group 0x94529454AA551491#64) := by decide +kernel

theorem test_emitLit_bits :
    field State.sinkBits (exec (.emitLit 16 0x6CB1#16 7#32) State.reset) = some (toBits 0x6CB1#16) := by decide
/-- V-F1: the first group follows the marker's last bit, which is 1. -/
theorem test_emitMod_after_the_marker :
    field (fun t => t.sinkBits.drop 16)
      (exec (.emitMod 0x28F53CB9#32 7#32) { State.reset with sink := [.lit 16 0x6CB1#16 7#32] }) =
      some (toBits 0x14529454AA551491#64) := by decide +kernel

/-- The reference walk-through of 95_test_vectors part 4: its two groups. -/
theorem test_reference_groups :
    refMod true 0x28F53CB0#32 = 0x14529452AA551492#64 ∧ refMod false 0x00000009#32 = 0xAAAAAAA4AAAAAAA9#64 := by decide

/-! ### Bits for the witnesses -/

/-- A run of zero bits. -/
def zeros (n : Nat) : List Bool := List.replicate n false

theorem length_zeros (n : Nat) : (zeros n).length = n := List.length_replicate

theorem drop_zeros (n k : Nat) : (zeros n).drop k = zeros (n - k) := List.drop_replicate

theorem zeros_hold_no_marker (n : Nat) : noMarkerIn (zeros n) := by
  intro q h
  have ht : true ∈ ((zeros n).drop q).take 16 := by rw [h]; decide
  exact absurd (List.eq_of_mem_replicate (List.mem_of_mem_drop (List.mem_of_mem_take ht))) (by decide)

theorem frame_eq (c : Codec) (ws : List Word) : ∃ r, frameOf c ws = toBits 0x6CB1#16 ++ r := ⟨_, rfl⟩

/-- A frame after fifteen zero bits. -/
theorem marker_after_fifteen_zeros (c : Codec) (ws : List Word) : firstMarkerAt (zeros 15 ++ frameOf c ws) 15 := by
  obtain ⟨r, hr⟩ := frame_eq c ws
  have h : ∀ q ≤ 15, ((zeros 15 ++ frameOf c ws).drop q).take 16 = ((zeros 15 ++ toBits 0x6CB1#16).drop q).take 16 := by
    intro q hq
    have hl : (zeros 15 ++ toBits 0x6CB1#16).length = 31 := by decide
    rw [hr, ← List.append_assoc, List.drop_append_of_le_length (by omega), List.take_append_of_le_length]
    rw [List.length_drop]
    omega
  refine ⟨by rw [h 15 le_rfl]; decide, fun q hq => ?_⟩
  rw [h q hq.le]
  revert q
  decide

theorem words_of_zeros (r : List Bool) : bodyWords Codec.reference (zeros 98304 ++ r) = List.replicate 1536 0#32 := by
  have h : ∀ i ∈ List.range Config.nwords,
      Codec.reference.demod (ofBits 64 (((zeros 98304 ++ r).drop (64 * i)).take 64)) = 0#32 := by
    intro i hi
    have hi : i < 1536 := List.mem_range.1 hi
    have hz : ((zeros 98304 ++ r).drop (64 * i)).take 64 = zeros 64 := by
      rw [List.drop_append_of_le_length (by rw [length_zeros]; omega), drop_zeros,
        List.take_append_of_le_length (by rw [length_zeros]; omega), zeros, List.take_replicate,
        Nat.min_eq_left (by omega), zeros]
    rw [hz]
    decide +kernel
  rw [bodyWords, List.map_congr_left h, List.map_const', List.length_range]

/-! ### Witnesses: a state and operands that meet the hypotheses of each obligation -/

/-- A command presented to the machine after reset. -/
def presenting (code : Byte) : State := { State.reset with cmd := some code }

/-- A command presented, a capture attached. -/
def presentingOn (code : Byte) (bits : List Bool) : State := { capture bits [] 0 with cmd := some code }

/-- An item issued to the machine after reset. -/
def issuing (f : Format) (bs : List Byte) : State := { State.reset with issue := some ⟨f, bs⟩ }

theorem witness_StepRunsTheDecodedInstruction :
    ((inPhase .dScan State.reset).issue = none ∧ (inPhase .dScan State.reset).cmd = none ∧
      (inPhase .dScan State.reset).phase ≠ .idle ∧
      decodeItem .step (inPhase .dScan State.reset).phase.selector.bytes = .ok (.dScan, []) ∧ Instr.dScan.wf = true) ∧
    ((presenting 0#8).presented 0#8 ∧ (presenting 0#8).phase = .idle ∧ decodeItem .cmd [0#8] = .ok (.decode, [])) ∧
    ((presenting 1#8).presented 1#8 ∧ (presenting 1#8).phase = .idle ∧ decodeItem .cmd [1#8] = .ok (.encode, [])) ∧
    ((issuing .req [0#8]).issue = some ⟨.req, [0#8]⟩ ∧ Format.req ≠ .step ∧ (issuing .req [0#8]).phase = .idle ∧
      decodeItem .req [0#8] = .ok (.nextBit, []) ∧ Instr.nextBit.wf = true) :=
  ⟨⟨rfl, rfl, by decide, rfl, rfl⟩, ⟨⟨rfl, rfl⟩, rfl, rfl⟩, ⟨⟨rfl, rfl⟩, rfl, rfl⟩, rfl, by decide, rfl, rfl, rfl⟩

theorem witness_PhaseSelectsItsStepRule :
    (∀ p : Phase, (inPhase p State.reset).issue = none ∧ (inPhase p State.reset).cmd = none ∧
      (inPhase p State.reset).phase = p) ∧
    (presenting 0#8).issue = none ∧ (presenting 0#8).phase = .idle ∧ (presenting 0#8).cmd = some 0#8 ∧
    (presenting 1#8).issue = none ∧ (presenting 1#8).phase = .idle ∧ (presenting 1#8).cmd = some 1#8 :=
  ⟨fun _ => ⟨rfl, rfl, rfl⟩, rfl, rfl, rfl, rfl, rfl, rfl⟩

theorem witness_UnknownAndBusyCommandsAreRefused :
    ((presenting 2#8).presented 2#8 ∧ (presenting 2#8).phase = .idle ∧ 2 ≤ (2#8).toNat) ∧
    ((presenting 255#8).presented 255#8 ∧ (presenting 255#8).phase = .idle ∧ 2 ≤ (255#8).toNat) ∧
    ((inPhase .eWord (presenting 0#8)).presented 0#8 ∧ (inPhase .eWord (presenting 0#8)).phase ≠ .idle) :=
  ⟨⟨⟨rfl, rfl⟩, rfl, by decide⟩, ⟨⟨rfl, rfl⟩, rfl, by decide⟩, ⟨rfl, rfl⟩, by decide⟩

theorem witness_IssuePortKeepsOutStepsAndSharedAccess :
    (issuing .step [2#8]).issue = some ⟨.step, [2#8]⟩ ∧
    ((inPhase .dScan (issuing .req [0#8])).issue = some ⟨.req, [0#8]⟩ ∧
      (inPhase .dScan (issuing .req [0#8])).phase ≠ .idle) ∧
    ((issuing .cmd [2#8]).issue = some ⟨.cmd, [2#8]⟩ ∧ decodeItem .cmd [2#8] = .error .unknownCommand) :=
  ⟨rfl, ⟨rfl, by decide⟩, rfl, rfl⟩

theorem witness_DecodeOfEncodeIsTheInstruction :
    (Instr.emitLit 255 (BitVec.allOnes 255) 7#32).wf = true ∧ (Instr.emitLit 0 0#0 0#32).wf = true := by decide

theorem witness_EncodeOfDecodeIsTheBytes : decodeItem .req [5#8, 1#8, 0#8, 0#8, 0#8, 9#8, 4#8] = .ok (.mod true 9#32, [4#8]) :=
  rfl

theorem witness_AcceptDStartsAnInvocation :
    State.reset.phase = .idle ∧ State.reset.readyToDecode ∧
    (populated blockA).phase = .idle ∧ (populated blockA).desc.len = 6144 ∧ (populated blockA).desc.nsec = 1 ∧
    (populated blockA).desc.own = true ∧ ({ Desc.created with nsec := 2 } : Desc).nsec ≠ 1 ∧
    ({ Desc.created with len := 6143 } : Desc).len ≠ 6144 :=
  ⟨rfl, ⟨rfl, rfl, rfl, rfl⟩, rfl, rfl, rfl, rfl, by decide, by decide⟩

/-- The last bit of a marker, one before, and the end of the capture. -/
theorem witness_DScanPullsOneBit :
    (let s := { capture (toBits 0x6CB1#16) [] 15 with win := 0x3658#16, nobs := 15 }
     s.cursor.bitAt s.cursor.pos = some true ∧ 16 ≤ s.nobs + 1 ∧ s.win.extractLsb' 0 15 ++ BitVec.ofBool true = 0x6CB1#16) ∧
    (let s := { capture (toBits 0x6CB1#16) [] 15 with win := 0x3658#16, nobs := 14 }
     s.cursor.bitAt s.cursor.pos = some true ∧ ¬16 ≤ s.nobs + 1) ∧
    (capture (toBits 0x6CB1#16) [] 16).cursor.bitAt (capture (toBits 0x6CB1#16) [] 16).cursor.pos = none := by
  decide

/-- Exactly 64 bits left, before the last word and before one that is not; 63 bits left; none. -/
theorem witness_DReadTakesOneGroup :
    ((0 < 1536 ∧ 1535 < 1536) ∧
      ∀ i < 64, (capture (zeros 64) [] 0).cursor.bitAt ((capture (zeros 64) [] 0).cursor.pos + i) = some ((0#64).getMsbD i)) ∧
    ((∀ i < 63, (capture (zeros 64) [] 1).cursor.bitAt ((capture (zeros 64) [] 1).cursor.pos + i) ≠ none) ∧
      (capture (zeros 64) [] 1).cursor.bitAt ((capture (zeros 64) [] 1).cursor.pos + 63) = none) ∧
    (capture [] [] 0).cursor.bitAt ((capture [] [] 0).cursor.pos + 0) = none := by decide +kernel

theorem witness_DReadStagesTheWordAlone :
    (capture (zeros 64) [] 0).wcnt < 1536 ∧ (capture (zeros 64) [] 0).cursor.upTo 64 = toBits 0#64 ∧
      (capture (zeros 64) [] 0).wbuf.wf ∧ (0 : Nat) ≠ 1 := by decide +kernel

theorem witness_DCheckComparesTheSum :
    ({ State.reset with sum := 0x28F53CB9#32 } : State).sum = 0x28F53CB9#32 ∧
    ({ State.reset with sum := 0x28F53CBA#32 } : State).sum ≠ 0x28F53CB9#32 := by decide

/-- A mark at the very place, one before it, none; no bit delivered; no further mark. -/
theorem witness_DIndexRecordsTheRevolution :
    (1 ≤ (capture (zeros 4) [0, 2] 2).cursor.pos ∧ isNextMark [0, 2] 2 2 ∧ isBase [0, 2] 2 0) ∧
    (1 ≤ (capture (zeros 4) [2, 4] 1).cursor.pos ∧ isNextMark [2, 4] 1 2 ∧ isBase [2, 4] 1 0) ∧
    ((capture (zeros 4) [0, 2] 0).cursor.pos = 0 ∧ isNextMark [0, 2] 0 0) ∧
    ((∀ m ∈ (capture (zeros 4) [0, 2] 3).cursor.marks, m < (capture (zeros 4) [0, 2] 3).cursor.pos) ∧
      (capture (zeros 4) [0, 2] 3).cursor.pos ≤ (capture (zeros 4) [0, 2] 3).cursor.bits.length) := by
  simp only [isNextMark, isBase]
  decide +kernel

theorem witness_DCommitPopulatesBlockAndDescriptor :
    (staged 0#32 1536).candHeld = true ∧ (staged 0#32 1536).totHeld = true ∧
      ∀ i < 1536, (staged 0#32 1536).wbuf.read i = some 0#32 :=
  ⟨rfl, rfl, fun i hi => read_tabulate (fun _ => 0#32) 0 1536 i (by omega) (by omega)⟩

theorem witness_UnwrittenStateIsNotRead :
    (State.reset.candHeld = false ∧ ∃ i < 1536, State.reset.wbuf.read i = none) ∧ State.reset.desc.own = false ∧
    (let s := { State.reset with desc := { Desc.created with own := true }, wcnt := 1535, blk := [(6140, 0#8), (6141, 0#8), (6142, 0#8)] }
     s.desc.own = true ∧ s.wcnt < 1536 ∧ 3 < 4 ∧ s.blk.read (4 * s.wcnt + 3) = none) :=
  ⟨⟨rfl, 1535, by decide, rfl⟩, rfl, rfl, by decide, by decide, rfl⟩

/-- The machine with a DECODE presented meets the invariant. -/
theorem inv_presenting : (presenting 0#8).Inv := by
  constructor <;>
    simp [presenting, State.reset, Phase.impliedOp, Phase.hasCandidate, Cursor.empty, Desc.created, Memory.wf]

theorem witness_NonexistentAddressesFault :
    (let s := { capture (zeros 64) [] 0 with wcnt := 1536 }
     1536 ≤ s.wcnt ∧ s.cursor.upTo 64 = toBits (0#64 : Group)) ∧
    (let s := { State.reset with desc := { Desc.created with own := true }, wcnt := 1536 }
     s.desc.own = true ∧ 1536 ≤ s.wcnt) ∧
    (presenting 0#8).Inv :=
  ⟨by decide +kernel, ⟨rfl, by decide⟩, inv_presenting⟩

theorem witness_AcceptEStartsAnInvocation :
    (State.reset.phase = .idle ∧ State.reset.desc.len = 6144 ∧ State.reset.desc.nsec = 1 ∧ State.reset.desc.own = false) ∧
    ((populated blockA).phase = .idle ∧ (populated blockA).desc.len = 6144 ∧ (populated blockA).desc.nsec = 1 ∧
      (populated blockA).desc.own = true) ∧
    ({ Desc.created with nsec := 0 } : Desc).nsec ≠ 1 :=
  ⟨⟨rfl, rfl, rfl, rfl⟩, ⟨rfl, rfl, rfl, rfl⟩, by decide⟩

/-- The first word and the last. -/
theorem witness_EWordEmitsOneWord :
    (let s := { State.reset with desc := { Desc.created with own := true }, blk := [(0, 1#8), (1, 2#8), (2, 3#8), (3, 4#8)] }
     s.desc.own = true ∧ s.wcnt < 1536 ∧ s.blk.read (4 * s.wcnt) = some 1#8 ∧ s.blk.read (4 * s.wcnt + 1) = some 2#8 ∧
      s.blk.read (4 * s.wcnt + 2) = some 3#8 ∧ s.blk.read (4 * s.wcnt + 3) = some 4#8 ∧ s.wcnt + 1 ≠ 1536) ∧
    (let s := { State.reset with
                desc := { Desc.created with own := true }, wcnt := 1535,
                blk := [(6140, 1#8), (6141, 2#8), (6142, 3#8), (6143, 4#8)] }
     s.desc.own = true ∧ s.wcnt < 1536 ∧ s.blk.read (4 * s.wcnt) = some 1#8 ∧ s.blk.read (4 * s.wcnt + 1) = some 2#8 ∧
      s.blk.read (4 * s.wcnt + 2) = some 3#8 ∧ s.blk.read (4 * s.wcnt + 3) = some 4#8 ∧ s.wcnt + 1 = 1536) := by
  decide +kernel

theorem witness_NextBitDeliversTheNextBit :
    (capture [true] [] 0).cursor.bitAt (capture [true] [] 0).cursor.pos = some true ∧
    (capture [true] [] 1).cursor.bitAt (capture [true] [] 1).cursor.pos = none ∧
    (capture [true] [] 0).cursor.captured ∧ (captureOf .consuming [true] [] 0).cursor.captured ∧
    (captureOf .revolving [true] [] 1).cursor.kind = .revolving :=
  ⟨rfl, rfl, .inl rfl, .inr rfl, rfl⟩

theorem witness_NextBytesDeliversSixtyFourBits :
    (∀ i < 64, (capture (zeros 64) [] 0).cursor.bitAt ((capture (zeros 64) [] 0).cursor.pos + i) ≠ none) ∧
    ((∀ i < 63, (capture (zeros 64) [] 1).cursor.bitAt ((capture (zeros 64) [] 1).cursor.pos + i) ≠ none) ∧
      (capture (zeros 64) [] 1).cursor.bitAt ((capture (zeros 64) [] 1).cursor.pos + 63) = none) := by decide +kernel

theorem witness_OffsetReportsTheLastBit :
    (capture [true] [0] 0).cursor.pos = 0 ∧
    (1 ≤ (capture (zeros 4) [0, 2] 3).cursor.pos ∧ (capture (zeros 4) [0, 2] 3).cursor.kind = .reference ∧
      (capture (zeros 4) [0, 2] 3).cursor.origin = .indexMark ∧
      isBase (capture (zeros 4) [0, 2] 3).cursor.marks (capture (zeros 4) [0, 2] 3).cursor.pos 2) ∧
    isBase (capture [true] [2] 1).cursor.marks (capture [true] [2] 1).cursor.pos 0 ∧
    (let c : Cursor := { Cursor.empty with bits := [true], pos := 1, origin := .other 3 }
     c.kind = .reference ∧ c.origin = .other 3) := by
  simp only [isBase]
  decide +kernel

theorem witness_SeekIndexRunsToTheNextMark :
    (1 ≤ (capture (zeros 4) [0, 2] 1).cursor.pos ∧
      isNextMark (capture (zeros 4) [0, 2] 1).cursor.marks (capture (zeros 4) [0, 2] 1).cursor.pos 2 ∧
      isBase (capture (zeros 4) [0, 2] 1).cursor.marks (capture (zeros 4) [0, 2] 1).cursor.pos 0) ∧
    ((capture (zeros 4) [3] 0).cursor.pos = 0 ∧ isNextMark (capture (zeros 4) [3] 0).cursor.marks 0 3) ∧
    ((∀ m ∈ (capture (zeros 4) [0, 2] 4).cursor.marks, m < (capture (zeros 4) [0, 2] 4).cursor.pos) ∧
      (capture (zeros 4) [0, 2] 4).cursor.pos ≤ (capture (zeros 4) [0, 2] 4).cursor.bits.length) := by
  simp only [isNextMark, isBase]
  decide +kernel

/-- A further mark behind the one the seek runs to; none. -/
theorem witness_SecondSeekGoesToTheNextMark :
    (let c := (captureOf .consuming (zeros 9) [0, 2, 7] 1).cursor
     c.kind = .consuming ∧ 1 ≤ c.pos ∧ c.memo ≤ c.pos ∧ isNextMark c.marks c.pos 2 ∧ isBase c.marks c.pos 0 ∧
      isNextMark c.marks (2 + 1) 7) ∧
    (let c := (captureOf .consuming (zeros 2) [0, 2] 2).cursor
     c.kind = .consuming ∧ 1 ≤ c.pos ∧ c.memo ≤ c.pos ∧ isNextMark c.marks c.pos 2 ∧ isBase c.marks c.pos 0 ∧
      (∀ m' ∈ c.marks, m' ≤ 2) ∧ 2 ≤ c.bits.length) := by
  simp only [isNextMark, isBase]
  decide +kernel

theorem witness_OpenCursorAnswersForItself :
    (captureOf (.other 4) [] [] 1).cursor.kind = .other 4 ∧ 1 ≤ (captureOf (.other 4) [] [] 1).cursor.pos := by decide

/-- Three bits a turn, in its third; a mark inside the turn. -/
theorem witness_RevolvingStreamHasItsMarksInEveryTurn :
    let c := (captureOf .revolving [true, false, false] [2] 7).cursor
    let isMark := fun m => m % c.bits.length = 0 ∨ m % c.bits.length ∈ c.marks
    c.kind = .revolving ∧ c.bits ≠ [] ∧ (∀ m ∈ c.marks, m ≤ c.bits.length) ∧ 1 ≤ c.pos ∧ c.origin = .indexMark ∧
      6 < c.pos ∧ isMark 6 ∧ (∀ m, 6 < m → m < c.pos → ¬isMark m) ∧ c.memo ≤ c.pos + 1 ∧ 7 = max c.pos c.memo ∧
      6 < 7 ∧ 7 ≤ 8 ∧ isMark 8 ∧ ∀ n, 6 < n → n < 8 → ¬isMark n := by
  refine ⟨rfl, by decide, by decide, by decide, rfl, by decide, by decide, ?_, by decide, rfl, by decide, by decide,
    by decide, ?_⟩
  · intro m h1 h2
    change m < 7 at h2
    omega
  · intro n h1 h2
    obtain rfl : n = 7 := by omega
    decide

theorem witness_ReferenceCodecLayout : State.reset.codec = .reference := rfl

/-- A marker after a window that does not end in its first 14 bits, and after one that does; another field; each phase. -/
theorem witness_MarkIsRecognisedOrEmitted :
    (let s := inPhase .dScan (capture (toBits 0x6CB1#16) [] 0)
     s.phase = .dScan ∧ s.cursor.upTo 16 = toBits (0x6CB1#16) ∧ s.nobs < 14) ∧
    (let s := { inPhase .dScan (capture (toBits 0x6CB1#16) [] 0) with nobs := 14, win := 0x1B2C#16 }
     s.phase = .dScan ∧ s.cursor.upTo 16 = toBits (0x6CB1#16) ∧ 14 ≤ s.nobs ∧
      s.win.extractLsb' 0 14 = 0b01101100101100#14) ∧
    (let s := inPhase .dScan (capture (toBits 0x6CB0#16) [] 0)
     s.phase = .dScan ∧ s.cursor.upTo 16 ≠ toBits (0x6CB1#16)) ∧
    (inPhase .eMark State.reset).phase = .eMark ∧
    (State.reset.phase ≠ .dScan ∧ State.reset.phase ≠ .eMark) := by decide +kernel

theorem witness_GroupIsReadOrScannedOrEmitted :
    (let s := { inPhase .dRead (capture (zeros 64) [] 0) with wcnt := 1535 }
     s.phase = .dRead ∧ s.cursor.upTo 64 = toBits 0#64 ∧ s.wcnt < 1536) ∧
    (let s := inPhase .dScan (capture (zeros 64) [] 0)
     s.phase = .dScan ∧ s.cursor.upTo 64 = toBits 0#64) ∧
    (∀ k, 1 ≤ k → k ≤ 64 → ¬(16 ≤ (inPhase .dScan (capture (zeros 64) [] 0)).nobs + k ∧
      ((toBits (inPhase .dScan (capture (zeros 64) [] 0)).win ++ toBits 0#64).drop k).take 16 = toBits Config.marker)) ∧
    (let s := { inPhase .dScan (capture (toBits 0xB100000000000000#64) [] 0) with nobs := 16, win := 0x006C#16 }
     s.phase = .dScan ∧ s.cursor.upTo 64 = toBits 0xB100000000000000#64 ∧
      (16 ≤ s.nobs + 8 ∧ ((toBits s.win ++ toBits 0xB100000000000000#64).drop 8).take 16 = toBits Config.marker) ∧
      ∀ j < 8, 1 ≤ j →
        ¬(16 ≤ s.nobs + j ∧ ((toBits s.win ++ toBits 0xB100000000000000#64).drop j).take 16 = toBits Config.marker)) ∧
    (let s := inPhase .dRead (capture (zeros 64) [] 0)
     s.phase = .dRead ∧ s.cursor.upTo 64 ≠ toBits 1#64) ∧
    (let s := { inPhase .eWord State.reset with
                desc := { Desc.created with own := true }, sink := [.lit 16 0x6CB1#16 0#32],
                blk := [(0, 0x28#8), (1, 0xF5#8), (2, 0x3C#8), (3, 0xB9#8)] }
     s.phase = .eWord ∧ s.desc.own = true ∧ s.wcnt < 1536 ∧ s.blk.readWord (4 * s.wcnt) = some 0x28F53CB9#32 ∧
      s.theCodec.mod s.lastRawBit 0x28F53CB9#32 = 0x14529454AA551491#64 ∧
      s.theCodec.mod s.lastRawBit 0x28F53CB9#32 ≠ 0#64) ∧
    (State.reset.phase ≠ .dRead ∧ State.reset.phase ≠ .dScan ∧ State.reset.phase ≠ .eWord) := by
  refine ⟨by decide +kernel, by decide +kernel, ?_, by decide +kernel, by decide +kernel, by decide +kernel, by decide⟩
  have h : toBits (inPhase .dScan (capture (zeros 64) [] 0)).win ++ toBits 0#64 = zeros 80 := by decide +kernel
  rw [h]
  exact fun k _ _ hk => zeros_hold_no_marker 80 k hk.2

theorem witness_DecodeIsAllOrNothing :
    (capture (zeros 37) [0] 20).readyToDecode ∧ (capture (zeros 37) [0] 20).cursor.inCapture :=
  ⟨ready_capture _ _ _, .inl rfl, by decide +kernel⟩

theorem witness_EncodeEmitsTheFrame : (populated blockA).readyToEncode blockA := ready_populated blockA length_blockA

theorem witness_CommandsRefuseOtherDescriptors :
    (State.reset.phase = .idle ∧ State.reset.desc.len = 6144 ∧ State.reset.desc.nsec = 1 ∧ State.reset.desc.own = false) ∧
    ((populated blockA).phase = .idle ∧ (populated blockA).desc.len = 6144 ∧ (populated blockA).desc.nsec = 1 ∧
      (populated blockA).desc.own = true) ∧
    ({ Desc.created with len := 512 } : Desc).len ≠ 6144 ∧ ({ Desc.created with nsec := 2 } : Desc).nsec ≠ 1 :=
  ⟨⟨rfl, rfl, rfl, rfl⟩, ⟨rfl, rfl, rfl, rfl⟩, by decide, by decide⟩

theorem witness_SteppedDecodeIsTheWholeDecode :
    (presentingOn 0#8 (zeros 37)).presented 0#8 ∧ (presentingOn 0#8 (zeros 37)).readyToDecode ∧
      (presentingOn 0#8 (zeros 37)).cursor.captured :=
  ⟨⟨rfl, rfl⟩, ⟨rfl, rfl, rfl, rfl⟩, .inl rfl⟩

/-- A DECODE presented, a stream of zero bits without end attached. -/
def endlessZeros : State := { captureOf .revolving [false] [] 0 with cmd := some 0#8 }

theorem witness_DecodeIsLaunchedWhereItsEndIsNotInSight :
    endlessZeros.readyToDecode ∧ endlessZeros.cursor.kind = .revolving ∧ endlessZeros.presented 0#8 ∧
    (captureOf (.other 2) [] [] 0).readyToDecode ∧ (captureOf (.other 2) [] [] 0).cursor.kind = .other 2 :=
  ⟨⟨rfl, rfl, rfl, rfl⟩, rfl, ⟨rfl, rfl⟩, ⟨rfl, rfl, rfl, rfl⟩, rfl⟩

/-- An ENCODE presented to a machine with a populated block. -/
def encodePresented (ws : List Word) : State := { populated ws with cmd := some 1#8 }

theorem ready_encodePresented (ws : List Word) (h : ws.length = 1536) : (encodePresented ws).readyToEncode ws :=
  ready_populated ws h

theorem witness_SteppedEncodeIsTheWholeEncode :
    (encodePresented blockA).presented 1#8 ∧ (encodePresented blockA).readyToEncode blockA :=
  ⟨⟨rfl, rfl⟩, ready_encodePresented blockA length_blockA⟩

theorem ahead_capture (bits : List Bool) (marks : List Nat) : (capture bits marks 0).cursor.ahead = bits := rfl

theorem codec_capture (bits : List Bool) (marks : List Nat) : (capture bits marks 0).theCodec = Codec.reference := rfl

/-- A false marker and a body of zero bits. -/
def rejected : List Bool := toBits 0x6CB1#16 ++ zeros 98304

theorem drop_rejected (r : List Bool) (k : Nat) (h : k ≤ 98304) :
    (rejected ++ r).drop (16 + k) = zeros (98304 - k) ++ r := by
  rw [rejected, List.append_assoc, ← List.drop_drop, List.drop_append_of_le_length (by simp),
    List.drop_eq_nil_of_le (as := toBits 0x6CB1#16) (by simp), List.nil_append,
    List.drop_append_of_le_length (by rw [length_zeros]; exact h), drop_zeros]

theorem rejected_starts (r : List Bool) : firstMarkerAt (rejected ++ r) 0 := by
  refine ⟨?_, fun q h => absurd h (Nat.not_lt_zero q)⟩
  rw [List.drop_zero, rejected, List.append_assoc, List.take_append_of_le_length (by simp)]
  decide

theorem length_rejected (r : List Bool) : 0 + 98320 ≤ (rejected ++ r).length := by
  rw [rejected, List.length_append, List.length_append, length_zeros, length_toBits]; omega

theorem sum_rejected (r : List Bool) :
    sumWords (bodyWords Codec.reference ((rejected ++ r).drop (0 + 16))) ≠ 0x28F53CB9#32 := by
  rw [show 0 + 16 = 16 + 0 from rfl, drop_rejected _ 0 (by omega), show 98304 - 0 = 98304 from rfl,
    words_of_zeros, sumWords_replicate_zero]
  decide

theorem rest_rejected (r : List Bool) : (rejected ++ r).drop (0 + 98305) = zeros 15 ++ r := by
  rw [show 0 + 98305 = 16 + 98289 from rfl, drop_rejected _ 98289 (by omega)]

/-- The scan comes past the rejected candidate; what it tests next begins with the body's last 15 bits. -/
theorem skips_rejected (r : List Bool) : Skips Codec.reference (rejected ++ r) (zeros 15 ++ r) := by
  refine .reject _ _ 0 (rejected_starts r) (length_rejected r) (sum_rejected r) ?_
  rw [rest_rejected]
  exact .refl _

/-- Nothing rejected; one candidate rejected. -/
theorem witness_StreamWithoutMarkerIsNotFound :
    ((capture (zeros 200) [0] 0).readyToDecode ∧ (capture (zeros 200) [0] 0).cursor.captured ∧
      Skips (capture (zeros 200) [0] 0).theCodec (capture (zeros 200) [0] 0).cursor.ahead (zeros 200) ∧
      noMarkerIn (zeros 200)) ∧
    ((capture (rejected ++ zeros 7) [0] 0).readyToDecode ∧ (capture (rejected ++ zeros 7) [0] 0).cursor.captured ∧
      Skips (capture (rejected ++ zeros 7) [0] 0).theCodec (capture (rejected ++ zeros 7) [0] 0).cursor.ahead
        (zeros 15 ++ zeros 7) ∧
      noMarkerIn (zeros 15 ++ zeros 7)) := by
  rw [ahead_capture, codec_capture, ahead_capture, codec_capture]
  exact ⟨⟨ready_capture _ _ _, .inl rfl, .refl _, zeros_hold_no_marker 200⟩, ready_capture _ _ _, .inl rfl,
    skips_rejected _, zeros_hold_no_marker 22⟩

/-- A marker alone after fifteen zero bits. -/
theorem marker_alone_after_zeros : firstMarkerAt (zeros 15 ++ toBits 0x6CB1#16) 15 := by
  refine ⟨by decide, fun q hq => ?_⟩
  revert q
  decide

/-- A marker alone; a marker alone after a rejected candidate. -/
theorem witness_CutShortCandidateIsTruncated :
    ((capture (toBits 0x6CB1#16) [0] 0).readyToDecode ∧ (capture (toBits 0x6CB1#16) [0] 0).cursor.captured ∧
      Skips (capture (toBits 0x6CB1#16) [0] 0).theCodec (capture (toBits 0x6CB1#16) [0] 0).cursor.ahead
        (toBits 0x6CB1#16) ∧
      firstMarkerAt (toBits 0x6CB1#16) 0 ∧ (toBits 0x6CB1#16).length < 0 + 98320) ∧
    ((capture (rejected ++ toBits 0x6CB1#16) [0] 0).readyToDecode ∧
      (capture (rejected ++ toBits 0x6CB1#16) [0] 0).cursor.captured ∧
      Skips (capture (rejected ++ toBits 0x6CB1#16) [0] 0).theCodec
        (capture (rejected ++ toBits 0x6CB1#16) [0] 0).cursor.ahead (zeros 15 ++ toBits 0x6CB1#16) ∧
      firstMarkerAt (zeros 15 ++ toBits 0x6CB1#16) 15 ∧ (zeros 15 ++ toBits 0x6CB1#16).length < 15 + 98320) := by
  rw [ahead_capture, codec_capture, ahead_capture, codec_capture]
  exact ⟨⟨ready_capture _ _ _, .inl rfl, .refl _, ⟨by decide, fun q h => absurd h (Nat.not_lt_zero q)⟩, by decide⟩,
    ready_capture _ _ _, .inl rfl, skips_rejected _, marker_alone_after_zeros, by decide⟩

theorem round_trip_premises (ws : List Word) (h : ws.length = 1536) (hs : sumWords ws = 0x28F53CB9#32) :
    (populated ws).readyToEncode ws ∧ sumWords ws = 0x28F53CB9#32 ∧
      (capture (frameOf Codec.reference ws) [] 0).readyToDecode ∧
      (capture (frameOf Codec.reference ws) [] 0).cursor.captured ∧
      (capture (frameOf Codec.reference ws) [] 0).codec = (populated ws).codec ∧
      ∃ e' frame, exec .encode (populated ws) = .next e' ∧ e'.sinkBits = (populated ws).sinkBits ++ frame ∧
        (capture (frameOf Codec.reference ws) [] 0).cursor.ahead = [] ++ frame ++ [] ∧
        firstMarkerAt (capture (frameOf Codec.reference ws) [] 0).cursor.ahead ([] : List Bool).length :=
  ⟨ready_populated _ h, hs, ready_capture _ _ _, .inl rfl, rfl, _, frameOf Codec.reference ws,
    exec_encode_populated _ h, flatten_frame _ _ _ _, by rw [List.nil_append, List.append_nil]; rfl,
    frame_starts _ _⟩

theorem witness_EncodeThenDecodeReturnsTheBlock :
    (populated blockA).readyToEncode blockA ∧ sumWords blockA = 0x28F53CB9#32 ∧
      (capture (frameOf Codec.reference blockA) [] 0).readyToDecode ∧
      (capture (frameOf Codec.reference blockA) [] 0).cursor.captured ∧
      (capture (frameOf Codec.reference blockA) [] 0).codec = (populated blockA).codec ∧
      ∃ e' frame, exec .encode (populated blockA) = .next e' ∧ e'.sinkBits = (populated blockA).sinkBits ++ frame ∧
        (capture (frameOf Codec.reference blockA) [] 0).cursor.ahead = [] ++ frame ++ [] ∧
        firstMarkerAt (capture (frameOf Codec.reference blockA) [] 0).cursor.ahead ([] : List Bool).length :=
  round_trip_premises blockA length_blockA sum_blockA

theorem length_groupsBits (c : Codec) (p : Bool) (ws : List Word) : (groupsBits c p ws).length = 64 * ws.length := by
  induction ws generalizing p with
  | nil => rfl
  | cons w ws ih => rw [groupsBits, List.length_append, length_toBits, ih, List.length_cons]; omega

theorem length_frameOf (c : Codec) (ws : List Word) (h : ws.length = 1536) : (frameOf c ws).length = 0 + 98320 := by
  rw [frameOf, List.length_append, length_toBits, length_groupsBits, h]

theorem upTo_presentingOn (bits : List Bool) (n : Nat) (h : bits.length = n) :
    (presentingOn 0#8 bits).cursor.upTo n = bits := List.take_of_length_le h.le

/-- The words of a body that is one group for each of its words. -/
theorem words_of_groups (ws : List Word) (p : Bool) (i : Nat) (h : i < ws.length) :
    Codec.reference.demod (ofBits 64 (((groupsBits Codec.reference p ws).drop (64 * i)).take 64)) = ws[i] := by
  induction ws generalizing p i with
  | nil => simp at h
  | cons w ws ih =>
    cases i with
    | zero =>
      rw [Nat.mul_zero, List.drop_zero, groupsBits, List.take_append_of_le_length (by simp),
        List.take_of_length_le (by simp), ofBits_toBits]
      exact Codec.reference.law p w
    | succ i =>
      rw [groupsBits, show 64 * (i + 1) = 64 + 64 * i by omega, ← List.drop_drop, List.drop_append_of_le_length (by simp),
        List.drop_eq_nil_of_le (as := toBits _) (by simp), List.nil_append]
      exact ih _ i (by simpa using h)

theorem bodyWords_frame (ws : List Word) (h : ws.length = 1536) :
    bodyWords Codec.reference ((frameOf Codec.reference ws).drop (0 + 16)) = ws := by
  rw [frameOf, List.drop_append_of_le_length (by simp), List.drop_eq_nil_of_le (as := toBits _) (by simp), List.nil_append]
  apply List.ext_getElem
  · rw [bodyWords, List.length_map, List.length_range, h]
  · intro i h1 h2
    simp only [bodyWords, List.getElem_map, List.getElem_range]
    exact words_of_groups ws _ i h2

/-- A DECODE presented on a frame of any words. -/
theorem frame_premises (ws : List Word) (h : ws.length = 1536) :
    (presentingOn 0#8 (frameOf Codec.reference ws)).presented 0#8 ∧
      (presentingOn 0#8 (frameOf Codec.reference ws)).readyToDecode ∧
      (presentingOn 0#8 (frameOf Codec.reference ws)).cursor.upTo (0 + 98320) = frameOf Codec.reference ws ∧
      (frameOf Codec.reference ws).length = 0 + 98320 ∧ firstMarkerAt (frameOf Codec.reference ws) 0 :=
  ⟨⟨rfl, rfl⟩, ⟨rfl, rfl, rfl, rfl⟩, upTo_presentingOn _ _ (length_frameOf _ ws h), length_frameOf _ ws h, frame_starts _ _⟩

theorem codec_presentingOn (bits : List Bool) : (presentingOn 0#8 bits).theCodec = Codec.reference := rfl

theorem witness_CleanDecodeTakesItsStepCount :
    ((presentingOn 0#8 (frameOf Codec.reference blockA)).presented 0#8 ∧
      (presentingOn 0#8 (frameOf Codec.reference blockA)).readyToDecode ∧
      (presentingOn 0#8 (frameOf Codec.reference blockA)).cursor.upTo (0 + 98320) = frameOf Codec.reference blockA ∧
      (frameOf Codec.reference blockA).length = 0 + 98320 ∧ firstMarkerAt (frameOf Codec.reference blockA) 0) ∧
      sumWords (bodyWords (presentingOn 0#8 (frameOf Codec.reference blockA)).theCodec
        ((frameOf Codec.reference blockA).drop (0 + 16))) = 0x28F53CB9#32 := by
  rw [codec_presentingOn, bodyWords_frame _ length_blockA]
  exact ⟨frame_premises blockA length_blockA, sum_blockA⟩

/-- Block `A`, which passes, and the block of zeros, which does not; a DECODE presented on the frame of each. -/
theorem witness_GateAcceptsExactlyTheConstantSum :
    ((presentingOn 0#8 (frameOf Codec.reference blockA)).presented 0#8 ∧
      (presentingOn 0#8 (frameOf Codec.reference blockA)).readyToDecode ∧
      (presentingOn 0#8 (frameOf Codec.reference blockA)).cursor.upTo (0 + 98320) = frameOf Codec.reference blockA ∧
      (frameOf Codec.reference blockA).length = 0 + 98320 ∧ firstMarkerAt (frameOf Codec.reference blockA) 0) ∧
    sumWords (bodyWords (presentingOn 0#8 (frameOf Codec.reference blockA)).theCodec
      ((frameOf Codec.reference blockA).drop (0 + 16))) = 0x28F53CB9#32 ∧
    ((presentingOn 0#8 (frameOf Codec.reference zeroBlock)).presented 0#8 ∧
      (presentingOn 0#8 (frameOf Codec.reference zeroBlock)).readyToDecode ∧
      (presentingOn 0#8 (frameOf Codec.reference zeroBlock)).cursor.upTo (0 + 98320) = frameOf Codec.reference zeroBlock ∧
      (frameOf Codec.reference zeroBlock).length = 0 + 98320 ∧ firstMarkerAt (frameOf Codec.reference zeroBlock) 0) ∧
    sumWords (bodyWords (presentingOn 0#8 (frameOf Codec.reference zeroBlock)).theCodec
      ((frameOf Codec.reference zeroBlock).drop (0 + 16))) ≠ 0x28F53CB9#32 := by
  rw [codec_presentingOn, codec_presentingOn, bodyWords_frame _ length_blockA, bodyWords_frame _ length_zeroBlock]
  exact ⟨frame_premises blockA length_blockA, sum_blockA, frame_premises zeroBlock length_zeroBlock, sum_zeroBlock⟩

theorem witness_BodyOfAFrameIsItsWords : blockA.length = 1536 := length_blockA

theorem witness_SumIgnoresOrderAndSeesOneChange :
    ([0x28F53CB9#32, 0#32].Perm [0#32, 0x28F53CB9#32]) ∧ 1 < [0x28F53CB9#32, 0#32].length ∧
      (1#32 : Word) ≠ [0x28F53CB9#32, 0#32][1] ∧ sumWords [0x28F53CB9#32, 0#32] = 0x28F53CB9#32 := by decide

theorem rest_is_frame (ws : List Word) :
    (rejected ++ frameOf Codec.reference ws).drop (0 + 98305 + 15) = frameOf Codec.reference ws ++ [] := by
  rw [show 0 + 98305 + 15 = 16 + 98304 from rfl, drop_rejected _ 98304 (by omega), List.append_nil]
  rfl

theorem witness_FalseMarkerThenFrameDecodes :
    (capture (rejected ++ frameOf Codec.reference blockA) [] 0).readyToDecode ∧
      (capture (rejected ++ frameOf Codec.reference blockA) [] 0).cursor.captured ∧
      firstMarkerAt (capture (rejected ++ frameOf Codec.reference blockA) [] 0).cursor.ahead 0 ∧
      0 + 98320 ≤ (capture (rejected ++ frameOf Codec.reference blockA) [] 0).cursor.ahead.length ∧
      sumWords (bodyWords (capture (rejected ++ frameOf Codec.reference blockA) [] 0).theCodec
        ((capture (rejected ++ frameOf Codec.reference blockA) [] 0).cursor.ahead.drop (0 + 16))) ≠ 0x28F53CB9#32 ∧
      firstMarkerAt ((capture (rejected ++ frameOf Codec.reference blockA) [] 0).cursor.ahead.drop (0 + 98305)) 15 ∧
      (capture (rejected ++ frameOf Codec.reference blockA) [] 0).cursor.ahead.drop (0 + 98305 + 15) =
        frameOf (capture (rejected ++ frameOf Codec.reference blockA) [] 0).theCodec blockA ++ [] ∧
      blockA.length = 1536 ∧ sumWords blockA = 0x28F53CB9#32 := by
  rw [ahead_capture, codec_capture]
  exact ⟨ready_capture _ _ _, .inl rfl, rejected_starts _, length_rejected _, sum_rejected _,
    (rest_rejected _).symm ▸ marker_after_fifteen_zeros _ _, rest_is_frame _, length_blockA, sum_blockA⟩

theorem passes_after_zeros (ws : List Word) (h : ws.length = 1536) :
    15 + 98320 ≤ (zeros 15 ++ frameOf Codec.reference ws).length ∧
      bodyWords Codec.reference ((zeros 15 ++ frameOf Codec.reference ws).drop (15 + 16)) = ws := by
  refine ⟨by rw [List.length_append, length_zeros, length_frameOf _ ws h], ?_⟩
  rw [← List.drop_drop, List.drop_append_of_le_length (by rw [length_zeros]), drop_zeros]
  exact bodyWords_frame ws h

theorem witness_CandidateAfterRejectionsDecodes :
    (capture (rejected ++ frameOf Codec.reference blockA) [] 0).readyToDecode ∧
      (capture (rejected ++ frameOf Codec.reference blockA) [] 0).cursor.captured ∧
      Skips (capture (rejected ++ frameOf Codec.reference blockA) [] 0).theCodec
        (capture (rejected ++ frameOf Codec.reference blockA) [] 0).cursor.ahead
        (zeros 15 ++ frameOf Codec.reference blockA) ∧
      firstMarkerAt (zeros 15 ++ frameOf Codec.reference blockA) 15 ∧
      15 + 98320 ≤ (zeros 15 ++ frameOf Codec.reference blockA).length ∧
      sumWords (bodyWords (capture (rejected ++ frameOf Codec.reference blockA) [] 0).theCodec
        ((zeros 15 ++ frameOf Codec.reference blockA).drop (15 + 16))) = 0x28F53CB9#32 := by
  rw [ahead_capture, codec_capture, (passes_after_zeros blockA length_blockA).2]
  exact ⟨ready_capture _ _ _, .inl rfl, skips_rejected _, marker_after_fifteen_zeros _ _,
    (passes_after_zeros blockA length_blockA).1, sum_blockA⟩

/-- Exactly the given bits are there. -/
theorem bits_there (bits : List Bool) :
    (∀ i < bits.length, (presentingOn 0#8 bits).cursor.bitAt ((presentingOn 0#8 bits).cursor.pos + i) ≠ none) ∧
      (presentingOn 0#8 bits).cursor.bitAt ((presentingOn 0#8 bits).cursor.pos + bits.length) = none := by
  have h : ∀ i, (presentingOn 0#8 bits).cursor.bitAt ((presentingOn 0#8 bits).cursor.pos + i) = bits[i]? := fun i => by
    rw [show (presentingOn 0#8 bits).cursor.pos + i = i from Nat.zero_add i]
    rfl
  exact ⟨fun i hi => by rw [h, List.getElem?_eq_getElem hi]; exact Option.some_ne_none _,
    by rw [h, List.getElem?_eq_none le_rfl]⟩

/-- One rejected candidate, and behind it no marker, a marker alone, or a frame that passes. -/
theorem witness_DecodeOnAFiniteCursorEnds :
    ∀ r ∈ [zeros 7, toBits 0x6CB1#16, frameOf Codec.reference blockA],
      ((presentingOn 0#8 (rejected ++ r)).presented 0#8 ∧ (presentingOn 0#8 (rejected ++ r)).readyToDecode ∧
        (∀ i < (rejected ++ r).length,
          (presentingOn 0#8 (rejected ++ r)).cursor.bitAt ((presentingOn 0#8 (rejected ++ r)).cursor.pos + i) ≠ none) ∧
        (presentingOn 0#8 (rejected ++ r)).cursor.bitAt
          ((presentingOn 0#8 (rejected ++ r)).cursor.pos + (rejected ++ r).length) = none) ∧
      Skips (presentingOn 0#8 (rejected ++ r)).theCodec
        ((presentingOn 0#8 (rejected ++ r)).cursor.upTo (rejected ++ r).length) (zeros 15 ++ r) ∧
      (noMarkerIn (zeros 15 ++ r) ∨
        (firstMarkerAt (zeros 15 ++ r) 15 ∧
          ((zeros 15 ++ r).length < 15 + 98320 ∨
            (15 + 98320 ≤ (zeros 15 ++ r).length ∧
              sumWords (bodyWords (presentingOn 0#8 (rejected ++ r)).theCodec ((zeros 15 ++ r).drop (15 + 16))) =
                0x28F53CB9#32)))) := by
  intro r hr
  rw [codec_presentingOn, upTo_presentingOn _ _ rfl]
  refine ⟨⟨⟨rfl, rfl⟩, ⟨rfl, rfl, rfl, rfl⟩, bits_there _⟩, skips_rejected r, ?_⟩
  rcases List.mem_cons.1 hr with rfl | hr
  · exact .inl (zeros_hold_no_marker 22)
  rcases List.mem_cons.1 hr with rfl | hr
  · exact .inr ⟨marker_alone_after_zeros, .inl (by decide)⟩
  · rw [List.mem_singleton.1 hr, (passes_after_zeros blockA length_blockA).2]
    exact .inr ⟨marker_after_fifteen_zeros _ _, .inr ⟨(passes_after_zeros blockA length_blockA).1, sum_blockA⟩⟩

/-- The endless scan of zero bits. -/
def ScansZeros (s : State) : Prop :=
  s.issue = none ∧ s.cmd = none ∧ s.phase = .dScan ∧ s.win = 0#16 ∧ s.cursor.kind = .revolving ∧ s.cursor.bits = [false]

theorem step_scansZeros (s : State) (h : ScansZeros s) : ∃ t, step s = .next t ∧ ScansZeros t := by
  obtain ⟨h1, h2, h3, h4, h5, h6⟩ := h
  have hs : step s = .next (scanStep s) := by simp only [step, fetch, h1, fetchPhase, h3, h2]; rfl
  have hb : s.cursor.bitAt s.cursor.pos = some false := by simp [Cursor.bitAt, h5, h6, Nat.mod_one]
  have hw : (observeBit false (setCursor (s.cursor.advanced 1) s)).win = 0#16 := by
    rw [observeBit_win, setCursor_win, h4]; decide
  have ha : (observeBit false (setCursor (s.cursor.advanced 1) s)).atMarker = false := by
    rw [State.atMarker, hw, show ((0#16 : Window) == Config.marker) = false by decide, Bool.and_false]
  refine ⟨_, hs, ?_⟩
  rcases scanStep_cases s with ⟨hn, _⟩ | ⟨b, hb', e⟩
  · rw [hb] at hn; cases hn
  · rw [hb] at hb'
    cases hb'
    rcases e with ⟨ha', _⟩ | ⟨_, e⟩
    · rw [ha] at ha'; cases ha'
    · rw [e]
      exact ⟨h1, h2, rfl, hw, h5, h6⟩

theorem run_scansZeros (n : Nat) (s : State) (h : ScansZeros s) : ∃ t, runSteps n s = .next t ∧ ScansZeros t := by
  induction n generalizing s with
  | zero => exact ⟨s, rfl, h⟩
  | succ n ih =>
    obtain ⟨u, hu, hs⟩ := step_scansZeros s h
    rw [runSteps, hu]
    exact ih u hs

theorem run_endlessZeros (n : Nat) (t : State) (h : runSteps n endlessZeros = .next t) : t.phase ≠ .dIndex := by
  cases n with
  | zero => cases h; decide
  | succ n =>
    have h0 : step endlessZeros = .next (setPhase .dScan (takeCommand (beginDecode endlessZeros))) := rfl
    obtain ⟨u, hu, hs⟩ := run_scansZeros n (setPhase .dScan (takeCommand (beginDecode endlessZeros)))
      ⟨rfl, rfl, rfl, rfl, rfl, rfl⟩
    rw [runSteps, h0] at h
    cases hu.symm.trans h
    rw [hs.2.2.1]
    decide

theorem witness_EndlessDecodeRunsForEver :
    endlessZeros.presented 0#8 ∧ endlessZeros.readyToDecode ∧ endlessZeros.cursor.endless ∧
      ∀ n t, runSteps n endlessZeros = .next t → t.phase ≠ .dIndex :=
  ⟨⟨rfl, rfl⟩, ⟨rfl, rfl, rfl, rfl⟩, fun i => by simp [endlessZeros, captureOf, Cursor.bitAt, Nat.mod_one],
    run_endlessZeros⟩

theorem witness_DecodeOnExhaustedCursorIsNotFound :
    (presenting 0#8).presented 0#8 ∧ (presenting 0#8).readyToDecode ∧
      (presenting 0#8).cursor.bitAt (presenting 0#8).cursor.pos = none :=
  ⟨⟨rfl, rfl⟩, ⟨rfl, rfl, rfl, rfl⟩, rfl⟩

/-- The same block in a machine with another offset, another capture and a sink that holds something. -/
def populatedOther (ws : List Word) : State :=
  { populated ws with sink := [.lit 1 1#1 5#32], cand := -13, cursor := (capture (zeros 3) [] 1).cursor }

theorem ready_populatedOther (ws : List Word) (h : ws.length = 1536) : (populatedOther ws).readyToEncode ws :=
  ready_populated ws h

theorem witness_EncodeOutputDependsOnTheBlockAlone :
    (populated blockA).readyToEncode blockA ∧ (populatedOther blockA).readyToEncode blockA ∧
      (populated blockA).codec = (populatedOther blockA).codec :=
  ⟨ready_populated blockA length_blockA, ready_populatedOther blockA length_blockA, rfl⟩

theorem witness_StepKeepsTheInvariant : (presenting 0#8).Inv ∧ ∃ t, step (presenting 0#8) = .next t :=
  ⟨inv_presenting, _, rfl⟩

theorem witness_NoStepChangesTheCaptureOrTheScheme : ∃ t, step (presentingOn 0#8 [true, false]) = .next t := ⟨_, rfl⟩

theorem step_staged (w : Word) (n : Nat) : step (staged w n) = exec .dCommit (staged w n) := rfl

theorem commit_populates (s : State) (ws : List Word) (h1 : s.desc.own = false) (h2 : s.candHeld = true)
    (h3 : s.totHeld = true) (h4 : stagedWords s.wbuf = some ws) :
    ∃ t, exec .dCommit s = .next t ∧ (t.blk ≠ s.blk ∨ t.desc ≠ s.desc) :=
  ⟨_, exec_dCommit_staged s ws h2 h3 h4, .inr fun h => by
    have : true = s.desc.own := congrArg Desc.own h
    rw [h1] at this
    cases this⟩

theorem witness_BlockChangesOnlyInTheCommitStep :
    (staged 0#32 1536).issue = none ∧
      ∃ t, step (staged 0#32 1536) = .next t ∧ (t.blk ≠ (staged 0#32 1536).blk ∨ t.desc ≠ (staged 0#32 1536).desc) := by
  rw [step_staged]
  exact ⟨rfl, commit_populates _ _ rfl rfl rfl (staged_tabulate 0#32)⟩

theorem witness_NoStepMovesTheCursorBack :
    (presenting 0#8).Inv ∧ (∃ t, step (presenting 0#8) = .next t) ∧ (presenting 0#8).cursor.captured :=
  ⟨inv_presenting, ⟨_, rfl⟩, .inl rfl⟩

theorem witness_HostReadsOnlyWhatIsThere :
    (let s := { State.reset with desc := { Desc.created with own := true }, blk := [(6143, 7#8)] }
     s.phase = .idle ∧ s.desc.own = true ∧ 6143 < 6144 ∧ s.blk.read 6143 = some 7#8 ∧ s.blk.read 0 = none) ∧
    (State.reset.phase = .idle ∧ State.reset.desc.own = false ∧ 6143 < 6144) ∧
    (inPhase .dScan State.reset).phase ≠ .idle := by decide

end Sys2Proof.Tests
end

section
/-! SUPPORT. What a step runs: what `fetch` finds, what `step` makes of it, and the instructions an item can decode to. -/

namespace Sys2Proof.Machine

/-! ### The step rule of a phase -/

/-- R21: the step rule of a running phase. -/
def Phase.rule : Phase → Option Instr
  | .idle => none
  | .dScan => some .dScan
  | .dRead => some .dRead
  | .dCheck => some .dCheck
  | .dIndex => some .dIndex
  | .dCommit => some .dCommit
  | .eMark => some .eMark
  | .eWord => some .eWord

theorem Phase.rule_eq_none (p : Phase) : p.rule = none ↔ p = .idle := by cases p <;> simp [Phase.rule]

/-- R101: the selector of a running phase decodes to its step rule. -/
theorem decodeItem_selector (p : Phase) (i : Instr) (h : p.rule = some i) :
    decodeItem p.selector.format p.selector.bytes = .ok (i, []) := by
  cases p <;> cases h <;> rfl

/-! ### What `fetch` finds -/

theorem fetch_of_issue (s : State) (it : Item) (h : s.issue = some it) : fetch s = fetchIssued it s := by
  simp only [fetch, h]

theorem fetch_of_no_issue (s : State) (h : s.issue = none) : fetch s = fetchPhase s := by simp only [fetch, h]

theorem fetchPhase_running (s : State) (hc : s.cmd = none) (hp : s.phase ≠ .idle) :
    fetchPhase s = .item s.phase.selector s := by
  simp only [fetchPhase, hc]

theorem fetchPhase_presented (s : State) (code : Byte) (hp : s.phase = .idle) (hc : s.cmd = some code) :
    fetchPhase s = fetchCommand code s := by simp only [fetchPhase, hp, hc]

/-! ### What `step` makes of it -/

theorem step_of_stop (s : State) (r : Refusal) (h : fetch s = .stop r) : step s = .refused r := by simp only [step, h]

theorem step_of_nothing (s : State) (h : fetch s = .nothing) : step s = .next s := by simp only [step, h]

theorem step_of_item (s t : State) (it : Item) (i : Instr) (rest : List Byte) (hf : fetch s = .item it t)
    (hd : decodeItem it.format it.bytes = .ok (i, rest)) : step s = exec i t := by simp only [step, hf, hd]

/-- R21: `IDLE`, and nothing presented. -/
theorem step_idle (s : State) (hi : s.issue = none) (hc : s.cmd = none) (hp : s.phase = .idle) : step s = .next s :=
  step_of_nothing s (by simp only [fetch_of_no_issue s hi, fetchPhase, hp, hc])

/-- R21: a running phase runs its step rule. -/
theorem step_running (s : State) (i : Instr) (hi : s.issue = none) (hc : s.cmd = none) (hr : s.phase.rule = some i) :
    step s = exec i s := by
  have hp : s.phase ≠ .idle := fun h => by simp [h, Phase.rule] at hr
  exact step_of_item s s _ i [] ((fetch_of_no_issue s hi).trans (fetchPhase_running s hc hp))
    (decodeItem_selector _ _ hr)

/-- R90: command code 0 in `IDLE` runs the accept step of DECODE. -/
theorem step_presented_decode (s : State) (hi : s.issue = none) (hp : s.phase = .idle) (hc : s.cmd = some 0#8) :
    step s = exec .acceptD s :=
  step_of_item s s (selector .idle 0) _ [] (by rw [fetch_of_no_issue s hi, fetchPhase_presented s _ hp hc]; rfl) rfl

/-- R90: command code 1 in `IDLE` runs the accept step of ENCODE. -/
theorem step_presented_encode (s : State) (hi : s.issue = none) (hp : s.phase = .idle) (hc : s.cmd = some 1#8) :
    step s = exec .acceptE s :=
  step_of_item s s (selector .idle 1) _ [] (by rw [fetch_of_no_issue s hi, fetchPhase_presented s _ hp hc]; rfl) rfl

/-- An issued item that is no step rule, and no request while a command runs, is taken out of the port. -/
theorem fetch_issued (s : State) (it : Item) (hi : s.issue = some it) (hs : it.format ≠ .step)
    (hq : it.format = .req → s.phase = .idle) : fetch s = .item it { s with issue := none } := by
  have hq' : ¬(it.format = .req ∧ s.phase ≠ .idle) := fun h => h.2 (hq h.1)
  rw [fetch_of_issue s it hi, fetchIssued, if_neg hs, if_neg hq']

/-! ### What an item can decode to -/

/-- One decoding after another comes to an end only through both. -/
theorem except_bind_ok {ε α β : Type} (x : Except ε α) (f : α → Except ε β) (b : β) :
    (x >>= f) = .ok b ↔ ∃ a, x = .ok a ∧ f a = .ok b := by
  cases x <;> simp [bind, Except.bind]

theorem formatOf_stepOfSelector (n : Nat) (i : Instr) (h : stepOfSelector n = some i) : formatOf i = .step := by
  unfold stepOfSelector at h
  split at h <;> cases h <;> rfl

theorem formatOf_decodeReq (bs rest : List Byte) (i : Instr) (h : decodeReq bs = .ok (i, rest)) : formatOf i = .req := by
  simp only [decodeReq, except_bind_ok, Prod.exists] at h
  obtain ⟨code, r, -, h⟩ := h
  split at h
  case h_5 =>
    simp only [decodeDemod, except_bind_ok, Prod.exists] at h
    obtain ⟨_, _, -, h⟩ := h
    cases h; rfl
  case h_6 =>
    simp only [decodeMod, except_bind_ok, Prod.exists] at h
    obtain ⟨_, _, -, _, _, -, h⟩ := h
    split at h <;> cases h; rfl
  case h_7 =>
    simp only [decodeEmitLit, except_bind_ok, Prod.exists] at h
    obtain ⟨_, _, -, _, _, -, _, _, -, h⟩ := h
    split at h <;> cases h; rfl
  case h_8 =>
    simp only [decodeEmitMod, except_bind_ok, Prod.exists] at h
    obtain ⟨_, _, -, _, _, -, h⟩ := h
    cases h; rfl
  all_goals cases h
  all_goals rfl

/-- An item decodes to an instruction of its own format. -/
theorem formatOf_decodeItem (f : Format) (bs rest : List Byte) (i : Instr) (h : decodeItem f bs = .ok (i, rest)) :
    formatOf i = f := by
  cases f with
  | cmd =>
    simp only [decodeItem, decodeCmd, except_bind_ok, Prod.exists] at h
    obtain ⟨code, r, -, h⟩ := h
    split at h <;> cases h <;> rfl
  | frame16 =>
    simp only [decodeItem, decodeMark, except_bind_ok, Prod.exists] at h
    obtain ⟨v, r, -, h⟩ := h
    split at h <;> cases h; rfl
  | frame64 =>
    simp only [decodeItem, decodeGrp, except_bind_ok, Prod.exists] at h
    obtain ⟨v, r, -, h⟩ := h
    cases h; rfl
  | step =>
    simp only [decodeItem, decodeStep, except_bind_ok, Prod.exists] at h
    obtain ⟨sel, r, -, h⟩ := h
    split at h <;> cases h
    next hi => exact formatOf_stepOfSelector _ _ hi
  | req => exact formatOf_decodeReq bs rest i h

/-! ### Everything a step can do -/

/-- What a step runs, and from what state: a phase's step rule, the accept step of the command presented, or an issued
item that is no step rule, and no request while a command runs. -/
inductive StepRuns (s : State) : Instr → State → Prop where
  | phaseRule (i : Instr) (hi : s.issue = none) (hr : s.phase.rule = some i) : StepRuns s i s
  | acceptD (hi : s.issue = none) (hp : s.phase = .idle) : StepRuns s .acceptD s
  | acceptE (hi : s.issue = none) (hp : s.phase = .idle) : StepRuns s .acceptE s
  | issued (i : Instr) (it : Item) (hi : s.issue = some it) (hs : formatOf i ≠ .step)
      (hq : formatOf i = .req → s.phase = .idle) : StepRuns s i { s with issue := none }

/-- A step is refused, changes nothing, or is the instruction it runs. -/
theorem step_cases (s : State) :
    (∃ r, step s = .refused r) ∨ step s = .next s ∨ ∃ i t, StepRuns s i t ∧ step s = exec i t := by
  rcases hf : fetch s with _ | r | ⟨it, t⟩
  · exact .inr (.inl (step_of_nothing s hf))
  · exact .inl ⟨r, step_of_stop s r hf⟩
  rcases fetch_item s t it hf with ⟨hi, rfl, hs, hq⟩ | ⟨hi, rfl, ⟨hp, hc, rfl⟩ | ⟨hp, ⟨hc, rfl⟩ | ⟨hc, rfl⟩⟩⟩
  · rcases hd : decodeItem it.format it.bytes with e | ⟨i, rest⟩
    · exact .inl ⟨undecodableItem e, by simp only [step, hf, hd]⟩
    · have hfmt := formatOf_decodeItem _ _ _ _ hd
      exact .inr (.inr ⟨i, _, .issued i it hi (hfmt ▸ hs) (hfmt ▸ hq), step_of_item s _ it i rest hf hd⟩)
  · obtain ⟨i, hr⟩ := Option.ne_none_iff_exists'.1 fun h => hp ((Phase.rule_eq_none _).1 h)
    exact .inr (.inr ⟨i, t, .phaseRule i hi hr, step_running t i hi hc hr⟩)
  · exact .inr (.inr ⟨_, t, .acceptD hi hp, step_presented_decode t hi hp hc⟩)
  · exact .inr (.inr ⟨_, t, .acceptE hi hp, step_presented_encode t hi hp hc⟩)

end Sys2Proof.Machine
end

section
/-! The statements about what a step runs. -/

namespace Sys2Proof.Machine

/-- Settles O1: the item `fetch` finds is decoded and run, in each of the three places it can come from. -/
theorem stepRunsTheDecodedInstruction : Obligations.StepRunsTheDecodedInstruction := by
  refine ⟨fun s i rest hi hc hp hd _ => ?_, fun s code rest ⟨hi, hc⟩ hp => ?_, fun s it i rest hi hs hq hd _ => ?_⟩
  · exact step_of_item s s _ i rest ((fetch_of_no_issue s hi).trans (fetchPhase_running s hc hp)) hd
  · have hf := (fetch_of_no_issue s hi).trans (fetchPhase_presented s code hp hc)
    constructor <;> intro hd <;> change decodeCmd [code] = _ at hd
    · exact step_of_item s s (selector .idle 0) _ [] (by rw [hf, fetchCommand, hd]; rfl) rfl
    · exact step_of_item s s (selector .idle 1) _ [] (by rw [hf, fetchCommand, hd]; rfl) rfl
  · exact step_of_item s _ it i rest (fetch_issued s it hi hs hq) hd

/-- Settles O2: each phase has its rule (`step_running`), `IDLE` the accept step of the command presented. -/
theorem phaseSelectsItsStepRule : Obligations.PhaseSelectsItsStepRule := by
  intro s hi
  refine ⟨fun hc => ?_, fun hp => ⟨step_presented_decode s hi hp, step_presented_encode s hi hp⟩⟩
  have hrun (i : Instr) (p : Phase) (hr : p.rule = some i) (hp : s.phase = p) : step s = exec i s :=
    step_running s i hi hc (hp ▸ hr)
  exact ⟨step_idle s hi hc, hrun _ .dScan rfl, hrun _ .dRead rfl, hrun _ .dCheck rfl, hrun _ .dIndex rfl,
    hrun _ .dCommit rfl, hrun _ .eMark rfl, hrun _ .eWord rfl⟩

/-- Settles O4: what `fetchIssued` stops, and what it hands to the decoder. -/
theorem issuePortKeepsOutStepsAndSharedAccess : Obligations.IssuePortKeepsOutStepsAndSharedAccess := by
  intro s it hi
  have hf := fetch_of_issue s it hi
  refine ⟨fun hs => ?_, fun hq hp => ?_, fun e hcmd hd => ?_⟩
  · exact step_of_stop s _ (by rw [hf, fetchIssued, if_pos hs])
  · exact step_of_stop s _ (by rw [hf, fetchIssued, if_neg (by simp [hq]), if_pos ⟨hq, hp⟩])
  · have hit := fetch_issued s it hi (by simp [hcmd]) (by simp [hcmd])
    rw [← hcmd] at hd
    simp only [step, hit, hd, undecodableItem]

end Sys2Proof.Machine
end

section
/-! SUPPORT. The invariant, taken apart: what holds in every phase, and what each phase asks for besides. The second part
looks at the registers and not at `PHASE`, so that the whole commands, in which `PHASE` has no part (R120), are proved with it
too. -/

namespace Sys2Proof.Machine

/-- R176: a captured stream's place and marks lie in the capture. -/
structure Cursor.Sound (c : Cursor) : Prop where
  pos_le : c.captured → c.pos ≤ c.bits.length
  marks_le : c.captured → ∀ m ∈ c.marks, m ≤ c.bits.length

/-- The part of the invariant that holds whatever the phase. -/
structure State.Sound (s : State) : Prop where
  nobs_le : s.nobs ≤ 16
  wcnt_le : s.wcnt ≤ 1536
  cursor : s.cursor.Sound
  blk_wf : s.blk.wf
  blk_lt : ∀ c ∈ s.blk, c.1 < 6144
  wbuf_wf : s.wbuf.wf
  wbuf_lt : ∀ c ∈ s.wbuf, c.1 < 1536
  gate : s.desc.own = true → s.desc.valid = true ∧ ∃ ws, blkWords s.blk = some ws ∧ sumWords ws = Config.cksum

/-- R22, R30, R42, R104: what holds while a command is in progress. -/
structure State.Running (s : State) (o : Op) : Prop where
  res_none : s.res = .none
  legal : s.desc.len = 6144 ∧ s.desc.nsec = 1
  op_eq : s.op = o
  own_iff : s.desc.own = true ↔ o = .encode

/-- R25, R27, R28: what holds of a candidate. -/
structure State.Staged (s : State) : Prop where
  held : s.candHeld = true ∧ s.nobs = 16
  sum : ∃ ws, collect s.wbuf.read 0 s.wcnt = some ws ∧ s.sum = sumWords ws

/-- What a phase asks of the registers, besides `State.Sound`. -/
def State.Fits (s : State) : Phase → Prop
  | .idle => True
  | .dScan => s.Running .decode
  | .dRead => s.Running .decode ∧ s.Staged ∧ s.wcnt < 1536
  | .dCheck => s.Running .decode ∧ s.Staged ∧ s.wcnt = 1536
  | .dIndex => s.Running .decode ∧ s.Staged ∧ s.wcnt = 1536 ∧ s.sum = Config.cksum
  | .dCommit => s.Running .decode ∧ s.Staged ∧ s.wcnt = 1536 ∧ s.sum = Config.cksum ∧ s.totHeld = true
  | .eMark => s.Running .encode
  | .eWord => s.Running .encode ∧ s.wcnt < 1536

theorem State.Fits.running {s : State} {p : Phase} {o : Op} (h : s.Fits p) (ho : p.impliedOp = some o) : s.Running o := by
  cases p <;> cases ho
  case dScan | eMark => exact h
  all_goals exact h.1

theorem State.Fits.staged {s : State} {p : Phase} (h : s.Fits p) (hp : p.hasCandidate) : s.Staged := by
  rcases hp with rfl | rfl | rfl | rfl <;> exact h.2.1

theorem Phase.exists_impliedOp {p : Phase} (h : p ≠ .idle) : ∃ o, p.impliedOp = some o := by
  cases p <;> simp_all [Phase.impliedOp]

/-- The invariant gives what each phase asks for. -/
theorem State.Inv.fits {s : State} (h : s.Inv) : s.Fits s.phase := by
  have hrun (o : Op) (ho : s.phase.impliedOp = some o) (hp : s.phase ≠ .idle) : s.Running o :=
    ⟨h.res_none hp, h.legal hp, h.op_phase o ho, h.own_phase o ho⟩
  have hst (hp : s.phase.hasCandidate) : s.Staged := ⟨h.cand_held hp, h.sum_staged hp⟩
  have hlt := h.wcnt_lt
  have hall := h.all_read
  have hacc := h.accepted
  have htot := h.tot_held
  rcases hp : s.phase <;> simp only [hp, Phase.impliedOp, Phase.hasCandidate] at hrun hst hlt hall hacc htot
  case idle => trivial
  case dScan => exact hrun _ rfl (by simp)
  case dRead => exact ⟨hrun _ rfl (by simp), hst (by simp), hlt (by simp)⟩
  case dCheck => exact ⟨hrun _ rfl (by simp), hst (by simp), hall (by simp)⟩
  case dIndex => exact ⟨hrun _ rfl (by simp), hst (by simp), hall (by simp), hacc (by simp)⟩
  case dCommit => exact ⟨hrun _ rfl (by simp), hst (by simp), hall (by simp), hacc (by simp), htot trivial⟩
  case eMark => exact hrun _ rfl (by simp)
  case eWord => exact ⟨hrun _ rfl (by simp), hlt (by simp)⟩

theorem State.Inv.sound {s : State} (h : s.Inv) : s.Sound :=
  { h with cursor := ⟨h.pos_le, h.marks_le⟩ }

/-- The invariant is soundness and what the phase at hand asks for. -/
theorem inv_iff (s : State) : s.Inv ↔ s.Sound ∧ s.Fits s.phase := by
  refine ⟨fun h => ⟨h.sound, h.fits⟩, fun ⟨hs, hf⟩ => ?_⟩
  have hrun (hp : s.phase ≠ .idle) : ∃ o, s.Running o := (Phase.exists_impliedOp hp).imp fun o ho => hf.running ho
  exact
    { hs with
      pos_le := hs.cursor.pos_le
      marks_le := hs.cursor.marks_le
      wcnt_lt := by rintro (hp | hp) <;> rw [hp] at hf <;> simp [hf.2]
      res_none := fun hp => (hrun hp).elim fun _ h => h.res_none
      legal := fun hp => (hrun hp).elim fun _ h => h.legal
      op_phase := fun o ho => (hf.running ho).op_eq
      own_phase := fun o ho => (hf.running ho).own_iff
      cand_held := fun hp => (hf.staged hp).held
      sum_staged := fun hp => (hf.staged hp).sum
      all_read := by rintro (hp | hp | hp) <;> rw [hp] at hf <;> simp [hf.2]
      accepted := by rintro (hp | hp) <;> rw [hp] at hf <;> simp [hf.2]
      tot_held := fun hp => by rw [hp] at hf; simp [hf.2] }

theorem inv_idle {s : State} (hs : s.Sound) (hp : s.phase = .idle) : s.Inv := (inv_iff s).2 ⟨hs, hp ▸ trivial⟩

end Sys2Proof.Machine
end

section
/-! SUPPORT. What each cursor request and each register operation keeps of `State.Sound`, `State.Running`, `State.Staged`. -/

namespace Sys2Proof.Machine

/-- R171: a bit that was there lies in the capture. -/
theorem Cursor.Sound.advanced_bit {c : Cursor} (h : c.Sound) {b : Bool} (hb : c.bitAt c.pos = some b) :
    (c.advanced 1).Sound :=
  ⟨fun hc => c.pos_of_bit hc b hb, h.marks_le⟩

/-- R172: so do the 64 bits of a group. -/
theorem Cursor.Sound.advanced_group {c : Cursor} (h : c.Sound) {g : Group} (hg : c.upTo 64 = toBits g) :
    (c.advanced 64).Sound :=
  ⟨fun hc => c.pos_of_group hc g hg, h.marks_le⟩

/-- R172: with fewer bits left the cursor comes to the end. -/
theorem Cursor.Sound.advanced_short {c : Cursor} (h : c.Sound) (hl : (c.upTo 64).length < 64) :
    (c.advanced (c.upTo 64).length).Sound where
  pos_le hc := by
    have hpos := h.pos_le hc
    rw [(c.advanced_exhausted hc hl).2]
    exact max_le hpos le_rfl
  marks_le := h.marks_le

theorem State.Sound.setCursor {s : State} {c : Cursor} (h : s.Sound) (hc : c.Sound) : (setCursor c s).Sound :=
  { h with cursor := hc }

theorem State.Sound.raise {s : State} (h : s.Sound) (f : Failure) : (raise f s).Sound := { h with }

theorem State.Sound.setPhase {s : State} (h : s.Sound) (p : Phase) : (setPhase p s).Sound := { h with }

theorem State.Sound.observeBit {s : State} (h : s.Sound) (b : Bool) : (observeBit b s).Sound :=
  { h with nobs_le := by simp }

theorem State.Sound.beginCandidate {s : State} (h : s.Sound) (off : Int) : (beginCandidate off s).Sound :=
  { h with wcnt_le := Nat.zero_le _ }

theorem State.Sound.recordTotal {s : State} (h : s.Sound) (n : Nat) : (recordTotal n s).Sound := { h with }

theorem State.Sound.beginDecode {s : State} (h : s.Sound) : (beginDecode s).Sound :=
  { h with
    nobs_le := Nat.zero_le _
    wcnt_le := Nat.zero_le _
    wbuf_wf := List.Pairwise.nil
    wbuf_lt := by simp }

theorem State.Sound.beginEncode {s : State} (h : s.Sound) : (beginEncode s).Sound :=
  { h with wcnt_le := Nat.zero_le _ }

theorem State.Sound.takeCommand {s : State} (h : s.Sound) : (takeCommand s).Sound := { h with }

theorem State.Sound.emit {s : State} (h : s.Sound) (e : Emission) : (emit e s).Sound := { h with }

theorem State.Sound.clearCount {s : State} (h : s.Sound) : (clearCount s).Sound := { h with wcnt_le := Nat.zero_le _ }

theorem State.Sound.emitWord {s : State} (h : s.Sound) (w : Word) (hw : s.wcnt < 1536) : (emitWord w s).Sound :=
  { h with wcnt_le := hw }

theorem State.Sound.succeed {s : State} (h : s.Sound) : (succeed s).Sound := { h with }

theorem State.Sound.answer {s : State} (h : s.Sound) (a : Answer) : (answer a s).Sound := { h with }

theorem State.Sound.takeGroup {s : State} (h : s.Sound) (g : Group) (w : Word) (hw : s.wcnt < 1536) :
    (takeGroup g w s).Sound :=
  { h with
    nobs_le := le_rfl
    wcnt_le := hw
    wbuf_wf := Memory.wf_write _ _ _ h.wbuf_wf
    wbuf_lt := fun c hc => by
      rcases Memory.mem_write _ _ _ _ hc with rfl | hc
      · exact hw
      · exact h.wbuf_lt c hc }

/-- R174, R175: a seek stays in the capture. -/
theorem State.Sound.seekIndex {s : State} (h : s.Sound) : (seekIndex s).2.Sound := by
  obtain ⟨p, m, d, e, -, hp⟩ := seekIndex_spec s
  rw [e]
  refine { h with cursor := ⟨fun hc => ?_, h.cursor.marks_le⟩ }
  rcases hp hc with hm | rfl
  · exact h.cursor.marks_le hc p hm
  · exact max_le (h.cursor.pos_le hc) le_rfl

/-- R126, R238: a block of 1536 words that pass the gate is sound. -/
theorem State.Sound.populate {s : State} (h : s.Sound) (ws : List Word) (hl : ws.length = 1536)
    (hsum : sumWords ws = Config.cksum) : (populate ws s).Sound :=
  { h with
    blk_wf := Memory.wf_writeWords _ _ _ h.blk_wf
    blk_lt := Memory.mem_writeWords_lt ws s.blk 0 1536 h.blk_lt (by omega)
    gate := fun _ => ⟨rfl, ws, blkWords_writeWords _ _ hl, hsum⟩ }

/-- R127: one more word in the sum. -/
theorem sumWords_append_one (ws : List Word) (w : Word) : sumWords (ws ++ [w]) = sumWords ws + w := by simp [sumWords]

/-- R122: nothing is staged when a candidate begins. -/
theorem staged_beginCandidate (s : State) (off : Int) (hn : s.nobs = 16) : (beginCandidate off s).Staged :=
  ⟨⟨rfl, hn⟩, [], rfl, rfl⟩

/-- R25, R28: the word a group carries is staged behind the others and added. -/
theorem State.Staged.takeGroup {s : State} (h : s.Staged) (g : Group) (w : Word) : (takeGroup g w s).Staged := by
  obtain ⟨ws, hws, hsum⟩ := h.sum
  refine ⟨⟨h.held.1, rfl⟩, ws ++ [w], collect_succ _ _ _ _ _ ?_ (by simp), ?_⟩
  · rw [← hws]
    exact collect_congr _ _ _ _ fun j hj => Memory.read_write_other _ _ _ _ (by omega)
  · rw [takeGroup_sum, hsum, sumWords_append_one]

theorem State.Running.seekIndex {s : State} {o : Op} (h : s.Running o) : (seekIndex s).2.Running o := by
  obtain ⟨p, m, d, e, -⟩ := seekIndex_spec s
  rw [e]
  exact { h with }

theorem State.Staged.seekIndex {s : State} (h : s.Staged) : (seekIndex s).2.Staged := by
  obtain ⟨p, m, d, e, -⟩ := seekIndex_spec s
  rw [e]
  exact { h with }

@[simp] theorem seekIndex_phase (s : State) : (seekIndex s).2.phase = s.phase := by
  obtain ⟨p, m, d, e, -⟩ := seekIndex_spec s
  rw [e]

@[simp] theorem seekIndex_wcnt (s : State) : (seekIndex s).2.wcnt = s.wcnt := by
  obtain ⟨p, m, d, e, -⟩ := seekIndex_spec s
  rw [e]

@[simp] theorem seekIndex_sum (s : State) : (seekIndex s).2.sum = s.sum := by
  obtain ⟨p, m, d, e, -⟩ := seekIndex_spec s
  rw [e]

@[simp] theorem seekIndex_candHeld (s : State) : (seekIndex s).2.candHeld = s.candHeld := by
  obtain ⟨p, m, d, e, -⟩ := seekIndex_spec s
  rw [e]

end Sys2Proof.Machine
end

section
/-! SUPPORT. Every step rule, whole command, frame field and request keeps the invariant and faults nowhere. -/

namespace Sys2Proof.Machine

/-- An answer that is no fault, and whose next state is as wanted. -/
def Safely (P : State → Prop) : Answers State → Prop
  | .next t => P t
  | .fault _ => False
  | .refused _ => True

@[simp] theorem safely_next (P : State → Prop) (t : State) : Safely P (.next t) ↔ P t := Iff.rfl

@[simp] theorem safely_refused (P : State → Prop) (r : Refusal) : Safely P (.refused r) := trivial

theorem State.Running.setPhase {s : State} {o : Op} (h : s.Running o) (p : Phase) : (setPhase p s).Running o := { h with }

theorem State.Staged.setPhase {s : State} (h : s.Staged) (p : Phase) : (setPhase p s).Staged := { h with }

/-- What a phase asks for does not look at `PHASE` itself. -/
theorem State.Fits.setPhase {s : State} {p : Phase} (h : s.Fits p) (q : Phase) : (setPhase q s).Fits p := by
  cases p
  case idle => trivial
  case dScan | eMark => exact State.Running.setPhase h q
  case eWord => exact ⟨h.1.setPhase q, h.2⟩
  all_goals exact ⟨h.1.setPhase q, h.2.1.setPhase q, h.2.2⟩

/-! ### The steps of DECODE -/

/-- R122: what holds after a scanned bit, whatever follows it. -/
theorem observed_sound {s : State} (hs : s.Sound) (hr : s.Running .decode) (b : Bool)
    (hb : s.cursor.bitAt s.cursor.pos = some b) :
    (observeBit b (setCursor (s.cursor.advanced 1) s)).Sound ∧
      (observeBit b (setCursor (s.cursor.advanced 1) s)).Running .decode :=
  ⟨(hs.setCursor (hs.cursor.advanced_bit hb)).observeBit b, { hr with }⟩

/-- R122: a candidate that begins at a marker has all its words to come. -/
theorem candidate_sound {s : State} (hs : s.Sound) (hr : s.Running .decode) (hm : s.atMarker = true) (off : Int) :
    (beginCandidate off s).Sound ∧ (beginCandidate off s).Fits .dRead :=
  ⟨hs.beginCandidate off, { hr with }, staged_beginCandidate s off ((atMarker_iff s).1 hm).1, by simp⟩

/-- A command that goes on in a phase whose demands are met. -/
theorem inv_setPhase {s : State} {p : Phase} (hs : s.Sound) (hf : s.Fits p) : (setPhase p s).Inv :=
  (inv_iff _).2 ⟨hs.setPhase p, hf.setPhase p⟩

/-- R122: the scan step. -/
theorem scanStep_inv {s : State} (hs : s.Sound) (hr : s.Running .decode) : (scanStep s).Inv := by
  rcases scanStep_cases s with ⟨-, e⟩ | ⟨b, hb, ⟨hm, e⟩ | ⟨-, e⟩⟩ <;> rw [e]
  · exact inv_idle (hs.raise _) rfl
  · obtain ⟨hs', hr'⟩ := observed_sound hs hr b hb
    obtain ⟨hs', hf⟩ := candidate_sound hs' hr' hm (s.cursor.advanced 1).lastOffset
    exact inv_setPhase hs' hf
  · obtain ⟨hs', hr'⟩ := observed_sound hs hr b hb
    exact inv_setPhase hs' hr'

/-- R123: what holds after a group, whatever follows it. -/
theorem taken_sound {s : State} (hs : s.Sound) (hr : s.Running .decode) (hst : s.Staged) (hw : s.wcnt < 1536) (g : Group)
    (w : Word) (hg : s.cursor.upTo 64 = toBits g) :
    let u := takeGroup g w (setCursor (s.cursor.advanced 64) s)
    u.Sound ∧ u.Running .decode ∧ u.Staged := by
  have hst' : (setCursor (s.cursor.advanced 64) s).Staged := { hst with }
  exact ⟨(hs.setCursor (hs.cursor.advanced_group hg)).takeGroup g w hw, { hr with }, hst'.takeGroup g w⟩

/-- R123: the read step. -/
theorem readStep_safely {s : State} (hs : s.Sound) (hf : s.Fits .dRead) : Safely State.Inv (readStep s) := by
  obtain ⟨hr, hst, hw⟩ := hf
  rcases s.cursor.nextBytes_cases with ⟨g, hg, hn⟩ | ⟨hl, hn⟩ <;> simp only [readStep, hn]
  · obtain ⟨hs', hr', hst'⟩ := taken_sound hs hr hst hw g (s.theCodec.demod g) hg
    rw [readGroup, if_pos (by simpa using hw)]
    refine inv_setPhase hs' ?_
    rw [phaseAfterWord]
    split
    · next hlast => exact ⟨hr', hst', hlast⟩
    · next hmore => exact ⟨hr', hst', lt_of_le_of_ne hs'.wcnt_le hmore⟩
  · exact inv_idle ((hs.setCursor (hs.cursor.advanced_short hl)).raise _) rfl

theorem sumAccepted_iff (s : State) : s.sumAccepted = true ↔ s.sum = Config.cksum := by simp [State.sumAccepted]

/-- R124: the check step. -/
theorem checkStep_inv {s : State} (hs : s.Sound) (hf : s.Fits .dCheck) : (checkStep s).Inv := by
  obtain ⟨hr, hst, hw⟩ := hf
  rw [checkStep]
  split
  · next ha => exact inv_setPhase hs ⟨hr, hst, hw, (sumAccepted_iff s).1 ha⟩
  · exact inv_setPhase hs hr

/-- R125: the index step. -/
theorem indexStep_inv {s : State} (hs : s.Sound) (hf : s.Fits .dIndex) : (indexStep s).Inv := by
  obtain ⟨hr, hst, hw, hsum⟩ := hf
  rw [indexStep_eq]
  exact inv_setPhase (hs.seekIndex.recordTotal _)
    ⟨{ hr.seekIndex with }, { hst.seekIndex with }, by simpa using hw, by simpa using hsum, rfl⟩

/-- R126: the commit step, and the block it produces passes the gate (R238). -/
theorem commitStep_safely {s : State} (hs : s.Sound) (hf : s.Fits .dCommit) : Safely State.Inv (commitStep s) := by
  obtain ⟨-, hst, hw, hsum, ht⟩ := hf
  obtain ⟨ws, hws, hsum'⟩ := hst.sum
  rw [hw] at hws
  have hl : ws.length = 1536 := ((collect_eq_some _ _ _ _).1 hws).1
  rw [(commitStep_next s _).2 ⟨hst.held.1, ht, ws, hws, rfl⟩]
  exact inv_idle (hs.populate ws hl (hsum' ▸ hsum)).succeed rfl

/-! ### The steps of ENCODE -/

/-- R152: the marker step. -/
theorem markStep_inv {s : State} (hs : s.Sound) (hr : s.Running .encode) : (markStep s).Inv :=
  inv_setPhase (hs.emit _).clearCount ⟨{ hr with }, by simp⟩

/-- R153: the word step. -/
theorem wordStep_safely {s : State} (hs : s.Sound) (hf : s.Fits .eWord) : Safely State.Inv (wordStep s) := by
  obtain ⟨hr, hw⟩ := hf
  obtain ⟨-, ws, hws, -⟩ := hs.gate (hr.own_iff.2 rfl)
  have hl : ws.length = 1536 := ((collect_eq_some _ _ _ _).1 hws).1
  rw [wordStep, blkWord_of_blkWords s ws (hr.own_iff.2 rfl) hws s.wcnt (by omega), andThen_of_next, safely_next, afterWord]
  have hs' := hs.emitWord ws[s.wcnt] hw
  split
  · exact inv_idle hs'.succeed rfl
  · next hmore => exact inv_setPhase hs' ⟨{ hr with }, lt_of_le_of_ne hs'.wcnt_le hmore⟩

/-! ### The commands -/

theorem running_beginDecode {s : State} (h : s.readyToDecode) : (beginDecode s).Running .decode := by
  obtain ⟨-, hlen, hnsec, hown⟩ := h
  exact ⟨rfl, ⟨hlen, hnsec⟩, rfl, by simp [hown]⟩

/-- R121: the accept step of DECODE. -/
theorem acceptDecode_safely {s : State} (hs : s.Sound) : Safely State.Inv (acceptDecode s) := by
  rcases hd : decodeRefusal s with _ | r <;> simp only [acceptDecode, hd, safely_refused, safely_next]
  exact inv_setPhase hs.beginDecode.takeCommand { running_beginDecode ((decodeRefusal_none s).1 hd) with }

/-- R151: the accept step of ENCODE. -/
theorem acceptEncode_safely {s : State} (hs : s.Sound) : Safely State.Inv (acceptEncode s) := by
  rcases he : encodeRefusal s with _ | r <;> simp only [acceptEncode, he, safely_refused, safely_next]
  obtain ⟨-, hlen, hnsec, hown⟩ := (encodeRefusal_none s).1 he
  exact inv_setPhase hs.beginEncode.takeCommand ⟨rfl, ⟨hlen, hnsec⟩, rfl, by simpa using hown⟩

/-- R120, the loop over groups: the words left are staged, or `Truncated` is taken. -/
theorem readBody_sound (n : Nat) {s : State} (hs : s.Sound) (hr : s.Running .decode) (hst : s.Staged)
    (hn : s.wcnt + n = 1536) :
    (∀ u, readBody n s = .ok u → u.Sound ∧ u.Fits .dCheck) ∧ ∀ u, readBody n s = .error u → u.Inv := by
  induction n generalizing s with
  | zero => exact ⟨fun u h => by cases h; exact ⟨hs, hr, hst, hn⟩, fun u h => by cases h⟩
  | succ n ih =>
    rcases s.cursor.nextBytes_cases with ⟨g, hg, hb⟩ | ⟨hl, hb⟩ <;> simp only [readBody, hb]
    · obtain ⟨hs', hr', hst'⟩ := taken_sound hs hr hst (by omega) g (s.theCodec.demod g) hg
      exact ih hs' hr' hst' (by simp; omega)
    · refine ⟨fun u h => (by cases h), fun u h => ?_⟩
      cases h
      exact inv_idle ((hs.setCursor (hs.cursor.advanced_short hl)).raise _) rfl

/-- R120, R125, R126: the end of DECODE is the index step and the commit step. -/
theorem finishDecode_eq (s : State) (h : s.candHeld = true) : finishDecode s = commitStep (indexStep s) := by
  simp only [finishDecode, commitStep, indexStep_eq, setPhase_candHeld, setPhase_totHeld, setPhase_wbuf,
    recordTotal_candHeld, recordTotal_totHeld, recordTotal_wbuf, seekIndex_candHeld, h, Bool.and_self]
  cases stagedWords (seekIndex s).2.wbuf <;> rfl

/-- R120, the loop over attempts. -/
theorem attempts_safely (fuel : Nat) {s : State} (hs : s.Sound) (hr : s.Running .decode) :
    Safely State.Inv (attempts fuel s) := by
  induction fuel generalizing s with
  | zero => exact inv_setPhase hs hr
  | succ fuel ih =>
    rcases s.cursor.nextBit_cases with ⟨b, hb, h⟩ | ⟨-, h⟩ <;> simp only [attempts, h]
    · obtain ⟨hs', hr'⟩ := observed_sound hs hr b hb
      split
      · next hm =>
        obtain ⟨hs', hf⟩ := candidate_sound hs' hr' hm (s.cursor.advanced 1).lastOffset
        obtain ⟨hr', hst', -⟩ := hf
        obtain ⟨hok, herr⟩ := readBody_sound Config.nwords hs' hr' hst' rfl
        split
        · next u hu => exact herr u hu
        · next u hu =>
          obtain ⟨hs', hr', hst', hw⟩ := hok u hu
          split
          · next ha =>
            rw [finishDecode_eq u hst'.held.1]
            have hi := indexStep_inv hs' ⟨hr', hst', hw, (sumAccepted_iff u).1 ha⟩
            exact commitStep_safely hi.sound hi.fits
          · exact ih hs' hr'
      · exact ih hs' hr'
    · exact inv_idle ((hs.setCursor hs.cursor).raise _) rfl

/-- R120: DECODE as one function. -/
theorem decodeWhole_safely {s : State} (hs : s.Sound) : Safely State.Inv (decodeWhole s) := by
  rcases hd : decodeRefusal s with _ | r <;> simp only [decodeWhole, hd, safely_refused]
  exact attempts_safely _ hs.beginDecode (running_beginDecode ((decodeRefusal_none s).1 hd))

/-- R150: ENCODE as one function; its block has all its words, so it comes to its end. -/
theorem encodeWhole_safely {s : State} (hs : s.Sound) : Safely State.Inv (encodeWhole s) := by
  rcases he : encodeRefusal s with _ | r <;> simp only [encodeWhole, he, safely_refused]
  obtain ⟨-, -, -, hown⟩ := (encodeRefusal_none s).1 he
  obtain ⟨-, ws, hws, -⟩ := hs.gate hown
  have hl : ws.length = Config.nwords := ((collect_eq_some _ _ _ _).1 hws).1
  have hbody := encodeBody_next ws 0 (emitMarker (beginEncode s)) fun j hj => by
    rw [Nat.zero_add]
    exact blkWord_of_blkWords _ ws hown hws j hj
  rw [← hl, hbody]
  exact inv_idle { hs with wcnt_le := by simp [emitMarker, hl] } rfl

/-! ### The fields of a frame -/

/-- R122: a scanned field. -/
theorem scanBits_inv (n : Nat) {s : State} (h : s.Inv) : (scanBits n s).Inv := by
  induction n generalizing s with
  | zero => exact h
  | succ n ih =>
    rw [scanBits]
    split
    · next hp =>
      have hf := h.fits
      rw [hp] at hf
      exact ih (scanStep_inv h.sound hf)
    · exact h

theorem scanField_safely {s : State} (h : s.Inv) (field : List Bool) : Safely State.Inv (scanField field s) := by
  rw [scanField]
  split
  · exact scanBits_inv _ h
  · trivial

theorem execMark_safely {s : State} (h : s.Inv) : Safely State.Inv (execMark s) := by
  have hf := h.fits
  rcases hp : s.phase <;> simp only [execMark, hp]
  case dScan => exact scanField_safely h _
  case eMark => rw [hp] at hf; exact markStep_inv h.sound hf
  all_goals exact h

theorem readField_safely {s : State} (hs : s.Sound) (hf : s.Fits .dRead) (g : Group) :
    Safely State.Inv (readField g s) := by
  rw [readField]
  split
  · exact readStep_safely hs hf
  · trivial

theorem emitField_safely {s : State} (hs : s.Sound) (hf : s.Fits .eWord) (g : Group) :
    Safely State.Inv (emitField g s) := by
  have hw := wordStep_safely hs hf
  rw [emitField]
  rcases hb : blkWord s s.wcnt with w | r | r
  · rw [andThen_of_next]
    split
    · exact hw
    · trivial
  · simp [wordStep, hb, andThen, Safely] at hw
  · trivial

theorem execGrp_safely {s : State} (h : s.Inv) (g : Group) : Safely State.Inv (execGrp g s) := by
  have hf := h.fits
  rcases hp : s.phase <;> simp only [execGrp, hp] <;> rw [hp] at hf
  case dRead => exact readField_safely h.sound hf g
  case dScan => exact scanField_safely h _
  case eWord => exact emitField_safely h.sound hf g
  all_goals exact h

/-! ### The requests, in `IDLE` -/

theorem execNextBit_safely {s : State} (hs : s.Sound) (hp : s.phase = .idle) : Safely State.Inv (execNextBit s) := by
  rcases s.cursor.nextBit_cases with ⟨b, hb, h⟩ | ⟨-, h⟩ <;> simp only [execNextBit, h]
  · exact inv_idle ((hs.setCursor (hs.cursor.advanced_bit hb)).answer _) hp
  · exact inv_idle ((hs.setCursor hs.cursor).answer _) hp

theorem execNextBytes_safely {s : State} (hs : s.Sound) (hp : s.phase = .idle) :
    Safely State.Inv (execNextBytes s) := by
  rcases s.cursor.nextBytes_cases with ⟨g, hg, h⟩ | ⟨hl, h⟩ <;> simp only [execNextBytes, h]
  · exact inv_idle ((hs.setCursor (hs.cursor.advanced_group hg)).answer _) hp
  · exact inv_idle ((hs.setCursor (hs.cursor.advanced_short hl)).answer _) hp

theorem execOffset_safely {s : State} (hs : s.Sound) (hp : s.phase = .idle) : Safely State.Inv (execOffset s) := by
  rw [execOffset]
  split
  · trivial
  · exact inv_idle (hs.answer _) hp

theorem execSeekIndex_safely {s : State} (hs : s.Sound) (hp : s.phase = .idle) :
    Safely State.Inv (execSeekIndex s) :=
  inv_idle (hs.seekIndex.answer _) ((seekIndex_phase s).trans hp)

/-! ### Every instruction a step runs -/

/-- R21: the step rule of the phase at hand. -/
theorem exec_rule_safely {s : State} (h : s.Inv) (i : Instr) (hr : s.phase.rule = some i) :
    Safely State.Inv (exec i s) := by
  have hs := h.sound
  have hf := h.fits
  rcases hp : s.phase <;> rw [hp] at hf hr <;> cases hr
  case dScan => exact scanStep_inv hs hf
  case dRead => exact readStep_safely hs hf
  case dCheck => exact checkStep_inv hs hf
  case dIndex => exact indexStep_inv hs hf
  case dCommit => exact commitStep_safely hs hf
  case eMark => exact markStep_inv hs hf
  case eWord => exact wordStep_safely hs hf

/-- An instruction that can be issued (log 3). -/
theorem exec_issued_safely {s : State} (h : s.Inv) (i : Instr) (hstep : formatOf i ≠ .step)
    (hreq : formatOf i = .req → s.phase = .idle) : Safely State.Inv (exec i s) := by
  have hs := h.sound
  cases i with
  | acceptD | acceptE | dScan | dRead | dCheck | dIndex | dCommit | eMark | eWord => exact absurd rfl hstep
  | decode => exact decodeWhole_safely hs
  | encode => exact encodeWhole_safely hs
  | mark => exact execMark_safely h
  | grp g => exact execGrp_safely h g
  | nextBit => exact execNextBit_safely hs (hreq rfl)
  | nextBytes => exact execNextBytes_safely hs (hreq rfl)
  | offset => exact execOffset_safely hs (hreq rfl)
  | seekIndex => exact execSeekIndex_safely hs (hreq rfl)
  | demod g => exact inv_idle (hs.answer _) (hreq rfl)
  | mod p w => exact inv_idle (hs.answer _) (hreq rfl)
  | emitLit n v rate => exact inv_idle ((hs.emit _).answer _) (hreq rfl)
  | emitMod w rate => exact inv_idle ((hs.emit _).answer _) (hreq rfl)

/-- A step from a state that meets the invariant is no fault, and comes to a state that meets it. -/
theorem step_safely {s : State} (h : s.Inv) : Safely State.Inv (step s) := by
  rcases step_cases s with ⟨r, e⟩ | e | ⟨i, t, hi, e⟩ <;> rw [e]
  · trivial
  · exact h
  cases hi with
  | phaseRule _ _ hr => exact exec_rule_safely h i hr
  | acceptD => exact acceptDecode_safely h.sound
  | acceptE => exact acceptEncode_safely h.sound
  | issued _ _ _ hs hq =>
    have h' : ({ s with issue := none } : State).Inv := { h with }
    exact exec_issued_safely h' i hs hq

end Sys2Proof.Machine
end

section
/-! The statements about the invariant. -/

namespace Sys2Proof.Machine

/-- Settles O53, by the step lemma `step_safely`: each instruction asks of the registers what the phase that runs it gives. -/
theorem stepKeepsTheInvariant : Obligations.StepKeepsTheInvariant := by
  intro s t h hst
  simpa only [hst, safely_next] using step_safely h

/-- Settles O52: nothing has happened yet. -/
theorem resetMeetsTheInvariant : Obligations.ResetMeetsTheInvariant := by
  have hc : Cursor.empty.Sound := ⟨fun _ => le_rfl, by simp [Cursor.empty]⟩
  exact inv_idle
    { nobs_le := Nat.zero_le _
      wcnt_le := Nat.zero_le _
      cursor := hc
      blk_wf := reset_blk_wf
      blk_lt := by simp [State.reset]
      wbuf_wf := reset_wbuf_wf
      wbuf_lt := by simp [State.reset]
      gate := by simp [State.reset, Desc.created] } rfl

end Sys2Proof.Machine
end

section
/-! SUPPORT. What no instruction changes: the capture and the scheme; and what only the end of a DECODE changes: block and
descriptor. -/

namespace Sys2Proof.Machine

/-- R44, R176: two states of one cursor. -/
structure Cursor.SameStream (c d : Cursor) : Prop where
  bits : d.bits = c.bits
  marks : d.marks = c.marks
  origin : d.origin = c.origin
  kind : d.kind = c.kind

/-- R31, R32, R61, R63, R64: what an instruction leaves as it is. -/
structure State.SameScheme (s t : State) : Prop where
  stream : s.cursor.SameStream t.cursor
  codec : t.codec = s.codec
  len : t.desc.len = s.desc.len
  nsec : t.desc.nsec = s.desc.nsec
  sink : s.sink <+: t.sink

/-- R42: what is left as it is where no block is produced. -/
structure State.SameTrack (s t : State) : Prop where
  scheme : s.SameScheme t
  blk : t.blk = s.blk
  desc : t.desc = s.desc

theorem Cursor.SameStream.refl (c : Cursor) : c.SameStream c := ⟨rfl, rfl, rfl, rfl⟩

theorem Cursor.SameStream.trans {c d e : Cursor} (h : c.SameStream d) (h' : d.SameStream e) : c.SameStream e :=
  ⟨h'.bits.trans h.bits, h'.marks.trans h.marks, h'.origin.trans h.origin, h'.kind.trans h.kind⟩

theorem State.SameScheme.refl (s : State) : s.SameScheme s :=
  ⟨.refl _, rfl, rfl, rfl, List.prefix_rfl⟩

theorem State.SameScheme.trans {s t u : State} (h : s.SameScheme t) (h' : t.SameScheme u) : s.SameScheme u :=
  ⟨h.stream.trans h'.stream, h'.codec.trans h.codec, h'.len.trans h.len, h'.nsec.trans h.nsec, h.sink.trans h'.sink⟩

theorem State.SameTrack.refl (s : State) : s.SameTrack s := ⟨.refl s, rfl, rfl⟩

theorem State.SameTrack.trans {s t u : State} (h : s.SameTrack t) (h' : t.SameTrack u) : s.SameTrack u :=
  ⟨h.scheme.trans h'.scheme, h'.blk.trans h.blk, h'.desc.trans h.desc⟩

/-! ### Shared operations -/

theorem Cursor.sameStream_advanced (c : Cursor) (n : Nat) : c.SameStream (c.advanced n) := ⟨rfl, rfl, rfl, rfl⟩

theorem Cursor.sameStream_nextBit (c : Cursor) : c.SameStream c.nextBit.2 := by
  rcases c.nextBit_cases with ⟨b, -, h⟩ | ⟨-, h⟩ <;> rw [h]
  · exact c.sameStream_advanced 1
  · exact .refl c

theorem Cursor.sameStream_nextBytes (c : Cursor) : c.SameStream c.nextBytes.2 := by
  rcases c.nextBytes_cases with ⟨g, -, h⟩ | ⟨-, h⟩ <;> rw [h]
  · exact c.sameStream_advanced 64
  · exact c.sameStream_advanced _

theorem sameTrack_setCursor {s : State} {c : Cursor} (h : s.cursor.SameStream c) : s.SameTrack (setCursor c s) :=
  ⟨{ State.SameScheme.refl s with stream := h }, rfl, rfl⟩

theorem sameTrack_seekIndex (s : State) : s.SameTrack (seekIndex s).2 := by
  obtain ⟨p, m, d, e, -⟩ := seekIndex_spec s
  rw [e]
  exact ⟨{ State.SameScheme.refl s with stream := ⟨rfl, rfl, rfl, rfl⟩ }, rfl, rfl⟩

theorem sameTrack_emit (e : Emission) (s : State) : s.SameTrack (emit e s) :=
  ⟨{ State.SameScheme.refl s with sink := List.prefix_append _ _ }, rfl, rfl⟩

/-- The framer's registers are not looked at: a state that differs in them alone will do. -/
theorem State.SameScheme.registers {s t u : State} (h : s.SameScheme t) (hcursor : u.cursor = t.cursor := by rfl)
    (hcodec : u.codec = t.codec := by rfl) (hdesc : u.desc = t.desc := by rfl) (hsink : u.sink = t.sink := by rfl) :
    s.SameScheme u :=
  ⟨hcursor ▸ h.stream, hcodec ▸ h.codec, hdesc ▸ h.len, hdesc ▸ h.nsec, hsink ▸ h.sink⟩

theorem State.SameTrack.registers {s t u : State} (h : s.SameTrack t) (hcursor : u.cursor = t.cursor := by rfl)
    (hcodec : u.codec = t.codec := by rfl) (hdesc : u.desc = t.desc := by rfl) (hsink : u.sink = t.sink := by rfl)
    (hblk : u.blk = t.blk := by rfl) : s.SameTrack u :=
  ⟨h.scheme.registers hcursor hcodec hdesc hsink, hblk.trans h.blk, hdesc.trans h.desc⟩

/-- R126: the descriptor's `LEN` and `NSEC` are not among the fields a DECODE writes. -/
theorem State.SameScheme.populate {s t : State} (h : s.SameScheme t) (ws : List Word) : s.SameScheme (populate ws t) :=
  { h with }

theorem State.SameScheme.succeed {s t : State} (h : s.SameScheme t) : s.SameScheme (succeed t) := { h with }

/-! ### Step rules -/

theorem sameTrack_acceptDecode {s t : State} (h : acceptDecode s = .next t) : s.SameTrack t := by
  rcases hd : decodeRefusal s with _ | r <;> simp only [acceptDecode, hd] at h <;> cases h
  exact (State.SameTrack.refl s).registers

theorem sameTrack_acceptEncode {s t : State} (h : acceptEncode s = .next t) : s.SameTrack t := by
  rcases he : encodeRefusal s with _ | r <;> simp only [acceptEncode, he] at h <;> cases h
  exact (State.SameTrack.refl s).registers

theorem sameTrack_scanStep (s : State) : s.SameTrack (scanStep s) := by
  have hc := sameTrack_setCursor (s.cursor.sameStream_advanced 1)
  rcases scanStep_cases s with ⟨-, e⟩ | ⟨b, -, ⟨-, e⟩ | ⟨-, e⟩⟩ <;> rw [e]
  · exact (State.SameTrack.refl s).registers
  · exact hc.registers
  · exact hc.registers

theorem sameTrack_readStep {s t : State} (h : readStep s = .next t) : s.SameTrack t := by
  rcases readStep_next s t h with ⟨-, rfl⟩ | ⟨g, -, -, rfl⟩ <;>
    exact (sameTrack_setCursor (s.cursor.sameStream_advanced _)).registers

theorem sameTrack_checkStep (s : State) : s.SameTrack (checkStep s) := by
  rw [checkStep]
  split <;> exact (State.SameTrack.refl s).registers

theorem sameTrack_indexStep (s : State) : s.SameTrack (indexStep s) :=
  (sameTrack_seekIndex s).registers

theorem sameScheme_commitStep {s t : State} (h : commitStep s = .next t) : s.SameScheme t := by
  obtain ⟨-, -, ws, -, rfl⟩ := (commitStep_next s t).1 h
  exact ((State.SameScheme.refl s).populate ws).succeed

theorem sameTrack_markStep (s : State) : s.SameTrack (markStep s) := (sameTrack_emit _ s).registers

theorem sameTrack_emitWord (w : Word) (s : State) : s.SameTrack (emitWord w s) :=
  (sameTrack_emit _ s).registers

theorem sameTrack_wordStep {s t : State} (h : wordStep s = .next t) : s.SameTrack t := by
  obtain ⟨w, -, rfl⟩ := (wordStep_next s t).1 h
  rw [afterWord]
  split <;> exact (sameTrack_emitWord w s).registers

/-! ### The whole commands -/

theorem sameTrack_readBody_ok {n : Nat} {s t : State} (h : readBody n s = .ok t) : s.SameTrack t := by
  obtain ⟨-, e⟩ := readBody_ok n s t h
  rw [e]
  exact (sameTrack_setCursor (s.cursor.sameStream_advanced _)).registers

theorem sameTrack_readBody_error {n : Nat} {s t : State} (h : readBody n s = .error t) : s.SameTrack t := by
  obtain ⟨-, e⟩ := readBody_error n s t h
  rw [e]
  exact (sameTrack_setCursor (s.cursor.sameStream_advanced _)).registers

theorem sameScheme_finishDecode {s t : State} (h : finishDecode s = .next t) : s.SameScheme t := by
  simp only [finishDecode] at h
  have hr : s.SameScheme (recordTotal (seekIndex s).1 (seekIndex s).2) := (sameTrack_seekIndex s).scheme.registers
  split at h <;> cases h
  exact (hr.populate _).succeed

theorem sameScheme_attempts {fuel : Nat} {s t : State} (h : attempts fuel s = .next t) : s.SameScheme t := by
  induction fuel generalizing s with
  | zero =>
    cases h
    exact (State.SameScheme.refl s).registers
  | succ fuel ih =>
    have hstream := s.cursor.sameStream_nextBit
    rcases hn : s.cursor.nextBit with ⟨_ | b, c⟩ <;> simp only [attempts, hn] at h hstream
    · cases h
      exact (sameTrack_setCursor hstream).scheme.registers
    · have hobs : s.SameTrack (observeBit b (setCursor c s)) :=
        (sameTrack_setCursor hstream).registers
      split at h
      · have hcand : s.SameTrack (beginCandidate c.lastOffset (observeBit b (setCursor c s))) := hobs.registers
        split at h
        · next u hu => cases h; exact (hcand.trans (sameTrack_readBody_error hu)).scheme
        · next u hu =>
          have hbody := (hcand.trans (sameTrack_readBody_ok hu)).scheme
          split at h
          · exact hbody.trans (sameScheme_finishDecode h)
          · exact hbody.trans (ih h)
      · exact hobs.scheme.trans (ih h)

theorem sameScheme_decodeWhole {s t : State} (h : decodeWhole s = .next t) : s.SameScheme t := by
  rcases hd : decodeRefusal s with _ | r <;> simp only [decodeWhole, hd] at h
  · have hb : s.SameScheme (beginDecode s) := (State.SameScheme.refl s).registers
    exact hb.trans (sameScheme_attempts h)
  · cases h

theorem sameTrack_encodeBody {left i : Nat} {s t : State} (h : encodeBody left i s = .next t) : s.SameTrack t := by
  induction left generalizing i s with
  | zero =>
    cases h
    exact (State.SameTrack.refl s).registers
  | succ left ih =>
    obtain ⟨w, -, hw⟩ := andThen_next.1 h
    exact (sameTrack_emitWord w s).trans (ih hw)

theorem sameTrack_encodeWhole {s t : State} (h : encodeWhole s = .next t) : s.SameTrack t := by
  rcases he : encodeRefusal s with _ | r <;> simp only [encodeWhole, he] at h
  · have hb : s.SameTrack (beginEncode s) := (State.SameTrack.refl s).registers
    exact (hb.trans (sameTrack_emit _ _)).trans (sameTrack_encodeBody h)
  · cases h

/-! ### Frame fields and requests -/

theorem sameTrack_scanField {s t : State} {field : List Bool} (h : scanField field s = .next t) : s.SameTrack t := by
  have hbits (n : Nat) (u : State) : u.SameTrack (scanBits n u) := by
    induction n generalizing u with
    | zero => exact .refl u
    | succ n ih =>
      rw [scanBits]
      split
      · exact (sameTrack_scanStep u).trans (ih _)
      · exact .refl u
  rw [scanField] at h
  split at h <;> cases h
  exact hbits _ s

theorem sameTrack_execMark {s t : State} (h : execMark s = .next t) : s.SameTrack t := by
  rcases hp : s.phase <;> simp only [execMark, hp] at h
  case dScan => exact sameTrack_scanField h
  case eMark => cases h; exact sameTrack_markStep s
  all_goals cases h; exact .refl _

theorem sameTrack_execGrp {g : Group} {s t : State} (h : execGrp g s = .next t) : s.SameTrack t := by
  rcases hp : s.phase <;> simp only [execGrp, hp] at h
  case dRead =>
    rw [readField] at h
    split at h
    · exact sameTrack_readStep h
    · cases h
  case dScan => exact sameTrack_scanField h
  case eWord =>
    obtain ⟨w, -, hw⟩ := andThen_next.1 h
    split at hw
    · exact sameTrack_wordStep hw
    · cases hw
  all_goals cases h; exact .refl _

theorem sameTrack_execNextBit {s t : State} (h : execNextBit s = .next t) : s.SameTrack t := by
  have hstream := s.cursor.sameStream_nextBit
  rcases hn : s.cursor.nextBit with ⟨_ | b, c⟩ <;> simp only [execNextBit, hn] at h hstream <;> cases h <;>
    exact (sameTrack_setCursor hstream).registers

theorem sameTrack_execNextBytes {s t : State} (h : execNextBytes s = .next t) : s.SameTrack t := by
  have hstream := s.cursor.sameStream_nextBytes
  rcases hn : s.cursor.nextBytes with ⟨_ | g, c⟩ <;> simp only [execNextBytes, hn] at h hstream <;> cases h <;>
    exact (sameTrack_setCursor hstream).registers

theorem sameTrack_execOffset {s t : State} (h : execOffset s = .next t) : s.SameTrack t := by
  rw [execOffset] at h
  split at h <;> cases h
  exact (State.SameTrack.refl s).registers

/-! ### Every instruction, and a step -/

/-- No instruction changes the capture or the scheme, from any state. -/
theorem exec_sameScheme {i : Instr} {s t : State} (h : exec i s = .next t) : s.SameScheme t := by
  cases i with
  | decode => exact sameScheme_decodeWhole h
  | encode => exact (sameTrack_encodeWhole h).scheme
  | mark => exact (sameTrack_execMark h).scheme
  | grp g => exact (sameTrack_execGrp h).scheme
  | acceptD => exact (sameTrack_acceptDecode h).scheme
  | acceptE => exact (sameTrack_acceptEncode h).scheme
  | dScan => cases h; exact (sameTrack_scanStep s).scheme
  | dRead => exact (sameTrack_readStep h).scheme
  | dCheck => cases h; exact (sameTrack_checkStep s).scheme
  | dIndex => cases h; exact (sameTrack_indexStep s).scheme
  | dCommit => exact sameScheme_commitStep h
  | eMark => cases h; exact (sameTrack_markStep s).scheme
  | eWord => exact (sameTrack_wordStep h).scheme
  | nextBit => exact (sameTrack_execNextBit h).scheme
  | nextBytes => exact (sameTrack_execNextBytes h).scheme
  | offset => exact (sameTrack_execOffset h).scheme
  | seekIndex => cases h; exact (sameTrack_seekIndex s).scheme.registers
  | demod g => cases h; exact (State.SameScheme.refl s).registers
  | mod p w => cases h; exact (State.SameScheme.refl s).registers
  | emitLit n v rate => cases h; exact (sameTrack_emit _ s).scheme.registers
  | emitMod w rate => cases h; exact (sameTrack_emit _ s).scheme.registers

theorem step_sameScheme {s t : State} (h : step s = .next t) : s.SameScheme t := by
  rcases step_cases s with ⟨r, e⟩ | e | ⟨i, u, hi, e⟩ <;> rw [e] at h
  · cases h
  · cases h; exact .refl s
  cases hi with
  | phaseRule | acceptD | acceptE => exact exec_sameScheme h
  | issued =>
    have hu : s.SameTrack { s with issue := none } := (State.SameTrack.refl s).registers
    exact hu.scheme.trans (exec_sameScheme h)

/-- R42, R71: a step rule that is not the commit leaves block and descriptor. -/
theorem sameTrack_rule {p : Phase} {i : Instr} {s t : State} (hr : p.rule = some i) (hp : p ≠ .dCommit)
    (h : exec i s = .next t) : s.SameTrack t := by
  cases p <;> cases hr
  case dScan => cases h; exact sameTrack_scanStep s
  case dRead => exact sameTrack_readStep h
  case dCheck => cases h; exact sameTrack_checkStep s
  case dIndex => cases h; exact sameTrack_indexStep s
  case dCommit => exact absurd rfl hp
  case eMark => cases h; exact sameTrack_markStep s
  case eWord => exact sameTrack_wordStep h

/-- R42: with nothing issued, a step leaves block and descriptor, or is the commit step. -/
theorem step_sameTrack_or_commit {s t : State} (hi : s.issue = none) (h : step s = .next t) :
    s.SameTrack t ∨ (s.phase = .dCommit ∧ commitStep s = .next t) := by
  rcases step_cases s with ⟨r, e⟩ | e | ⟨i, u, hu, e⟩ <;> rw [e] at h
  · cases h
  · cases h; exact .inl (.refl s)
  cases hu with
  | acceptD => exact .inl (sameTrack_acceptDecode h)
  | acceptE => exact .inl (sameTrack_acceptEncode h)
  | issued _ it hit => rw [hi] at hit; cases hit
  | phaseRule _ _ hr =>
    by_cases hp : s.phase = .dCommit
    · rw [hp] at hr
      cases hr
      exact .inr ⟨hp, h⟩
    · exact .inl (sameTrack_rule hr hp h)

end Sys2Proof.Machine
end

section
/-! The statements about what steps leave unchanged. -/

namespace Sys2Proof.Machine

/-- Settles O54, from `exec_sameScheme`: it holds instruction by instruction. -/
theorem noStepChangesTheCaptureOrTheScheme : Obligations.NoStepChangesTheCaptureOrTheScheme := by
  intro s t h
  obtain ⟨⟨hbits, hmarks, horigin, hkind⟩, hcodec, hlen, hnsec, hsink⟩ := step_sameScheme h
  exact ⟨hbits, hmarks, horigin, hkind, hcodec, hlen, hnsec, hsink⟩

/-- Settles O55: every other step rule leaves the track (`step_sameTrack_or_commit`), and the commit ends the command. -/
theorem blockChangesOnlyInTheCommitStep : Obligations.BlockChangesOnlyInTheCommitStep := by
  intro s t hi h hne
  rcases step_sameTrack_or_commit hi h with ht | ⟨hp, hc⟩
  · exact absurd hne (by simp [ht.blk, ht.desc])
  · obtain ⟨-, -, ws, -, rfl⟩ := (commitStep_next s t).1 hc
    exact ⟨hp, rfl, rfl⟩

end Sys2Proof.Machine
end

section
/-! SUPPORT. State that holds no value, and addresses that do not exist. -/

namespace Sys2Proof.Machine

/-- Collecting stops at an entry that is missing. -/
theorem collect_eq_none {α : Type} (f : Nat → Option α) (i n j : Nat) (hj : j < n) (h : f (i + j) = none) :
    collect f i n = none := by
  rcases hc : collect f i n with _ | l
  · rfl
  · obtain ⟨hl, hf⟩ := (collect_eq_some _ _ _ _).1 hc
    have hsome := hf j (by omega)
    rw [h] at hsome
    cases hsome

/-- R43: the commit step without one of the values it reads. -/
theorem commitStep_unwritten (s : State)
    (h : s.candHeld = false ∨ s.totHeld = false ∨ ∃ i < 1536, s.wbuf.read i = none) :
    commitStep s = .refused .unwrittenRead := by
  rcases h with h | h | ⟨i, hi, h⟩
  · simp [commitStep, h]
  · simp [commitStep, h]
  · have hst : stagedWords s.wbuf = none := collect_eq_none _ 0 _ i hi (by rwa [Nat.zero_add])
    simp [commitStep, hst]

/-- R43: a word is there only with its four bytes. -/
theorem readWord_eq_none (m : Memory Byte) (a k : Nat) (hk : k < 4) (h : m.read (a + k) = none) :
    m.readWord a = none := by
  interval_cases k <;> simp_all [Memory.readWord]

theorem blkWord_unpopulated (s : State) (i : Nat) (h : s.desc.own = false) : blkWord s i = .refused .unwrittenRead := by
  rw [blkWord, if_pos h]

theorem blkWord_unwritten (s : State) (i : Nat) (ho : s.desc.own = true) (hi : i < 1536)
    (h : s.blk.readWord (4 * i) = none) : blkWord s i = .refused .unwrittenRead := by
  rw [blkWord, if_neg (by simp [ho]), if_neg (by simp only [Config.len]; omega), h]

theorem blkWord_outside (s : State) (i : Nat) (ho : s.desc.own = true) (hi : 1536 ≤ i) :
    blkWord s i = .fault .blkAddress := by
  rw [blkWord, if_neg (by simp [ho]), if_pos (by simp only [Config.len]; omega)]

theorem wordStep_refused (s : State) (r : Refusal) (h : blkWord s s.wcnt = .refused r) : wordStep s = .refused r := by
  rw [wordStep, h, andThen]

theorem wordStep_fault (s : State) (r : Fault) (h : blkWord s s.wcnt = .fault r) : wordStep s = .fault r := by
  rw [wordStep, h, andThen]

/-- R28: a group with no entry of `WBUF` left for its word. -/
theorem readStep_outside (s : State) (g : Group) (hw : 1536 ≤ s.wcnt) (hg : s.cursor.upTo 64 = toBits g) :
    readStep s = .fault .wbufIndex := by
  simp only [readStep, s.cursor.nextBytes_some g hg]
  rw [readGroup, if_neg (by simpa using hw)]

end Sys2Proof.Machine
end

section
/-! The statements about unwritten state and nonexistent addresses. -/

namespace Sys2Proof.Machine

/-- Settles O15: `commitStep` and `blkWord` ask for each value before they use it. -/
theorem unwrittenStateIsNotRead : Obligations.UnwrittenStateIsNotRead := by
  refine ⟨commitStep_unwritten, fun s ho => ?_, fun s k ho hw hk h => ?_⟩
  · exact wordStep_refused s _ (blkWord_unpopulated s _ ho)
  · exact wordStep_refused s _ (blkWord_unwritten s _ ho hw (readWord_eq_none _ _ k hk h))

/-- Settles O16: the two faults by their address, and `step_safely` for the states that meet the invariant. -/
theorem nonexistentAddressesFault : Obligations.NonexistentAddressesFault := by
  refine ⟨readStep_outside, fun s ho hw => ?_, fun s r h hf => ?_⟩
  · exact wordStep_fault s _ (blkWord_outside s _ ho hw)
  · have hsafe := step_safely h
    rwa [hf] at hsafe

end Sys2Proof.Machine
end

section
/-! SUPPORT. What each access of the host answers. -/

namespace Sys2Proof.Machine

/-- R75, R240: in `IDLE` the host has its access. -/
theorem whenIdle_idle {α : Type} (s : State) (a : Answers α) (h : s.phase = .idle) : whenIdle s a = a := if_pos h

/-- R75, R240: while a command runs it has none. -/
theorem whenIdle_running {α : Type} (s : State) (a : Answers α) (h : s.phase ≠ .idle) :
    whenIdle s a = .refused .sharedAccess := if_neg h

theorem hostPresent_known (s : State) (code : Byte) (hp : s.phase = .idle) (hc : code = 0#8 ∨ code = 1#8) :
    hostPresent code s = .next { s with cmd := some code } := by
  rw [hostPresent, if_neg (by simp [hp])]
  rcases hc with rfl | rfl <;> rfl

/-- R102: a code above 1 is no command. -/
theorem decodeCmd_unknown (code : Byte) (h : 2 ≤ code.toNat) : decodeCmd [code] = .error .unknownCommand := by
  obtain ⟨n, hn⟩ : ∃ n, code.toNat = n + 2 := ⟨code.toNat - 2, by omega⟩
  have hnat : natOfBytes [code] = n + 2 := by simp [natOfBytes, hn]
  simp [decodeCmd, takeNat, hnat, bind, Except.bind, throw, throwThe, MonadExceptOf.throw]

theorem hostPresent_unknown (s : State) (code : Byte) (hp : s.phase = .idle) (hc : 2 ≤ code.toNat) :
    hostPresent code s = .refused .unknownCommand := by
  rw [hostPresent, if_neg (by simp [hp]), decodeCmd_unknown code hc]

theorem hostPresent_busy (s : State) (code : Byte) (hp : s.phase ≠ .idle) : hostPresent code s = .refused .busy :=
  if_pos hp

theorem hostReadBlk_outside (s : State) (a : Nat) (hp : s.phase = .idle) (ha : 6144 ≤ a) :
    hostReadBlk a s = .fault .blkAddress := by
  rw [hostReadBlk, whenIdle_idle _ _ hp, if_pos ha]

theorem hostReadBlk_unpopulated (s : State) (a : Nat) (hp : s.phase = .idle) (ho : s.desc.own = false) (ha : a < 6144) :
    hostReadBlk a s = .refused .unwrittenRead := by
  rw [hostReadBlk, whenIdle_idle _ _ hp, if_neg (by simpa using ha), if_pos ho]

/-- R43: in a populated block the host reads the byte that is there, if any. -/
theorem hostReadBlk_populated (s : State) (a : Nat) (hp : s.phase = .idle) (ho : s.desc.own = true) (ha : a < 6144) :
    hostReadBlk a s = ((s.blk.read a).map Host.Outcome.next).getD (.refused .unwrittenRead) := by
  rw [hostReadBlk, whenIdle_idle _ _ hp, if_neg (by simpa using ha), if_neg (by simp [ho])]
  cases s.blk.read a <;> rfl

end Sys2Proof.Machine
end

section
/-! The statements about reset and the host port. -/

namespace Sys2Proof.Machine

/-- Settles O51: `State.reset` written out; nothing is listed in its stores, so every read of them finds nothing. -/
theorem resetLeavesTheStatedValues : Obligations.ResetLeavesTheStatedValues :=
  ⟨rfl, rfl, rfl, rfl, rfl, rfl, rfl, rfl, fun _ => rfl, rfl, rfl, rfl, rfl, fun _ => rfl, reset_blk_wf, reset_wbuf_wf⟩

/-- Settles O58: `powerOn` is `State.reset` with the host's fields put back. -/
theorem powerOnLeavesTheHostsMatter : Obligations.PowerOnLeavesTheHostsMatter := fun _ =>
  ⟨⟨rfl, rfl, rfl, rfl, rfl, rfl, rfl, rfl, fun _ => rfl⟩, rfl, rfl, rfl, rfl, rfl, rfl⟩

/-- Settles O57, access by access: `whenIdle` decides by the phase, `OWN` and the address decide the rest. -/
theorem hostReadsOnlyWhatIsThere : Obligations.HostReadsOnlyWhatIsThere := by
  intro s
  refine ⟨fun hp => ?_, fun hp ho => ?_, fun hp ho => ?_, fun hp => ?_⟩
  · exact ⟨whenIdle_idle _ _ hp, whenIdle_idle _ _ hp, whenIdle_idle _ _ hp, whenIdle_idle _ _ hp,
      fun _ _ => whenIdle_idle _ _ hp, fun _ => whenIdle_idle _ _ hp, fun _ => whenIdle_idle _ _ hp,
      fun _ => whenIdle_idle _ _ hp, fun code hc => hostPresent_known s code hp hc,
      fun code hc => hostPresent_unknown s code hp hc, fun a ha => hostReadBlk_outside s a hp ha⟩
  · refine ⟨?_, ?_, fun a b ha hb => ?_, fun a ha hb => ?_⟩
    · rw [hostReadDataBitoff, whenIdle_idle _ _ hp, if_pos ho]
    · rw [hostReadTotalBits, whenIdle_idle _ _ hp, if_pos ho]
    · rw [hostReadBlk_populated s a hp ho ha, hb]; rfl
    · rw [hostReadBlk_populated s a hp ho ha, hb]; rfl
  · refine ⟨?_, ?_, fun a ha => hostReadBlk_unpopulated s a hp ho ha⟩
    · rw [hostReadDataBitoff, whenIdle_idle _ _ hp, if_neg (by simp [ho])]
    · rw [hostReadTotalBits, whenIdle_idle _ _ hp, if_neg (by simp [ho])]
  · exact ⟨whenIdle_running _ _ hp, whenIdle_running _ _ hp, whenIdle_running _ _ hp, whenIdle_running _ _ hp,
      whenIdle_running _ _ hp, fun _ => whenIdle_running _ _ hp, whenIdle_running _ _ hp,
      fun _ _ => whenIdle_running _ _ hp, fun _ => whenIdle_running _ _ hp, fun _ => whenIdle_running _ _ hp,
      fun _ => whenIdle_running _ _ hp, fun code => hostPresent_busy s code hp⟩

end Sys2Proof.Machine
end

section
/-! SUPPORT. Index seeks on a stream: the mark a seek runs to, the mark it counts from, and what `SEEK_INDEX` makes of them. -/

namespace Sys2Proof.Machine

/-! ### The marks around a place -/

/-- R176 `base` by its bounds: it is no greater than what no earlier mark exceeds. -/
theorem markBelow_le_iff (marks : List Nat) (p x : Nat) : markBelow marks p ≤ x ↔ ∀ m ∈ marks, m < p → m ≤ x := by
  have hfold (l : List Nat) (a : Nat) : l.foldl max a ≤ x ↔ a ≤ x ∧ ∀ m ∈ l, m ≤ x := by
    induction l generalizing a with
    | nil => simp
    | cons m l ih => simp [ih, and_assoc]
  simp [markBelow, hfold]

/-- R176: a mark before a place is no greater than the place's base. -/
theorem le_markBelow (marks : List Nat) (p m : Nat) (hm : m ∈ marks) (hp : m < p) : m ≤ markBelow marks p :=
  (markBelow_le_iff marks p _).1 le_rfl m hm hp

/-- R176: the model's `base` is the spec's. -/
theorem markBelow_of_isBase (marks : List Nat) (p b : Nat) (h : isBase marks p b) : markBelow marks p = b := by
  rcases h with ⟨hb, hlt, hmax⟩ | ⟨rfl, hnone⟩
  · exact le_antisymm ((markBelow_le_iff _ _ _).2 hmax) (le_markBelow marks p b hb hlt)
  · exact Nat.le_zero.1 ((markBelow_le_iff _ _ _).2 fun m hm hlt => absurd (hnone m hm) (by omega))

/-- R176: right behind a mark, that mark is the base. -/
theorem isBase_succ_of_mem (marks : List Nat) (m : Nat) (h : m ∈ marks) : isBase marks (m + 1) m :=
  .inl ⟨h, Nat.lt_succ_self m, fun _ _ hlt => Nat.le_of_lt_succ hlt⟩

/-! ### `SEEK_INDEX` on a stream -/

/-- R174, R176: with bits delivered and a mark ahead, a seek answers the revolution which that mark completes. -/
theorem exec_seekIndex_mark (s : State) (m b : Nat) (hc : s.cursor.seekIndex = s.cursor.seekStream)
    (hp : 1 ≤ s.cursor.pos) (hm : isNextMark s.cursor.marksTo s.cursor.passed m)
    (hb : isBase s.cursor.marksTo s.cursor.passed b) :
    exec .seekIndex s = .next (answer (.length (m - b)) (setCursor (s.cursor.atMark m) s)) := by
  have hpos : s.cursor.pos ≠ 0 := by omega
  have hseek : s.cursor.seekStream = (some (m - b), s.cursor.atMark m) := by
    simp only [Cursor.seekStream, (markFrom_some _ _ _).2 hm, if_neg hpos, markBelow_of_isBase _ _ _ hb]
  simp only [exec, execSeekIndex, seekIndex, hc, hseek]

/-- R174, U1: with no mark ahead, a seek exhausts the stream and answers the next draw. -/
theorem exec_seekIndex_end (s : State) (hc : s.cursor.seekIndex = s.cursor.seekStream)
    (hm : ∀ m ∈ s.cursor.marksTo, m < s.cursor.passed) :
    exec .seekIndex s = .next
      { s with
        cursor := { s.cursor with pos := max s.cursor.pos s.cursor.bits.length },
        ans := .length (Config.indexMissingLen s.draws), draws := s.draws + 1 } := by
  have hseek : s.cursor.seekStream = (none, { s.cursor with pos := max s.cursor.pos s.cursor.bits.length }) := by
    simp only [Cursor.seekStream, (markFrom_none _ _).2 hm]
  simp only [exec, execSeekIndex, seekIndex, hc, hseek]
  rfl

/-! ### A stream whose seeks consume their marks (log 22) -/

theorem Cursor.seekIndex_consuming (c : Cursor) (h : c.kind = .consuming) : c.seekIndex = c.seekStream := by
  simp only [Cursor.seekIndex, h]

theorem Cursor.marksTo_consuming (c : Cursor) (h : c.kind = .consuming) : c.marksTo = c.marks := by
  simp only [Cursor.marksTo, h]

theorem Cursor.passed_consuming (c : Cursor) (h : c.kind = .consuming) : c.passed = max c.pos c.memo := by
  simp only [Cursor.passed, h]

theorem Cursor.atMark_consuming (c : Cursor) (h : c.kind = .consuming) (m : Nat) :
    c.atMark m = { c with pos := m, memo := m + 1 } := by
  simp only [Cursor.atMark, h]

/-- `exec_seekIndex_mark` where seeks consume their marks, `p` the place below which marks have passed. -/
theorem exec_seekIndex_consuming_mark (s : State) (p m b : Nat) (hk : s.cursor.kind = .consuming)
    (hpos : 1 ≤ s.cursor.pos) (hp : max s.cursor.pos s.cursor.memo = p) (hm : isNextMark s.cursor.marks p m)
    (hb : isBase s.cursor.marks p b) :
    exec .seekIndex s = .next
      { s with cursor := { s.cursor with pos := m, memo := m + 1 }, ans := .length (m - b) } := by
  rw [← hp, ← s.cursor.passed_consuming hk, ← s.cursor.marksTo_consuming hk] at hm hb
  rw [exec_seekIndex_mark s m b (s.cursor.seekIndex_consuming hk) hpos hm hb, s.cursor.atMark_consuming hk]
  rfl

/-- `exec_seekIndex_end` where seeks consume their marks, from a place in the capture. -/
theorem exec_seekIndex_consuming_end (s : State) (hk : s.cursor.kind = .consuming)
    (hm : ∀ m ∈ s.cursor.marks, m < max s.cursor.pos s.cursor.memo) (hlen : s.cursor.pos ≤ s.cursor.bits.length) :
    exec .seekIndex s = .next
      { s with
        cursor := { s.cursor with pos := s.cursor.bits.length },
        ans := .length (Config.indexMissingLen s.draws), draws := s.draws + 1 } := by
  rw [← s.cursor.passed_consuming hk, ← s.cursor.marksTo_consuming hk] at hm
  rw [exec_seekIndex_end s (s.cursor.seekIndex_consuming hk) hm, max_eq_right hlen]

end Sys2Proof.Machine
end

section
/-! SUPPORT. R61, R175: no instruction moves the cursor backwards, from any state. -/

namespace Sys2Proof.Machine

/-! ### The requests and the step rules -/

theorem Cursor.pos_le_nextBit (c : Cursor) : c.pos ≤ c.nextBit.2.pos := by
  rcases c.nextBit_cases with ⟨b, -, h⟩ | ⟨-, h⟩ <;> simp [h]

theorem Cursor.pos_le_nextBytes (c : Cursor) : c.pos ≤ c.nextBytes.2.pos := by
  rcases c.nextBytes_cases with ⟨g, -, h⟩ | ⟨-, h⟩ <;> simp [h]

theorem pos_le_seekIndex (s : State) : s.cursor.pos ≤ (seekIndex s).2.cursor.pos := by
  obtain ⟨p, m, d, e, hp, -⟩ := seekIndex_spec s
  rwa [e]

theorem pos_le_scanStep (s : State) : s.cursor.pos ≤ (scanStep s).cursor.pos := by
  rcases scanStep_cases s with ⟨-, e⟩ | ⟨b, -, ⟨-, e⟩ | ⟨-, e⟩⟩ <;> simp [e]

theorem pos_le_readStep {s t : State} (h : readStep s = .next t) : s.cursor.pos ≤ t.cursor.pos := by
  rcases readStep_next s t h with ⟨-, rfl⟩ | ⟨g, -, -, rfl⟩ <;> simp

theorem cursor_acceptDecode {s t : State} (h : acceptDecode s = .next t) : t.cursor = s.cursor := by
  rcases hd : decodeRefusal s with _ | r <;> simp only [acceptDecode, hd] at h <;> cases h
  rfl

theorem cursor_acceptEncode {s t : State} (h : acceptEncode s = .next t) : t.cursor = s.cursor := by
  rcases he : encodeRefusal s with _ | r <;> simp only [acceptEncode, he] at h <;> cases h
  rfl

theorem cursor_checkStep (s : State) : (checkStep s).cursor = s.cursor := by
  rw [checkStep]
  split <;> rfl

theorem cursor_commitStep {s t : State} (h : commitStep s = .next t) : t.cursor = s.cursor := by
  obtain ⟨-, -, ws, -, rfl⟩ := (commitStep_next s t).1 h
  rfl

theorem cursor_wordStep {s t : State} (h : wordStep s = .next t) : t.cursor = s.cursor := by
  obtain ⟨w, -, rfl⟩ := (wordStep_next s t).1 h
  rw [afterWord]
  split <;> rfl

/-! ### The whole commands -/

theorem pos_le_finishDecode {s t : State} (h : finishDecode s = .next t) : s.cursor.pos ≤ t.cursor.pos := by
  simp only [finishDecode] at h
  split at h <;> cases h
  exact pos_le_seekIndex s

theorem pos_le_readBody_ok {n : Nat} {s t : State} (h : readBody n s = .ok t) : s.cursor.pos ≤ t.cursor.pos := by
  obtain ⟨-, e⟩ := readBody_ok n s t h
  rw [e]
  exact Nat.le_add_right _ _

theorem pos_le_readBody_error {n : Nat} {s t : State} (h : readBody n s = .error t) : s.cursor.pos ≤ t.cursor.pos := by
  obtain ⟨-, e⟩ := readBody_error n s t h
  rw [e]
  exact Nat.le_add_right _ _

/-- R120: over the attempts of a DECODE, each bit, each candidate's groups and the seek at the end go forward. -/
theorem pos_le_attempts {fuel : Nat} {s t : State} (h : attempts fuel s = .next t) : s.cursor.pos ≤ t.cursor.pos := by
  induction fuel generalizing s with
  | zero => cases h; exact le_rfl
  | succ fuel ih =>
    have hbit := s.cursor.pos_le_nextBit
    rcases hn : s.cursor.nextBit with ⟨_ | b, c⟩ <;> simp only [attempts, hn] at h hbit
    · cases h; exact hbit
    refine hbit.trans ?_
    split at h
    · split at h
      · next u hu => cases h; exact pos_le_readBody_error hu
      · next u hu =>
        refine (pos_le_readBody_ok hu).trans ?_
        split at h
        · exact pos_le_finishDecode h
        · exact ih h
    · exact ih h

theorem pos_le_decodeWhole {s t : State} (h : decodeWhole s = .next t) : s.cursor.pos ≤ t.cursor.pos := by
  rcases hd : decodeRefusal s with _ | r <;> simp only [decodeWhole, hd] at h
  · exact pos_le_attempts (s := beginDecode s) h
  · cases h

theorem cursor_encodeBody {left i : Nat} {s t : State} (h : encodeBody left i s = .next t) : t.cursor = s.cursor := by
  induction left generalizing i s with
  | zero => cases h; rfl
  | succ left ih =>
    obtain ⟨w, -, hw⟩ := andThen_next.1 h
    exact ih (s := emitWord w s) hw

theorem cursor_encodeWhole {s t : State} (h : encodeWhole s = .next t) : t.cursor = s.cursor := by
  rcases he : encodeRefusal s with _ | r <;> simp only [encodeWhole, he] at h
  · exact cursor_encodeBody (s := emitMarker (beginEncode s)) h
  · cases h

/-! ### Frame fields and requests -/

theorem pos_le_scanField {s t : State} {field : List Bool} (h : scanField field s = .next t) :
    s.cursor.pos ≤ t.cursor.pos := by
  rw [scanField] at h
  split at h <;> cases h
  obtain ⟨-, -, -, k, hk⟩ := scanBits_keeps field.length s
  simp [hk]

theorem pos_le_execMark {s t : State} (h : execMark s = .next t) : s.cursor.pos ≤ t.cursor.pos := by
  rcases hp : s.phase <;> simp only [execMark, hp] at h
  case dScan => exact pos_le_scanField h
  all_goals cases h; exact le_rfl

theorem pos_le_execGrp {g : Group} {s t : State} (h : execGrp g s = .next t) : s.cursor.pos ≤ t.cursor.pos := by
  rcases hp : s.phase <;> simp only [execGrp, hp] at h
  case dRead =>
    rw [readField] at h
    split at h
    · exact pos_le_readStep h
    · cases h
  case dScan => exact pos_le_scanField h
  case eWord =>
    obtain ⟨w, -, hw⟩ := andThen_next.1 h
    split at hw
    · exact (cursor_wordStep hw).symm ▸ le_rfl
    · cases hw
  all_goals cases h; exact le_rfl

theorem pos_le_execNextBit {s t : State} (h : execNextBit s = .next t) : s.cursor.pos ≤ t.cursor.pos := by
  have hbit := s.cursor.pos_le_nextBit
  rcases hn : s.cursor.nextBit with ⟨_ | b, c⟩ <;> simp only [execNextBit, hn] at h hbit <;> cases h <;> exact hbit

theorem pos_le_execNextBytes {s t : State} (h : execNextBytes s = .next t) : s.cursor.pos ≤ t.cursor.pos := by
  have hbytes := s.cursor.pos_le_nextBytes
  rcases hn : s.cursor.nextBytes with ⟨_ | g, c⟩ <;> simp only [execNextBytes, hn] at h hbytes <;> cases h <;>
    exact hbytes

theorem cursor_execOffset {s t : State} (h : execOffset s = .next t) : t.cursor = s.cursor := by
  rw [execOffset] at h
  split at h <;> cases h
  rfl

/-! ### Every instruction, and a step -/

/-- R61, R175: every instruction of the table. -/
theorem exec_pos_le {i : Instr} {s t : State} (h : exec i s = .next t) : s.cursor.pos ≤ t.cursor.pos := by
  have hsame (e : t.cursor = s.cursor) : s.cursor.pos ≤ t.cursor.pos := e.symm ▸ le_rfl
  cases i with
  | decode => exact pos_le_decodeWhole h
  | encode => exact hsame (cursor_encodeWhole h)
  | mark => exact pos_le_execMark h
  | grp g => exact pos_le_execGrp h
  | acceptD => exact hsame (cursor_acceptDecode h)
  | acceptE => exact hsame (cursor_acceptEncode h)
  | dScan => cases h; exact pos_le_scanStep s
  | dRead => exact pos_le_readStep h
  | dCheck => cases h; exact hsame (cursor_checkStep s)
  | dIndex => cases h; exact pos_le_seekIndex s
  | dCommit => exact hsame (cursor_commitStep h)
  | eWord => exact hsame (cursor_wordStep h)
  | nextBit => exact pos_le_execNextBit h
  | nextBytes => exact pos_le_execNextBytes h
  | offset => exact hsame (cursor_execOffset h)
  | seekIndex => cases h; exact pos_le_seekIndex s
  | eMark | demod g | mod p w | emitLit n v rate | emitMod w rate => cases h; exact le_rfl

theorem step_pos_le {s t : State} (h : step s = .next t) : s.cursor.pos ≤ t.cursor.pos := by
  rcases step_cases s with ⟨r, e⟩ | e | ⟨i, u, hi, e⟩ <;> rw [e] at h
  · cases h
  · cases h; exact le_rfl
  cases hi with
  | phaseRule | acceptD | acceptE => exact exec_pos_le h
  | issued => exact exec_pos_le (s := { s with issue := none }) h

end Sys2Proof.Machine
end

section
/-! The statements about where steps and seeks leave the cursor. -/

namespace Sys2Proof.Machine

/-- Settles O24: the first seek leaves `memo` at `m + 1`, so the second looks for a mark from there on and counts from `m`,
the greatest mark below. -/
theorem secondSeekGoesToTheNextMark : Obligations.SecondSeekGoesToTheNextMark := by
  intro s m b hk hpos hmemo hm hb
  have ⟨hmem, hle, _⟩ := hm
  have hpassed : max m (m + 1) = m + 1 := max_eq_right (Nat.le_succ m)
  refine ⟨_, exec_seekIndex_consuming_mark s _ m b hk hpos (max_eq_left hmemo) hm hb, rfl, fun m' hm' => ?_,
    fun hlast hlen => ?_⟩
  · exact exec_seekIndex_consuming_mark _ _ m' m hk (hpos.trans hle) hpassed hm' (isBase_succ_of_mem _ m hmem)
  · have hbelow : ∀ m' ∈ s.cursor.marks, m' < max m (m + 1) := fun m' hm' =>
      hpassed.symm ▸ Nat.lt_succ_of_le (hlast m' hm')
    exact exec_seekIndex_consuming_end _ hk hbelow hlen

/-- Settles O56: `step_pos_le` holds from every state; that a capture is not left is the invariant's (R176), which the step
keeps. -/
theorem noStepMovesTheCursorBack : Obligations.NoStepMovesTheCursorBack := fun s t hs h =>
  ⟨step_pos_le h, (stepKeepsTheInvariant s t hs h).pos_le⟩

end Sys2Proof.Machine
end

section
/-! SUPPORT. The decoder and the encoder: bytes and the numbers they spell, and the two ways round for each format. -/

namespace Sys2Proof.Machine

/-! ### Bytes and numbers -/

theorem natOfBytes_cons (b : Byte) (bs : List Byte) :
    natOfBytes (b :: bs) = b.toNat * 256 ^ bs.length + natOfBytes bs := by
  have hfold (l : List Byte) (a : Nat) :
      l.foldl (fun a b => 256 * a + b.toNat) a = a * 256 ^ l.length + natOfBytes l := by
    induction l generalizing a with
    | nil => simp [natOfBytes]
    | cons b l ih =>
      rw [natOfBytes, List.foldl_cons, List.foldl_cons, ih, ih, List.length_cons]
      ring
  rw [natOfBytes, List.foldl_cons, hfold, Nat.mul_zero, Nat.zero_add]

theorem natOfBytes_lt (bs : List Byte) : natOfBytes bs < 256 ^ bs.length := by
  induction bs with
  | nil => exact Nat.one_pos
  | cons b bs ih =>
    rw [natOfBytes_cons, List.length_cons, Nat.pow_succ]
    have hb : b.toNat ≤ 255 := Nat.le_of_lt_succ b.isLt
    nlinarith

/-- R65: a number is spelt by its last bytes, whatever stands above them. -/
theorem bytesOfNat_add_mul (n v k : Nat) : bytesOfNat n (v + k * 256 ^ n) = bytesOfNat n v := by
  induction n generalizing k with
  | zero => rfl
  | succ n ih =>
    have hk : k * 256 ^ (n + 1) = 256 * k * 256 ^ n := by ring
    have hdiv : (v + 256 * k * 256 ^ n) / 256 ^ n = v / 256 ^ n + 256 * k := Nat.add_mul_div_right v _ (by positivity)
    have hbyte : BitVec.ofNat 8 (v / 256 ^ n + 256 * k) = BitVec.ofNat 8 (v / 256 ^ n) :=
      BitVec.eq_of_toNat_eq (Nat.add_mul_mod_self_left _ 256 k)
    rw [bytesOfNat, bytesOfNat, hk, ih, hdiv, hbyte]

/-- R65: a number that fits is what its bytes spell. -/
theorem natOfBytes_bytesOfNat (n v : Nat) (h : v < 256 ^ n) : natOfBytes (bytesOfNat n v) = v := by
  induction n generalizing v with
  | zero => exact (Nat.lt_one_iff.1 h).symm
  | succ n ih =>
    have hdm : 256 ^ n * (v / 256 ^ n) + v % 256 ^ n = v := Nat.div_add_mod v _
    have hhigh : v / 256 ^ n < 256 := Nat.div_lt_of_lt_mul h
    have hlow : bytesOfNat n v = bytesOfNat n (v % 256 ^ n) := by
      conv_lhs => rw [← hdm, Nat.add_comm, Nat.mul_comm]
      exact bytesOfNat_add_mul n _ _
    rw [bytesOfNat, natOfBytes_cons, hlow, ih _ (Nat.mod_lt _ (by positivity)), length_bytesOfNat, BitVec.toNat_ofNat,
      Nat.mod_eq_of_lt hhigh, Nat.mul_comm, hdm]

/-- R65: bytes are those of the number they spell. -/
theorem bytesOfNat_natOfBytes (bs : List Byte) : bytesOfNat bs.length (natOfBytes bs) = bs := by
  induction bs with
  | nil => rfl
  | cons b bs ih =>
    have hdiv : (natOfBytes bs + b.toNat * 256 ^ bs.length) / 256 ^ bs.length = b.toNat := by
      rw [Nat.add_mul_div_right _ _ (by positivity), Nat.div_eq_of_lt (natOfBytes_lt bs), Nat.zero_add]
    rw [List.length_cons, bytesOfNat, natOfBytes_cons, Nat.add_comm, bytesOfNat_add_mul, ih, hdiv, BitVec.ofNat_toNat,
      BitVec.setWidth_eq]

/-- A field of `n` bytes reads as `v` exactly where the bytes of `v` stand. -/
theorem takeNat_eq_ok (n v : Nat) (bs rest : List Byte) :
    takeNat n bs = .ok (v, rest) ↔ v < 256 ^ n ∧ bs = bytesOfNat n v ++ rest := by
  rw [takeNat]
  constructor
  · intro h
    split at h <;> cases h
    next hn =>
    have hl : (bs.take n).length = n := List.length_take_of_le hn
    have hlt := natOfBytes_lt (bs.take n)
    have hbytes := bytesOfNat_natOfBytes (bs.take n)
    rw [hl] at hlt hbytes
    exact ⟨hlt, by rw [hbytes, List.take_append_drop]⟩
  · rintro ⟨hv, rfl⟩
    have hl : (bytesOfNat n v).length = n := length_bytesOfNat n v
    rw [if_pos (by simp), List.take_left' hl, List.drop_left' hl, natOfBytes_bytesOfNat n v hv]


theorem takeNat_bytesOfNat (n v : Nat) (rest : List Byte) (h : v < 256 ^ n) :
    takeNat n (bytesOfNat n v ++ rest) = .ok (v, rest) := (takeNat_eq_ok n v _ rest).2 ⟨h, rfl⟩

/-! ### Decoding what was encoded -/

theorem except_ok_bind {ε α β : Type} (a : α) (f : α → Except ε β) : (Except.ok a >>= f) = f a := rfl

/-- R102: a command code. -/
theorem decodeCmd_encodeItem (i : Instr) (rest : List Byte) (h : formatOf i = .cmd) :
    decodeCmd (encodeItem i ++ rest) = .ok (i, rest) := by
  cases i <;> cases h
  all_goals
    rw [encodeItem, decodeCmd, takeNat_bytesOfNat _ _ _ (by decide), except_ok_bind]
    rfl

/-- R101: a selector string that occurs. -/
theorem decodeStep_bytesOfNat (sel : Nat) (i : Instr) (rest : List Byte) (hsel : sel < 256)
    (h : stepOfSelector sel = some i) : decodeStep (bytesOfNat 1 sel ++ rest) = .ok (i, rest) := by
  rw [decodeStep, takeNat_bytesOfNat _ _ _ hsel, except_ok_bind]
  simp only [h]
  rfl

/-- R101: every step rule has its selector string. -/
theorem decodeStep_encodeItem (i : Instr) (rest : List Byte) (h : formatOf i = .step) :
    decodeStep (encodeItem i ++ rest) = .ok (i, rest) := by
  cases i <;> cases h
  all_goals exact decodeStep_bytesOfNat _ _ rest (by decide) rfl

/-- R96: the marker field. -/
theorem decodeMark_encodeItem (rest : List Byte) : decodeMark (encodeItem .mark ++ rest) = .ok (.mark, rest) := by
  rw [encodeItem, decodeMark, takeNat_bytesOfNat _ _ _ (by decide), except_ok_bind]
  rfl

/-- R97: a group field. -/
theorem decodeGrp_encodeItem (g : Group) (rest : List Byte) :
    decodeGrp (encodeItem (.grp g) ++ rest) = .ok (.grp g, rest) := by
  rw [encodeItem, decodeGrp, takeNat_bytesOfNat _ _ _ g.isLt, except_ok_bind]
  simp only [BitVec.ofNat_toNat, BitVec.setWidth_eq]
  rfl

theorem decodeDemod_operands (g : Group) (rest : List Byte) :
    decodeDemod (bytesOfNat 8 g.toNat ++ rest) = .ok (.demod g, rest) := by
  rw [decodeDemod, takeNat_bytesOfNat _ _ _ g.isLt, except_ok_bind]
  simp only [BitVec.ofNat_toNat, BitVec.setWidth_eq]
  rfl

theorem decodeMod_operands (p : Bool) (w : Word) (rest : List Byte) :
    decodeMod (bytesOfNat 1 p.toNat ++ (bytesOfNat 4 w.toNat ++ rest)) = .ok (.mod p w, rest) := by
  have hp : p.toNat < 2 := p.toNat_lt
  have hbit : (p.toNat == 1) = p := by cases p <;> rfl
  rw [decodeMod, takeNat_bytesOfNat _ _ _ (by omega), except_ok_bind]
  simp only [takeNat_bytesOfNat 4 w.toNat _ w.isLt, except_ok_bind, if_pos hp, hbit, BitVec.ofNat_toNat,
    BitVec.setWidth_eq]
  rfl

/-- Log 5: a literal of at most 255 bits has room in its 32 bytes. -/
theorem decodeEmitLit_operands (n : Nat) (v : BitVec n) (rate : Rate) (rest : List Byte) (hn : n < 256) :
    decodeEmitLit (bytesOfNat 1 n ++ (bytesOfNat 32 v.toNat ++ (bytesOfNat 4 rate.toNat ++ rest))) =
      .ok (.emitLit n v rate, rest) := by
  have hv : v.toNat < 256 ^ 32 :=
    calc v.toNat < 2 ^ n := v.isLt
      _ ≤ 2 ^ 256 := Nat.pow_le_pow_right (by decide) hn.le
      _ = 256 ^ 32 := by norm_num
  rw [decodeEmitLit, takeNat_bytesOfNat _ _ _ hn, except_ok_bind]
  simp only [takeNat_bytesOfNat 32 _ _ hv, takeNat_bytesOfNat 4 rate.toNat _ rate.isLt, except_ok_bind, if_pos v.isLt,
    BitVec.ofNat_toNat, BitVec.setWidth_eq]
  rfl

theorem decodeEmitMod_operands (w : Word) (rate : Rate) (rest : List Byte) :
    decodeEmitMod (bytesOfNat 4 w.toNat ++ (bytesOfNat 4 rate.toNat ++ rest)) = .ok (.emitMod w rate, rest) := by
  rw [decodeEmitMod, takeNat_bytesOfNat _ _ _ w.isLt, except_ok_bind]
  simp only [takeNat_bytesOfNat 4 rate.toNat _ rate.isLt, except_ok_bind, BitVec.ofNat_toNat, BitVec.setWidth_eq]
  rfl

/-- R100: a request record: its code, then its operands. -/
theorem decodeReq_encodeItem (i : Instr) (rest : List Byte) (h : formatOf i = .req) (hwf : i.wf = true) :
    decodeReq (encodeItem i ++ rest) = .ok (i, rest) := by
  cases i <;> cases h
  all_goals
    simp only [encodeItem, List.append_assoc]
    rw [decodeReq, takeNat_bytesOfNat _ _ _ (by decide), except_ok_bind]
  case demod g => exact decodeDemod_operands g rest
  case mod p w => exact decodeMod_operands p w rest
  case emitLit n v rate => exact decodeEmitLit_operands n v rate rest (of_decide_eq_true hwf)
  case emitMod w rate => exact decodeEmitMod_operands w rate rest
  all_goals rfl

/-- Decoding what was encoded, format by format. -/
theorem decodeItem_encodeItem (i : Instr) (rest : List Byte) (hwf : i.wf = true) :
    decodeItem (formatOf i) (encodeItem i ++ rest) = .ok (i, rest) := by
  rcases hf : formatOf i
  case cmd => exact decodeCmd_encodeItem i rest hf
  case step => exact decodeStep_encodeItem i rest hf
  case req => exact decodeReq_encodeItem i rest hf hwf
  case frame16 =>
    obtain rfl : i = .mark := by cases i <;> cases hf; rfl
    exact decodeMark_encodeItem rest
  case frame64 =>
    obtain ⟨g, rfl⟩ : ∃ g, i = .grp g := by cases i <;> cases hf; exact ⟨_, rfl⟩
    exact decodeGrp_encodeItem g rest

/-! ### Encoding what was decoded -/

theorem toNat_ofNat_of_lt {w n : Nat} (h : n < 2 ^ w) : (BitVec.ofNat w n).toNat = n := by
  rw [BitVec.toNat_ofNat, Nat.mod_eq_of_lt h]

/-- R101: a selector string that occurs is the encoding of its step rule. -/
theorem stepOfSelector_encodeItem (sel : Nat) (i : Instr) (h : stepOfSelector sel = some i) :
    i.wf = true ∧ encodeItem i = bytesOfNat 1 sel := by
  unfold stepOfSelector at h
  split at h <;> cases h <;> exact ⟨rfl, rfl⟩

theorem encodeItem_decodeCmd (bs rest : List Byte) (i : Instr) (h : decodeCmd bs = .ok (i, rest)) :
    i.wf = true ∧ bs = encodeItem i ++ rest := by
  simp only [decodeCmd, except_bind_ok, Prod.exists, takeNat_eq_ok] at h
  obtain ⟨code, r, ⟨-, rfl⟩, h⟩ := h
  split at h <;> cases h <;> exact ⟨rfl, rfl⟩

theorem encodeItem_decodeMark (bs rest : List Byte) (i : Instr) (h : decodeMark bs = .ok (i, rest)) :
    i.wf = true ∧ bs = encodeItem i ++ rest := by
  simp only [decodeMark, except_bind_ok, Prod.exists, takeNat_eq_ok] at h
  obtain ⟨v, r, ⟨-, rfl⟩, h⟩ := h
  split at h <;> cases h
  next hv => exact ⟨rfl, by rw [hv]; rfl⟩

theorem encodeItem_decodeGrp (bs rest : List Byte) (i : Instr) (h : decodeGrp bs = .ok (i, rest)) :
    i.wf = true ∧ bs = encodeItem i ++ rest := by
  simp only [decodeGrp, except_bind_ok, Prod.exists, takeNat_eq_ok] at h
  obtain ⟨v, r, ⟨hv, rfl⟩, h⟩ := h
  cases h
  exact ⟨rfl, by rw [encodeItem, toNat_ofNat_of_lt hv]⟩

theorem encodeItem_decodeStep (bs rest : List Byte) (i : Instr) (h : decodeStep bs = .ok (i, rest)) :
    i.wf = true ∧ bs = encodeItem i ++ rest := by
  simp only [decodeStep, except_bind_ok, Prod.exists, takeNat_eq_ok] at h
  obtain ⟨sel, r, ⟨-, rfl⟩, h⟩ := h
  split at h <;> cases h
  next hi =>
  obtain ⟨hwf, henc⟩ := stepOfSelector_encodeItem sel i hi
  exact ⟨hwf, by rw [henc]⟩

theorem encodeItem_decodeDemod (bs rest : List Byte) (i : Instr) (h : decodeDemod bs = .ok (i, rest)) :
    i.wf = true ∧ bytesOfNat 1 4 ++ bs = encodeItem i ++ rest := by
  simp only [decodeDemod, except_bind_ok, Prod.exists, takeNat_eq_ok] at h
  obtain ⟨g, r, ⟨hg, rfl⟩, h⟩ := h
  cases h
  exact ⟨rfl, by simp only [encodeItem, toNat_ofNat_of_lt (w := 64) hg, List.append_assoc]⟩

theorem encodeItem_decodeMod (bs rest : List Byte) (i : Instr) (h : decodeMod bs = .ok (i, rest)) :
    i.wf = true ∧ bytesOfNat 1 5 ++ bs = encodeItem i ++ rest := by
  simp only [decodeMod, except_bind_ok, Prod.exists, takeNat_eq_ok] at h
  obtain ⟨p, r1, ⟨-, rfl⟩, w, r2, ⟨hw, rfl⟩, h⟩ := h
  split at h <;> cases h
  next hp =>
  have hbit : (p == 1).toNat = p := by interval_cases p <;> rfl
  exact ⟨rfl, by simp only [encodeItem, hbit, toNat_ofNat_of_lt (w := 32) hw, List.append_assoc]⟩

theorem encodeItem_decodeEmitLit (bs rest : List Byte) (i : Instr) (h : decodeEmitLit bs = .ok (i, rest)) :
    i.wf = true ∧ bytesOfNat 1 6 ++ bs = encodeItem i ++ rest := by
  simp only [decodeEmitLit, except_bind_ok, Prod.exists, takeNat_eq_ok] at h
  obtain ⟨n, r1, ⟨hn, rfl⟩, v, r2, ⟨-, rfl⟩, rate, r3, ⟨hrate, rfl⟩, h⟩ := h
  split at h <;> cases h
  next hv =>
  exact ⟨decide_eq_true hn,
    by simp only [encodeItem, toNat_ofNat_of_lt hv, toNat_ofNat_of_lt (w := 32) hrate, List.append_assoc]⟩

theorem encodeItem_decodeEmitMod (bs rest : List Byte) (i : Instr) (h : decodeEmitMod bs = .ok (i, rest)) :
    i.wf = true ∧ bytesOfNat 1 7 ++ bs = encodeItem i ++ rest := by
  simp only [decodeEmitMod, except_bind_ok, Prod.exists, takeNat_eq_ok] at h
  obtain ⟨w, r1, ⟨hw, rfl⟩, rate, r2, ⟨hrate, rfl⟩, h⟩ := h
  cases h
  exact ⟨rfl,
    by simp only [encodeItem, toNat_ofNat_of_lt (w := 32) hw, toNat_ofNat_of_lt (w := 32) hrate, List.append_assoc]⟩

/-- R100: what is read of a request record, its code in front of its operands. -/
theorem encodeItem_decodeReq (bs rest : List Byte) (i : Instr) (h : decodeReq bs = .ok (i, rest)) :
    i.wf = true ∧ bs = encodeItem i ++ rest := by
  simp only [decodeReq, except_bind_ok, Prod.exists, takeNat_eq_ok] at h
  obtain ⟨code, r, ⟨-, rfl⟩, h⟩ := h
  split at h
  case h_5 => exact encodeItem_decodeDemod r rest i h
  case h_6 => exact encodeItem_decodeMod r rest i h
  case h_7 => exact encodeItem_decodeEmitLit r rest i h
  case h_8 => exact encodeItem_decodeEmitMod r rest i h
  all_goals cases h
  all_goals exact ⟨rfl, rfl⟩

/-- Encoding what was decoded, format by format. -/
theorem encodeItem_decodeItem (f : Format) (bs rest : List Byte) (i : Instr) (h : decodeItem f bs = .ok (i, rest)) :
    i.wf = true ∧ bs = encodeItem i ++ rest := by
  cases f with
  | cmd => exact encodeItem_decodeCmd bs rest i h
  | frame16 => exact encodeItem_decodeMark bs rest i h
  | frame64 => exact encodeItem_decodeGrp bs rest i h
  | step => exact encodeItem_decodeStep bs rest i h
  | req => exact encodeItem_decodeReq bs rest i h

end Sys2Proof.Machine
end

section
/-! The statements about decoding and encoding. -/

namespace Sys2Proof.Machine

/-- Settles O5, from `decodeItem_encodeItem`: every field reads back the number its bytes were spelt from. -/
theorem decodeOfEncodeIsTheInstruction : Obligations.DecodeOfEncodeIsTheInstruction := decodeItem_encodeItem

/-- Settles O6: the format from `formatOf_decodeItem`, the bytes from `encodeItem_decodeItem`. -/
theorem encodeOfDecodeIsTheBytes : Obligations.EncodeOfDecodeIsTheBytes := by
  intro f bs i rest h
  obtain ⟨hwf, hbs⟩ := encodeItem_decodeItem f bs rest i h
  exact ⟨hwf, formatOf_decodeItem f bs rest i h, hbs⟩

/-- Settles O7: each word read is the encoding of its instruction, so that the round trip of O5 reads it. -/
theorem tableWordsDecode : Obligations.TableWordsDecode := by
  have hread (i : Instr) (hwf : i.wf = true) : decodeItem (formatOf i) (encodeItem i ++ []) = .ok (i, []) :=
    decodeItem_encodeItem i [] hwf
  exact ⟨hread .decode rfl, hread .encode rfl, hread .mark rfl, hread (.grp 0x14529454AA551491#64) rfl,
    hread .dScan rfl, hread .eWord rfl, rfl, hread .seekIndex rfl⟩

end Sys2Proof.Machine
end

section
/-! SUPPORT. What the commands refuse, and what the step machine does with a record it cannot take. -/

namespace Sys2Proof.Machine

/-! ### A record that cannot be taken -/

/-- R102: a code above 1 stops the framer in `IDLE`. -/
theorem fetchPhase_unknown (s : State) (code : Byte) (hp : s.phase = .idle) (hc : s.cmd = some code)
    (h : 2 ≤ code.toNat) : fetchPhase s = .stop .unknownCommand := by
  rw [fetchPhase_presented s code hp hc, fetchCommand, decodeCmd_unknown code h]

/-- R103: any code stops a framer that runs a command (log 4). -/
theorem fetchPhase_busy (s : State) (code : Byte) (hp : s.phase ≠ .idle) (hc : s.cmd = some code) :
    fetchPhase s = .stop .busy := by
  simp only [fetchPhase, hc]

/-! ### The checks of the commands (R103, R104), in their order -/

theorem decodeRefusal_busy (s : State) (hp : s.phase ≠ .idle) : decodeRefusal s = some .busy := if_pos hp

theorem encodeRefusal_busy (s : State) (hp : s.phase ≠ .idle) : encodeRefusal s = some .busy := if_pos hp

theorem Desc.legal_eq_false (d : Desc) : d.legal = false ↔ d.len ≠ 6144 ∨ d.nsec ≠ 1 := by
  simp only [Desc.legal, Bool.and_eq_false_iff, beq_eq_false_iff_ne]

theorem Desc.legal_of_scheme (d : Desc) (hlen : d.len = 6144) (hnsec : d.nsec = 1) : ¬d.legal = false := by
  simp [Desc.legal_eq_false, hlen, hnsec]

theorem decodeRefusal_badLength (s : State) (hp : s.phase = .idle) (h : s.desc.legal = false) :
    decodeRefusal s = some .badLength := by
  rw [decodeRefusal, if_neg (not_not.2 hp), if_pos h]

theorem encodeRefusal_badLength (s : State) (hp : s.phase = .idle) (h : s.desc.legal = false) :
    encodeRefusal s = some .badLength := by
  rw [encodeRefusal, if_neg (not_not.2 hp), if_pos h]

theorem decodeRefusal_alreadyPopulated (s : State) (hp : s.phase = .idle) (h : ¬s.desc.legal = false)
    (ho : s.desc.own = true) : decodeRefusal s = some .alreadyPopulated := by
  rw [decodeRefusal, if_neg (not_not.2 hp), if_neg h, if_pos ho]

theorem encodeRefusal_noBlock (s : State) (hp : s.phase = .idle) (h : ¬s.desc.legal = false)
    (ho : s.desc.own = false) : encodeRefusal s = some .noBlock := by
  rw [encodeRefusal, if_neg (not_not.2 hp), if_neg h, if_pos ho]

/-- R103, R104: the accept step and the whole command refuse alike. -/
theorem exec_decode_refused (s : State) (r : Refusal) (h : decodeRefusal s = some r) :
    exec .acceptD s = .refused r ∧ exec .decode s = .refused r := by
  simp only [exec, execAcceptD, acceptDecode, execDecode, decodeWhole, h, and_self]

theorem exec_encode_refused (s : State) (r : Refusal) (h : encodeRefusal s = some r) :
    exec .acceptE s = .refused r ∧ exec .encode s = .refused r := by
  simp only [exec, execAcceptE, acceptEncode, execEncode, encodeWhole, h, and_self]

end Sys2Proof.Machine
end

section
/-! SUPPORT. The body of a frame, group by group. -/

namespace Sys2Proof.Machine

/-- R123, R178: the groups of some words, whatever follows them, read back as the words. -/
theorem demod_groupsBits (c : Codec) (p : Bool) (ws : List Word) (suf : List Bool) :
    ((List.range ws.length).map fun i =>
      c.demod (ofBits 64 (((groupsBits c p ws ++ suf).drop (64 * i)).take 64))) = ws := by
  induction ws generalizing p with
  | nil => rfl
  | cons w ws ih =>
    have hl : (toBits (c.mod p w)).length = 64 := length_toBits _
    have hdrop (i : Nat) : (groupsBits c p (w :: ws) ++ suf).drop (64 * (i + 1)) =
        (groupsBits c ((c.mod p w).getLsbD 0) ws ++ suf).drop (64 * i) := by
      rw [groupsBits, List.append_assoc, Nat.mul_succ, Nat.add_comm, ← List.drop_drop, List.drop_left' hl]
    rw [List.length_cons, List.range_succ_eq_map, List.map_cons, List.map_map]
    congr 1
    · rw [Nat.mul_zero, List.drop_zero, groupsBits, List.append_assoc, List.take_left' hl, ofBits_toBits, c.law]
    · simp only [Function.comp_def, Nat.succ_eq_add_one, hdrop, ih]

end Sys2Proof.Machine
end

section
/-! The statements about refused commands and about the body of a frame. -/

namespace Sys2Proof.Machine

/-- Settles O3: what `fetchPhase` stops at, and the first of the commands' own checks. -/
theorem unknownAndBusyCommandsAreRefused : Obligations.UnknownAndBusyCommandsAreRefused := by
  refine ⟨fun s code ⟨hi, hc⟩ hp h => ?_, fun s code ⟨hi, hc⟩ hp => ?_, fun s hp => ?_⟩
  · exact step_of_stop s _ ((fetch_of_no_issue s hi).trans (fetchPhase_unknown s code hp hc h))
  · exact step_of_stop s _ ((fetch_of_no_issue s hi).trans (fetchPhase_busy s code hp hc))
  · obtain ⟨hacceptD, hdecode⟩ := exec_decode_refused s _ (decodeRefusal_busy s hp)
    obtain ⟨hacceptE, hencode⟩ := exec_encode_refused s _ (encodeRefusal_busy s hp)
    exact ⟨hdecode, hencode, hacceptD, hacceptE⟩

/-- Settles O34: each check of the two commands in turn, once for the accept step and the whole command. -/
theorem commandsRefuseOtherDescriptors : Obligations.CommandsRefuseOtherDescriptors := by
  intro s hp
  refine ⟨fun h => ?_, fun hlen hnsec ho => ?_, fun hlen hnsec ho => ?_⟩
  · have hlegal := (Desc.legal_eq_false _).2 h
    obtain ⟨hacceptD, hdecode⟩ := exec_decode_refused s _ (decodeRefusal_badLength s hp hlegal)
    obtain ⟨hacceptE, hencode⟩ := exec_encode_refused s _ (encodeRefusal_badLength s hp hlegal)
    exact ⟨hacceptD, hacceptE, hdecode, hencode⟩
  · exact exec_decode_refused s _ (decodeRefusal_alreadyPopulated s hp (Desc.legal_of_scheme _ hlen hnsec) ho)
  · exact exec_encode_refused s _ (encodeRefusal_noBlock s hp (Desc.legal_of_scheme _ hlen hnsec) ho)

/-- Settles O43: behind the marker's 16 bits stand the groups, which `demod_groupsBits` reads. -/
theorem bodyOfAFrameIsItsWords : Obligations.BodyOfAFrameIsItsWords := by
  intro c ws suf hlen
  have hmarker : (toBits Config.marker).length = 16 := length_toBits _
  rw [bodyWords, frameOf, List.append_assoc, List.drop_left' hmarker, Config.nwords, ← hlen]
  exact demod_groupsBits c _ ws suf

end Sys2Proof.Machine
end

section
/-! SUPPORT. A whole DECODE on a capture (R120): what its attempts come to. -/

namespace Sys2Proof.Machine

/-! ### Places in a capture -/

/-- R171, R172: bits that were there lie in the capture. -/
theorem Cursor.inCapture_advanced {c : Cursor} (h : c.inCapture) (n : Nat) (hn : (c.upTo n).length = n) :
    (c.advanced n).inCapture := by
  obtain ⟨hc, hpos⟩ := h
  refine ⟨hc, ?_⟩
  rw [c.upTo_captured hc, List.length_take, c.length_ahead, Cursor.remaining] at hn
  rw [Cursor.advanced_pos, Cursor.advanced_bits]
  omega

/-- R172: with fewer bits left than were asked for, the cursor comes to the capture's end. -/
theorem Cursor.pos_advanced_short {c : Cursor} (h : c.inCapture) (n : Nat) (hn : (c.upTo n).length < n) :
    (c.advanced (c.upTo n).length).pos = c.bits.length := by
  obtain ⟨hc, hpos⟩ := h
  rw [Cursor.advanced_pos]
  rw [c.upTo_captured hc, List.length_take, c.length_ahead, Cursor.remaining] at hn ⊢
  omega

/-- R171: no bit is left at the capture's end alone. -/
theorem Cursor.pos_of_no_bit {c : Cursor} (h : c.inCapture) (hb : c.bitAt c.pos = none) : c.pos = c.bits.length := by
  obtain ⟨hc, hpos⟩ := h
  rw [c.bitAt_captured hc, List.getElem?_eq_none_iff] at hb
  exact le_antisymm hpos hb

/-- R171: after a bit that was there, fewer are left. -/
theorem Cursor.remaining_advanced_lt {c : Cursor} (h : (c.advanced 1).inCapture) (n : Nat) :
    ((c.advanced 1).advanced n).remaining < c.remaining := by
  have hpos : c.pos + 1 ≤ c.bits.length := h.2
  rw [Cursor.advanced_advanced, Cursor.remaining, Cursor.remaining, Cursor.advanced_bits, Cursor.advanced_pos]
  omega

/-- R171: a bit that is there can be asked for. -/
theorem Cursor.length_upTo_one {c : Cursor} {b : Bool} (hb : c.bitAt c.pos = some b) : (c.upTo 1).length = 1 := by
  rw [Cursor.upTo_eq, bitsFrom, hb, bitsFrom, List.length_singleton]

/-! ### The registers alone -/

/-- R120: what scanning and reading groups change: the cursor moves on, and besides it only registers of the framer's
that speak of the candidate. -/
structure State.ScansTo (s t : State) : Prop where
  cursor : ∃ n, t.cursor = s.cursor.advanced n
  op : t.op = s.op
  desc : t.desc = s.desc
  blk : t.blk = s.blk
  sink : t.sink = s.sink
  codec : t.codec = s.codec
  cmd : t.cmd = s.cmd
  issue : t.issue = s.issue
  ans : t.ans = s.ans
  draws : t.draws = s.draws

theorem State.ScansTo.trans {s t u : State} (h : s.ScansTo t) (h' : t.ScansTo u) : s.ScansTo u where
  cursor := by
    obtain ⟨m, hm⟩ := h.cursor
    obtain ⟨n, hn⟩ := h'.cursor
    exact ⟨m + n, by rw [hn, hm, Cursor.advanced_advanced]⟩
  op := h'.op.trans h.op
  desc := h'.desc.trans h.desc
  blk := h'.blk.trans h.blk
  sink := h'.sink.trans h.sink
  codec := h'.codec.trans h.codec
  cmd := h'.cmd.trans h.cmd
  issue := h'.issue.trans h.issue
  ans := h'.ans.trans h.ans
  draws := h'.draws.trans h.draws

theorem scansTo_refl (s : State) : s.ScansTo s :=
  ⟨⟨0, s.cursor.advanced_zero.symm⟩, rfl, rfl, rfl, rfl, rfl, rfl, rfl, rfl, rfl⟩

theorem State.ScansTo.sameStream {s t : State} (h : s.ScansTo t) : s.cursor.SameStream t.cursor := by
  obtain ⟨n, hn⟩ := h.cursor
  exact hn ▸ s.cursor.sameStream_advanced n

/-- R122: a scanned bit. -/
theorem scansTo_observeBit (s : State) (b : Bool) :
    s.ScansTo (observeBit b (setCursor (s.cursor.advanced 1) s)) :=
  ⟨⟨1, rfl⟩, rfl, rfl, rfl, rfl, rfl, rfl, rfl, rfl, rfl⟩

theorem scansTo_beginCandidate (s : State) (off : Int) : s.ScansTo (beginCandidate off s) :=
  { scansTo_refl s with }

/-- R123: a group. -/
theorem scansTo_takeGroup (s : State) (g : Group) (w : Word) :
    s.ScansTo (takeGroup g w (setCursor (s.cursor.advanced 64) s)) :=
  ⟨⟨64, rfl⟩, rfl, rfl, rfl, rfl, rfl, rfl, rfl, rfl, rfl⟩

/-! ### What a candidate comes to -/

theorem Failure.res_cases (f : Failure) : f.res = .notFound ∨ f.res = .truncated := by cases f <;> simp [Failure.res]

theorem Failure.res_ne_none (f : Failure) : f.res ≠ .none := by cases f <;> simp [Failure.res]

/-- R120, R205: a failure was taken, at the capture's end. -/
def State.FailsAt (s t : State) : Prop :=
  ∃ (u : State) (f : Failure), s.ScansTo u ∧ u.cursor.pos = u.cursor.bits.length ∧ t = raise f u

theorem State.ScansTo.failsAt {s u t : State} (h : s.ScansTo u) (ht : u.FailsAt t) : s.FailsAt t := by
  obtain ⟨v, f, hv, hend⟩ := ht
  exact ⟨v, f, h.trans hv, hend⟩

/-- R120, R123: the groups of a candidate in a capture are all staged, or `Truncated` is taken at the end. -/
theorem readBody_cases (n : Nat) (s : State) (hc : s.cursor.inCapture) (hst : s.Staged) :
    (∃ t, readBody n s = .ok t ∧ s.ScansTo t ∧ t.cursor.inCapture ∧ t.Staged ∧ t.wcnt = s.wcnt + n) ∨
      ∃ t, readBody n s = .error t ∧ s.FailsAt t := by
  induction n generalizing s with
  | zero => exact .inl ⟨s, rfl, scansTo_refl s, hc, hst, rfl⟩
  | succ n ih =>
    rcases s.cursor.nextBytes_cases with ⟨g, hg, hn⟩ | ⟨hl, hn⟩ <;> simp only [readBody, hn]
    · have hon := scansTo_takeGroup s g (s.theCodec.demod g)
      have hc' := Cursor.inCapture_advanced hc 64 (by rw [hg, length_toBits])
      have hst' : (setCursor (s.cursor.advanced 64) s).Staged := { hst with }
      rcases ih _ hc' (hst'.takeGroup g (s.theCodec.demod g)) with ⟨t, ht, hs, hrest⟩ | ⟨t, ht, hf⟩
      · obtain ⟨hct, hstt, hw⟩ := hrest
        exact .inl ⟨t, ht, hon.trans hs, hct, hstt, by rw [hw, takeGroup_wcnt, setCursor_wcnt]; omega⟩
      · exact .inr ⟨t, ht, hon.failsAt hf⟩
    · exact .inr ⟨_, rfl, setCursor (s.cursor.advanced (s.cursor.upTo 64).length) s, .truncated,
        { scansTo_refl s with cursor := ⟨_, rfl⟩ }, Cursor.pos_advanced_short hc 64 hl, rfl⟩

/-- R124, R133: a candidate has all its words, and they pass the gate. -/
structure State.Accepted (s : State) (ws : List Word) : Prop where
  length : ws.length = 1536
  staged : stagedWords s.wbuf = some ws
  sum : sumWords ws = Config.cksum

/-- R25, R28, R124: what the comparison of the sum accepts. -/
theorem accepted_of_staged {s : State} (h : s.Staged) (hw : s.wcnt = 1536) (ha : s.sumAccepted = true) :
    ∃ ws, s.Accepted ws := by
  obtain ⟨ws, hws, hsum⟩ := h.sum
  rw [hw] at hws
  exact ⟨ws, ((collect_eq_some _ _ _ _).1 hws).1, hws, hsum ▸ (sumAccepted_iff s).1 ha⟩

/-- R120, R133 to R135: the attempts from a state came to an accepted candidate, with which the command is finished,
or to a failure at the capture's end. -/
def State.AttemptsCome (s : State) (o : Answers State) : Prop :=
  (∃ u ws, s.ScansTo u ∧ u.Accepted ws ∧ o = finishDecode u) ∨ ∃ t, s.FailsAt t ∧ o = .next t

theorem State.ScansTo.attemptsCome {s u : State} {o : Answers State} (h : s.ScansTo u) (ho : u.AttemptsCome o) :
    s.AttemptsCome o := by
  rcases ho with ⟨v, ws, hv, hws⟩ | ⟨t, ht, e⟩
  · exact .inl ⟨v, ws, h.trans hv, hws⟩
  · exact .inr ⟨t, h.failsAt ht, e⟩

/-- R120: on a capture, with a turn for each bit left and one more, the attempts come to an end. -/
theorem attempts_come (fuel : Nat) (s : State) (hc : s.cursor.inCapture) (hfuel : s.cursor.remaining < fuel) :
    s.AttemptsCome (attempts fuel s) := by
  induction fuel generalizing s with
  | zero => exact absurd hfuel (Nat.not_lt_zero _)
  | succ fuel ih =>
    rcases s.cursor.nextBit_cases with ⟨b, hb, h⟩ | ⟨hb, h⟩ <;>
      simp only [attempts, h, observeBit_cursor, setCursor_cursor]
    · refine (scansTo_observeBit s b).attemptsCome ?_
      have hcap := Cursor.inCapture_advanced hc 1 (Cursor.length_upTo_one hb)
      generalize ho : observeBit b (setCursor (s.cursor.advanced 1) s) = o
      have hcur : o.cursor = s.cursor.advanced 1 := by rw [← ho]; rfl
      rw [← hcur] at hcap ⊢
      have hagain (v : State) (hv : o.ScansTo v) (hcv : v.cursor.inCapture) : o.AttemptsCome (attempts fuel v) := by
        obtain ⟨n, hn⟩ := hv.cursor
        have hless : v.cursor.remaining < s.cursor.remaining := by
          rw [hn, hcur]
          exact Cursor.remaining_advanced_lt (hcur ▸ hcap) n
        exact hv.attemptsCome (ih v hcv (by omega))
      split
      · next hm =>
        have hcand := scansTo_beginCandidate o o.cursor.lastOffset
        have hst := staged_beginCandidate o o.cursor.lastOffset ((atMarker_iff o).1 hm).1
        rcases readBody_cases Config.nwords (beginCandidate o.cursor.lastOffset o) hcap hst with
          ⟨u, hu, hbody, hcu, hstu, hw⟩ | ⟨t, ht, hf⟩
        · simp only [hu]
          split
          · next ha =>
            obtain ⟨ws, hws⟩ := accepted_of_staged hstu hw ha
            exact .inl ⟨u, ws, hcand.trans hbody, hws, rfl⟩
          · exact hagain u (hcand.trans hbody) hcu
        · simp only [ht]
          exact .inr ⟨t, hcand.failsAt hf, rfl⟩
      · exact hagain o (scansTo_refl o) hcap
    · exact .inr ⟨_, ⟨setCursor s.cursor s, .notFound, scansTo_refl s, Cursor.pos_of_no_bit hc hb, rfl⟩, rfl⟩

/-! ### The command -/

/-- R120: on a capture a DECODE that the host has set up runs its attempts to an end. -/
theorem exec_decode_comes (s : State) (h : s.readyToDecode) (hc : s.cursor.inCapture) :
    (beginDecode s).AttemptsCome (exec .decode s) := by
  have hturns : s.cursor.turns = s.cursor.remaining + 1 := by
    rcases hc.1 with hk | hk <;> simp only [Cursor.turns, hk]
  simp only [exec, execDecode, decodeWhole, (decodeRefusal_none s).2 h, hturns]
  exact attempts_come _ (beginDecode s) hc (Nat.lt_succ_self _)

/-- R120, R125, R126: the end of a DECODE with an accepted candidate. -/
theorem finishDecode_accepted (s : State) (ws : List Word) (h : s.Accepted ws) :
    finishDecode s = .next (succeed (populate ws (recordTotal (seekIndex s).1 (seekIndex s).2))) := by
  have hst : stagedWords (recordTotal (seekIndex s).1 (seekIndex s).2).wbuf = some ws := by
    obtain ⟨p, m, d, e, -⟩ := seekIndex_spec s
    rw [recordTotal_wbuf, e]
    exact h.staged
  simp only [finishDecode, hst]

end Sys2Proof.Machine
end

section
/-! The statement about what a whole DECODE leaves. -/

namespace Sys2Proof.Machine

/-- Settles O32, from `exec_decode_comes`: an accepted candidate is taken over by the seek and `populate`, which touch
nothing else of the host's; a failure leaves all but the registers and the cursor. -/
theorem decodeIsAllOrNothing : Obligations.DecodeIsAllOrNothing := by
  intro s hr hc
  rcases exec_decode_comes s hr hc with ⟨u, ws, hu, hws, e⟩ | ⟨t, ⟨u, f, hu, hend, rfl⟩, e⟩
  · obtain ⟨hbits, hmarks, horigin, hkind⟩ := hu.sameStream
    obtain ⟨p, m, d, hseek, -⟩ := seekIndex_spec u
    rw [finishDecode_accepted u ws hws, hseek] at e
    refine ⟨_, e, ⟨rfl, by simp⟩, hu.op, hbits, hmarks, horigin, hkind, hu.sink, hu.codec, hu.cmd, hu.issue,
      hu.ans, .inl ⟨rfl, ?_, ⟨ws, hws.length, blkWords_writeWords _ _ hws.length, hws.sum⟩, fun a ha => ?_⟩⟩
    · simp only [succeed, populate, recordTotal, hu.desc, beginDecode]
    · have hafter := Memory.read_writeWords_after ws u.blk 0 a (by rw [hws.length]; omega)
      exact hafter.trans (congrArg (Memory.read · a) hu.blk)
  · obtain ⟨hbits, hmarks, horigin, hkind⟩ := hu.sameStream
    exact ⟨_, e, ⟨rfl, f.res_ne_none⟩, hu.op, hbits, hmarks, horigin, hkind, hu.sink, hu.codec, hu.cmd, hu.issue,
      hu.ans, .inr ⟨f.res_cases, hu.desc, hu.blk, hend.trans (congrArg List.length hbits), hu.draws⟩⟩

end Sys2Proof.Machine
end

section
/-! SUPPORT. The fields of a frame as instructions: what each phase makes of a marker and of a group. -/

namespace Sys2Proof.Machine

/-! ### A field that stands next on the track, and one that does not -/

theorem Cursor.next_iff (c : Cursor) (field : List Bool) : c.next field = true ↔ c.upTo field.length = field :=
  beq_iff_eq

theorem scanField_next (s : State) (field : List Bool) (h : s.cursor.upTo field.length = field) :
    scanField field s = .next (scanBits field.length s) := if_pos ((s.cursor.next_iff field).2 h)

theorem scanField_refused (s : State) (field : List Bool) (h : s.cursor.upTo field.length ≠ field) :
    scanField field s = .refused .fieldNotHere := if_neg fun hn => h ((s.cursor.next_iff field).1 hn)

theorem readField_next (s : State) (g : Group) (h : s.cursor.upTo 64 = toBits g) : readField g s = readStep s :=
  if_pos ((s.cursor.next_iff _).2 (by rwa [length_toBits]))

theorem readField_refused (s : State) (g : Group) (h : s.cursor.upTo 64 ≠ toBits g) :
    readField g s = .refused .fieldNotHere :=
  if_neg fun hn => h (by rw [← (s.cursor.next_iff _).1 hn, length_toBits])

/-! ### The instructions, phase by phase -/

theorem exec_mark_scanning (s : State) (h : s.phase = .dScan) : exec .mark s = scanField (toBits Config.marker) s := by
  simp only [exec, execMark, h]

theorem exec_mark_emitting (s : State) (h : s.phase = .eMark) : exec .mark s = exec .eMark s := by
  simp only [exec, execMark, execEMark, h]

theorem exec_mark_elsewhere (s : State) (hscan : s.phase ≠ .dScan) (hmark : s.phase ≠ .eMark) :
    exec .mark s = .next s := by
  rcases hp : s.phase <;> simp only [exec, execMark, hp]
  case dScan => exact absurd hp hscan
  case eMark => exact absurd hp hmark

theorem exec_grp_reading (s : State) (g : Group) (h : s.phase = .dRead) : exec (.grp g) s = readField g s := by
  simp only [exec, execGrp, h]

theorem exec_grp_scanning (s : State) (g : Group) (h : s.phase = .dScan) :
    exec (.grp g) s = scanField (toBits g) s := by simp only [exec, execGrp, h]

theorem exec_grp_emitting (s : State) (g : Group) (h : s.phase = .eWord) : exec (.grp g) s = emitField g s := by
  simp only [exec, execGrp, h]

theorem exec_grp_elsewhere (s : State) (g : Group) (hread : s.phase ≠ .dRead) (hscan : s.phase ≠ .dScan)
    (hword : s.phase ≠ .eWord) : exec (.grp g) s = .next s := by
  rcases hp : s.phase <;> simp only [exec, execGrp, hp]
  case dRead => exact absurd hp hread
  case dScan => exact absurd hp hscan
  case eWord => exact absurd hp hword

/-! ### Where the bits of a field complete a marker -/

/-- R66: a value's last bits are its low part. -/
theorem toBits_extractLow {n : Nat} (v : BitVec n) (m : Nat) (h : m ≤ n) :
    toBits (v.extractLsb' 0 m) = (toBits v).drop (n - m) := by
  apply List.ext_getElem
  · rw [List.length_drop, length_toBits, length_toBits]; omega
  · intro i h1 h2
    have hi : i < m := by rwa [length_toBits] at h1
    have hplace : n - 1 - (n - m + i) = m - 1 - i := by omega
    rw [getElem_toBits, List.getElem_drop, getElem_toBits, BitVec.getMsbD, BitVec.getMsbD, BitVec.getLsbD_extractLsb',
      hplace, Nat.zero_add]
    simp [hi, show n - m + i < n by omega, show m - 1 - i < m by omega]

/-- R96: the marker overlaps itself by two bits and by no other number. -/
theorem marker_overlap (k : Nat) (h1 : 1 ≤ k) (h16 : k < 16) :
    (toBits Config.marker).take k = (toBits Config.marker).drop (16 - k) ↔ k = 2 := by
  interval_cases k <;> decide

/-- The marker's first 14 bits. -/
theorem take_marker : (toBits Config.marker).take 14 = toBits 0b01101100101100#14 := by decide

/-- R122: of a marker's bits only the second can complete an earlier one, and does so where the window ends in the
marker's first 14 bits. -/
theorem completes_marker_iff (nobs : Nat) (win : Window) (k : Nat) (h1 : 1 ≤ k) (h16 : k < 16) :
    Completes nobs (toBits win ++ toBits Config.marker) k ↔
      k = 2 ∧ 14 ≤ nobs ∧ win.extractLsb' 0 14 = 0b01101100101100#14 := by
  have hsplit : ((toBits win ++ toBits Config.marker).drop k).take 16 = toBits Config.marker ↔
      (toBits win).drop k = (toBits Config.marker).take (16 - k) ∧
        (toBits Config.marker).take k = (toBits Config.marker).drop (16 - k) := by
    have hl : ((toBits win).drop k).length = 16 - k := by rw [List.length_drop, length_toBits]
    have hleft : ((toBits win ++ toBits Config.marker).drop k).take 16 =
        (toBits win).drop k ++ (toBits Config.marker).take k := by
      rw [List.drop_append_of_le_length (by rw [length_toBits]; omega), List.take_append, hl,
        List.take_of_length_le (by omega), show 16 - (16 - k) = k by omega]
    have hright := List.take_append_drop (16 - k) (toBits Config.marker)
    have hlen : ((toBits win).drop k).length = ((toBits Config.marker).take (16 - k)).length := by
      rw [hl, List.length_take, length_toBits]; omega
    rw [hleft]
    exact ⟨fun h => List.append_inj (h.trans hright.symm) hlen, fun ⟨hw, hm⟩ => by rw [hw, hm, hright]⟩
  rw [Completes, hsplit, marker_overlap k h1 h16]
  constructor
  · rintro ⟨hn, hw, rfl⟩
    rw [take_marker, ← toBits_extractLow win 14 (by decide), toBits_inj] at hw
    exact ⟨rfl, by omega, hw⟩
  · rintro ⟨rfl, hn, hw⟩
    refine ⟨by omega, ?_, rfl⟩
    rw [take_marker, ← toBits_extractLow win 14 (by decide), toBits_inj, hw]

/-- R122: a marker's sixteen bits complete it, whatever stood before. -/
theorem completes_marker_whole (nobs : Nat) (win : Window) :
    Completes nobs (toBits win ++ toBits Config.marker) 16 := by
  refine ⟨by omega, ?_⟩
  rw [List.drop_left' (length_toBits win)]
  exact List.take_of_length_le (length_toBits _).le

/-! ### A field scanned -/

/-- R122: a field that stands next is scanned up to the first bit that completes a marker. -/
theorem scanField_completes (s : State) (field : List Bool) (k : Nat) (hp : s.phase = .dScan)
    (hb : s.cursor.upTo field.length = field) (h1 : 1 ≤ k) (hk : k ≤ field.length)
    (hc : Completes s.nobs (toBits s.win ++ field) k)
    (hno : ∀ j, 1 ≤ j → j < k → ¬Completes s.nobs (toBits s.win ++ field) j) :
    scanField field s = .next
      { s with
        cursor := s.cursor.advanced k, win := Config.marker, nobs := 16, cand := (s.cursor.advanced k).lastOffset - 15,
        candHeld := true, sum := 0#32, wcnt := 0, phase := .dRead } := by
  rw [scanField_next s field hb, scanBits_completes _ k s field hp hb rfl h1 hk hc hno]

/-- R122: a group none of whose bits completes a marker is scanned to its end; its last 16 bits are the window. -/
theorem scanField_quiet (s : State) (g : Group) (hp : s.phase = .dScan) (hb : s.cursor.upTo 64 = toBits g)
    (hno : ∀ k, 1 ≤ k → k ≤ 64 → ¬Completes s.nobs (toBits s.win ++ toBits g) k) :
    scanField (toBits g) s = .next
      { s with cursor := s.cursor.advanced 64, win := g.extractLsb' 0 16, nobs := 16 } := by
  have hl : (toBits g).length = 64 := length_toBits g
  have hwin : ofBits 16 ((toBits s.win ++ toBits g).drop 64) = g.extractLsb' 0 16 := by
    have hdrop : (toBits s.win ++ toBits g).drop (16 + 48) = (toBits g).drop 48 := by
      rw [← List.drop_drop, List.drop_left' (length_toBits s.win)]
    rw [hdrop, ← toBits_lastSixteen, ofBits_toBits]
  have hnobs : min (s.nobs + 64) 16 = 16 := by omega
  rw [scanField_next s _ (by rwa [hl]), hl, scanBits_quiet 64 s _ hp hb hl hno, hwin, if_neg (by decide), hnobs]

/-! ### A group read, a group emitted -/

/-- R123: a group that stands next is read whole, with room for its word. -/
theorem readStep_group (s : State) (g : Group) (hb : s.cursor.upTo 64 = toBits g) (hw : s.wcnt < 1536) :
    readStep s = .next
      { s with
        cursor := s.cursor.advanced 64, wbuf := s.wbuf.write s.wcnt (s.theCodec.demod g),
        sum := s.sum + s.theCodec.demod g, win := g.extractLsb' 0 16, nobs := 16, wcnt := s.wcnt + 1,
        phase := if s.wcnt + 1 = 1536 then .dCheck else .dRead } := by
  simp only [readStep, s.cursor.nextBytes_some g hb]
  rw [readGroup, if_pos (by simpa using hw)]
  rfl

/-- R95: a group goes out in `E_WORD` exactly if it is the modulated form of the word at hand. -/
theorem emitField_word (s : State) (g : Group) (w : Word) (h : blkWord s s.wcnt = .next w) :
    emitField g s = if s.theCodec.mod s.lastRawBit w = g then wordStep s else .refused .fieldNotHere := by
  rw [emitField, h, andThen_of_next]

end Sys2Proof.Machine
end

section
/-! The statements about the fields of a frame. -/

namespace Sys2Proof.Machine

/-- Settles O30: in `D_SCAN` the first bit to complete a marker is the second or the last, by `completes_marker_iff`. -/
theorem markIsRecognisedOrEmitted : Obligations.MarkIsRecognisedOrEmitted := by
  intro s
  refine ⟨fun hp hb => ⟨fun hwin => ?_, fun hn hwin => ?_⟩, fun hp hb => ?_, exec_mark_emitting s,
    exec_mark_elsewhere s⟩
  · rw [exec_mark_scanning s hp]
    refine scanField_completes s _ 16 hp hb (by decide) le_rfl (completes_marker_whole _ _) fun j h1 h16 hj => ?_
    obtain ⟨-, hn, hw⟩ := (completes_marker_iff _ _ j h1 h16).1 hj
    exact hwin.elim (fun h => absurd hn (by omega)) (fun h => h hw)
  · rw [exec_mark_scanning s hp]
    refine scanField_completes s _ 2 hp hb (by decide) (by decide)
      ((completes_marker_iff _ _ 2 (by decide) (by decide)).2 ⟨rfl, hn, hwin⟩) fun j h1 h2 hj => ?_
    obtain ⟨rfl, -⟩ := (completes_marker_iff _ _ j h1 (by omega)).1 hj
    exact lt_irrefl 2 h2
  · rw [exec_mark_scanning s hp]
    exact scanField_refused s _ hb

/-- Settles O31: the group's three ways across the boundary, each by the lemma of its operation. -/
theorem groupIsReadOrScannedOrEmitted : Obligations.GroupIsReadOrScannedOrEmitted := by
  intro s g completes
  have hl : (toBits g).length = 64 := length_toBits g
  refine ⟨fun hp hb hw => ?_, fun hp hb hno => ?_, fun k hp hb h1 hk hc hno => ?_, fun hp hb => ?_,
    fun w hp ho hw hword => ?_, exec_grp_elsewhere s g⟩
  · rw [exec_grp_reading s g hp, readField_next s g hb, readStep_group s g hb hw]
  · rw [exec_grp_scanning s g hp]
    exact scanField_quiet s g hp hb hno
  · rw [exec_grp_scanning s g hp]
    exact scanField_completes s _ k hp (by rwa [hl]) h1 (by rwa [hl]) hc hno
  · rcases hp with hp | hp
    · rw [exec_grp_reading s g hp, readField_refused s g hb]
    · rw [exec_grp_scanning s g hp, scanField_refused s _ (by rwa [hl])]
  · have hblk := (blkWord_next s s.wcnt w).2 ⟨ho, hw, hword⟩
    rw [exec_grp_emitting s g hp, emitField_word s g w hblk]
    exact ⟨fun hg => if_pos hg, fun hg => if_neg hg⟩

end Sys2Proof.Machine
end

section
/-! SUPPORT. A DECODE on its way: runs of the step machine with nothing presented or issued, in progress at every step
before the last, and the runs its six step rules make. -/

namespace Sys2Proof.Machine

/-- The framer by itself: no command record waits, and nothing is issued. -/
def State.alone (s : State) : State := { s with cmd := none, issue := none }

@[simp] theorem alone_phase (s : State) : s.alone.phase = s.phase := rfl

theorem State.alone_of_quiet (s : State) (hc : s.cmd = none) (hi : s.issue = none) : s.alone = s := by
  rw [State.alone, ← hc, ← hi]

/-- R21: by itself the framer comes from one state to another in `n` steps, a command in progress at each one before. -/
structure Goes (n : Nat) (s t : State) : Prop where
  run : runSteps n s.alone = .next t.alone
  busy : ∀ k < n, ∃ u, runSteps k s.alone = .next u ∧ u.phase ≠ .idle

theorem goes_refl (s : State) : Goes 0 s s := ⟨rfl, fun _ hk => absurd hk (Nat.not_lt_zero _)⟩

theorem Goes.trans {m n : Nat} {s t u : State} (h : Goes m s t) (h' : Goes n t u) : Goes (m + n) s u where
  run := by rw [runSteps_add, h.run, andThen_of_next, h'.run]
  busy k hk := by
    rcases Nat.lt_or_ge k m with hlt | hge
    · exact h.busy k hlt
    · obtain ⟨j, rfl⟩ := Nat.exists_eq_add_of_le hge
      rw [runSteps_add, h.run, andThen_of_next]
      exact h'.busy j (by omega)

/-- Two runs to the end of a command are the same run. -/
theorem Goes.unique {m n : Nat} {s t u : State} (h : Goes m s t) (h' : Goes n s u) (ht : t.phase = .idle)
    (hu : u.phase = .idle) : t.alone = u.alone := by
  have hle {m n : Nat} {t u : State} (h : Goes m s t) (h' : Goes n s u) (ht : t.phase = .idle) : n ≤ m := by
    by_contra hlt
    obtain ⟨v, hv, hbusy⟩ := h'.busy m (by omega)
    rw [h.run] at hv
    cases hv
    exact hbusy ht
  obtain rfl : m = n := le_antisymm (hle h' h hu) (hle h h' ht)
  exact (Host.Outcome.next.inj (h'.run.symm.trans h.run)).symm

/-- R21, R90: so the framer comes to the end of its command; of the host's port the run leaves everything as it is. -/
structure GoesToEnd (n : Nat) (s t : State) : Prop where
  goes : Goes n s t
  ended : t.ended
  cmd : t.cmd = s.cmd
  issue : t.issue = s.issue

theorem Goes.toEnd {m n : Nat} {s t u : State} (h : Goes m s t) (h' : GoesToEnd n t u) (hc : t.cmd = s.cmd)
    (hi : t.issue = s.issue) : GoesToEnd (m + n) s u :=
  ⟨h.trans h'.goes, h'.ended, h'.cmd.trans hc, h'.issue.trans hi⟩

/-- R21: the step rule of the phase makes a run of one step. -/
theorem goes_one {s t : State} (i : Instr) (hr : s.phase.rule = some i) (h : exec i s.alone = .next t.alone) :
    Goes 1 s t where
  run := by rw [runSteps_one, step_running s.alone i rfl rfl hr, h]
  busy k hk := by
    obtain rfl : k = 0 := by omega
    refine ⟨s.alone, rfl, fun hidle => ?_⟩
    have hnone := (Phase.rule_eq_none _).2 hidle
    rw [alone_phase, hr] at hnone
    cases hnone

/-! ### The step rules -/

theorem goes_scanStep (s : State) : Goes 1 (setPhase .dScan s) (scanStep s) := by
  refine goes_one .dScan rfl ?_
  have hn : (setPhase .dScan s).alone.cursor.nextBit = s.cursor.nextBit := rfl
  rcases s.cursor.nextBit_cases with ⟨b, -, h⟩ | ⟨-, h⟩ <;>
    simp only [exec, execDScan, scanStep, hn, h, scanBit]
  · rw [apply_ite State.alone]
    rfl
  · rfl

/-- R123: one more group, with room for its word. -/
theorem goes_takeGroup (s : State) (g : Group) (hg : s.cursor.upTo 64 = toBits g) (hw : s.wcnt < 1536) :
    let t := takeGroup g (s.theCodec.demod g) (setCursor (s.cursor.advanced 64) s)
    Goes 1 (setPhase .dRead s) (setPhase (phaseAfterWord t) t) :=
  goes_one .dRead rfl (readStep_group (setPhase .dRead s).alone g hg hw)

/-- R123, R202: a read step with fewer than 64 bits left. -/
theorem goes_truncated (s : State) (h : (s.cursor.upTo 64).length < 64) :
    Goes 1 (setPhase .dRead s) (raise .truncated (setCursor (s.cursor.advanced (s.cursor.upTo 64).length) s)) := by
  refine goes_one .dRead rfl ?_
  rcases (setPhase .dRead s).alone.cursor.nextBytes_cases with ⟨g, hg, -⟩ | ⟨-, hn⟩
  · exact absurd (congrArg List.length hg) (by rw [length_toBits]; exact h.ne)
  · simp only [exec, execDRead, readStep, hn]
    rfl

/-- R124: the check, and where it leads. -/
theorem goes_checkStep (s : State) :
    Goes 1 (setPhase .dCheck s) (setPhase (if s.sumAccepted then .dIndex else .dScan) s) := by
  refine goes_one .dCheck rfl ?_
  have ha : (setPhase .dCheck s).alone.sumAccepted = s.sumAccepted := rfl
  simp only [exec, execDCheck, checkStep, ha]
  split <;> rfl

/-- R125: the seek of an accepted candidate. -/
theorem goes_indexStep (s : State) :
    Goes 1 (setPhase .dIndex s) (setPhase .dCommit (recordTotal (seekIndex s).1 (seekIndex s).2)) := by
  refine goes_one .dIndex rfl ?_
  have hcur : (setPhase .dIndex s).alone.cursor = s.cursor := rfl
  rcases hn : s.cursor.seekIndex with ⟨_ | n, c⟩ <;>
    simp only [exec, execDIndex, indexStep, seekIndex, hcur, hn] <;> rfl

/-- R126: the commit of a candidate that has its offset, its length and its words. -/
theorem goes_commitStep (s : State) (ws : List Word) (hc : s.candHeld = true) (ht : s.totHeld = true)
    (hs : stagedWords s.wbuf = some ws) : Goes 1 (setPhase .dCommit s) (succeed (populate ws s)) :=
  goes_one .dCommit rfl ((commitStep_next _ _).2 ⟨hc, ht, ws, hs, rfl⟩)

/-- R125, R126: the seek and the commit of an accepted candidate come to what the whole command's end does. -/
theorem goes_finishDecode (s : State) (ws : List Word) (hc : s.candHeld = true) (h : s.Accepted ws) :
    ∃ t, finishDecode s = .next t ∧ GoesToEnd 2 (setPhase .dIndex s) t ∧ t.res = .ok ∧ blkWords t.blk = some ws ∧
      t.desc.dataBitoff = s.cand := by
  obtain ⟨p, m, d, e, -⟩ := seekIndex_spec s
  refine ⟨_, finishDecode_accepted s ws h,
    ⟨(goes_indexStep s).trans (goes_commitStep _ ws ?_ rfl ?_), ⟨rfl, by simp⟩, ?_, ?_⟩, rfl,
    blkWords_writeWords _ _ h.length, ?_⟩ <;> rw [e]
  · exact hc
  · exact h.staged
  all_goals rfl

end Sys2Proof.Machine
end

section
/-! SUPPORT. The body of a candidate, group by group: the words it stages, and the run that reads it. -/

namespace Sys2Proof.Machine

/-! ### Bits that are there -/

/-- R177 (c): a run of bits that is there begins with every shorter one. -/
theorem Cursor.take_upTo {c : Cursor} {n : Nat} (h : (c.upTo n).length = n) (j : Nat) (hj : j ≤ n) :
    (c.upTo n).take j = c.upTo j := by
  have hlen : (c.upTo j).length = j := by
    by_contra hne
    have hle := c.length_upTo_le j
    have hshort := c.upTo_short j n (by omega) hj
    rw [hshort] at h
    omega
  have hadd := c.upTo_add j (n - j) hlen
  rw [Nat.add_sub_cancel' hj] at hadd
  rw [hadd, List.take_left' hlen]

theorem Cursor.length_upTo_of_le {c : Cursor} {n : Nat} (h : (c.upTo n).length = n) {j : Nat} (hj : j ≤ n) :
    (c.upTo j).length = j := by
  rw [← c.take_upTo h j hj, List.length_take]
  omega

/-- R177 (c): behind the first bits of a run stand the others. -/
theorem Cursor.upTo_advanced {c : Cursor} {m n : Nat} (h : (c.upTo (m + n)).length = m + n) :
    (c.advanced m).upTo n = (c.upTo (m + n)).drop m := by
  have hlen := c.length_upTo_of_le h (Nat.le_add_right m n)
  rw [c.upTo_add m n hlen, List.drop_left' hlen]

/-- R171: bits that are there one by one can be asked for together. -/
theorem Cursor.length_upTo_of_there {c : Cursor} {n : Nat} (h : ∀ i < n, c.bitAt (c.pos + i) ≠ none) :
    (c.upTo n).length = n := by
  by_contra hne
  have hle := c.length_upTo_le n
  rw [c.upTo_eq] at hne hle
  exact h _ (lt_of_le_of_ne hle hne) (bitsFrom_short _ _ _ (lt_of_le_of_ne hle hne))

/-- 93 U8: `n` bits are left to a cursor, and no more. -/
structure Cursor.EndsAfter (c : Cursor) (n : Nat) : Prop where
  there : (c.upTo n).length = n
  ends : c.bitAt (c.pos + n) = none

theorem Cursor.EndsAfter.advanced {c : Cursor} {m n : Nat} (h : c.EndsAfter (m + n)) : (c.advanced m).EndsAfter n where
  there := by rw [c.upTo_advanced h.there, List.length_drop, h.there]; omega
  ends := by rw [c.bitAt_advanced, c.advanced_pos, Nat.add_assoc]; exact h.ends

/-- R172: what a cursor near its end has of the bits asked for. -/
theorem Cursor.EndsAfter.upTo_eq {c : Cursor} {n : Nat} (h : c.EndsAfter n) (m : Nat) (hm : n ≤ m) :
    c.upTo m = c.upTo n := by
  obtain ⟨k, rfl⟩ := Nat.exists_eq_add_of_le hm
  have hnil : (c.advanced n).upTo k = [] := by
    cases k with
    | zero => rw [Cursor.upTo_eq, bitsFrom]
    | succ k => rw [Cursor.upTo_eq, bitsFrom, c.bitAt_advanced, c.advanced_pos, h.ends]
  rw [c.upTo_add n k h.there, hnil, List.append_nil]

/-- A bit that is there is one of those left. -/
theorem Cursor.EndsAfter.exists_add_one {c : Cursor} {n : Nat} (h : c.EndsAfter n) {b : Bool}
    (hb : c.bitAt c.pos = some b) : ∃ m, n = 1 + m := by
  cases n with
  | zero =>
    have hends := h.ends
    rw [Nat.add_zero, hb] at hends
    cases hends
  | succ n => exact ⟨n, Nat.add_comm n 1⟩

/-- Of the bits left, `m` are there, or fewer. -/
theorem Cursor.EndsAfter.whole_or_short {c : Cursor} {n : Nat} (h : c.EndsAfter n) (m : Nat) :
    (∃ k, n = m + k ∧ (c.upTo m).length = m) ∨ ((c.upTo m).length < m ∧ (c.upTo m).length ≤ n) := by
  rcases Nat.lt_or_ge n m with hlt | hge
  · rw [h.upTo_eq m hlt.le, h.there]
    exact .inr ⟨hlt, le_rfl⟩
  · exact .inl ⟨n - m, (Nat.add_sub_cancel' hge).symm, c.length_upTo_of_le h.there hge⟩

/-! ### The words of a run of groups -/

/-- R123, R67: the words of `n` groups. -/
def groupWords (c : Codec) (n : Nat) (bits : List Bool) : List Word :=
  (List.range n).map fun i => c.demod (ofBits 64 ((bits.drop (64 * i)).take 64))

theorem groupWords_body (c : Codec) (body : List Bool) : groupWords c 1536 body = bodyWords c body := rfl

theorem length_bodyWords (c : Codec) (body : List Bool) : (bodyWords c body).length = 1536 := by
  rw [bodyWords, List.length_map, List.length_range]

theorem groupWords_succ (c : Codec) (n : Nat) (bits : List Bool) :
    groupWords c (n + 1) bits = c.demod (ofBits 64 (bits.take 64)) :: groupWords c n (bits.drop 64) := by
  have hdrop (i : Nat) : 64 * (i + 1) = 64 + 64 * i := by omega
  simp only [groupWords, List.range_succ_eq_map, List.map_cons, List.map_map, Function.comp_def, Nat.succ_eq_add_one,
    List.drop_drop, hdrop, Nat.mul_zero, List.drop_zero]

/-- R25, R28: the words staged so far, and their sum. -/
def State.Holds (s : State) (ws : List Word) : Prop := collect s.wbuf.read 0 s.wcnt = some ws ∧ s.sum = sumWords ws

theorem State.Holds.takeGroup {s : State} {ws : List Word} (h : s.Holds ws) (g : Group) (w : Word) :
    (takeGroup g w s).Holds (ws ++ [w]) := by
  obtain ⟨hws, hsum⟩ := h
  refine ⟨collect_succ _ _ _ _ _ ?_ (by simp), by rw [takeGroup_sum, hsum, sumWords_append_one]⟩
  rw [← hws]
  exact collect_congr _ _ _ _ fun j hj => Memory.read_write_other _ _ _ _ (by omega)

/-- R120, R123: with all its bits there, a body is read whole, and its words are staged behind those before. -/
theorem readBody_whole (n : Nat) (s : State) (ws : List Word) (hb : (s.cursor.upTo (64 * n)).length = 64 * n)
    (hws : s.Holds ws) :
    ∃ t, readBody n s = .ok t ∧ t.Holds (ws ++ groupWords s.theCodec n (s.cursor.upTo (64 * n))) ∧
      (0 < n → t.nobs = 16 ∧ toBits t.win = (s.cursor.upTo (64 * n)).drop (64 * n - 16)) := by
  induction n generalizing s ws with
  | zero => exact ⟨s, rfl, by simpa [groupWords] using hws, fun h => absurd h (lt_irrefl 0)⟩
  | succ n ih =>
    have hsucc : 64 * (n + 1) = 64 + 64 * n := by omega
    have h64 := Cursor.length_upTo_of_le hb (j := 64) (by omega)
    rcases s.cursor.nextBytes_cases with ⟨g, hg, hn⟩ | ⟨hl, -⟩
    · have hnext := s.cursor.upTo_add 64 (64 * n) h64
      have hrest : ((s.cursor.advanced 64).upTo (64 * n)).length = 64 * n := by
        rw [hsucc, hnext, List.length_append, h64] at hb
        omega
      obtain ⟨t, ht, hst, hwin⟩ := ih (takeGroup g (s.theCodec.demod g) (setCursor (s.cursor.advanced 64) s)) _ hrest
        (State.Holds.takeGroup (s := setCursor (s.cursor.advanced 64) s) hws g _)
      refine ⟨t, by simpa only [readBody, hn] using ht, ?_, fun _ => ?_⟩
      · rw [hsucc, hnext, groupWords_succ, List.take_left' h64, List.drop_left' h64, hg, ofBits_toBits]
        simpa using hst
      · rw [hsucc, hnext]
        rcases Nat.eq_zero_or_pos n with rfl | hpos
        · cases ht
          refine ⟨rfl, ?_⟩
          rw [takeGroup_win, toBits_lastSixteen, Cursor.upTo_eq (s.cursor.advanced 64), bitsFrom, List.append_nil, hg]
        · obtain ⟨hnobs, hlast⟩ := hwin hpos
          refine ⟨hnobs, hlast.trans ?_⟩
          rw [show 64 + 64 * n - 16 = 64 + (64 * n - 16) by omega, ← List.drop_drop, List.drop_left' h64]
          rfl
    · omega

/-- R120, R202: with too few bits there, a body is cut short. -/
theorem readBody_short (n : Nat) (s : State) (h : (s.cursor.upTo (64 * n)).length < 64 * n) :
    ∃ t, readBody n s = .error t := by
  rcases ht : readBody n s with t | t
  · exact ⟨t, rfl⟩
  · exact absurd (readBody_ok n s t ht).1 h.ne

/-! ### The run that reads a body -/

/-- R123, R136: a step for each group. -/
theorem goes_readBody_ok (n : Nat) (s t : State) (hw : s.wcnt + n = 1536) (h : readBody n s = .ok t) :
    Goes n (setPhase (phaseAfterWord s) s) (setPhase .dCheck t) := by
  induction n generalizing s with
  | zero =>
    cases h
    have hlast : phaseAfterWord t = .dCheck := if_pos hw
    rw [hlast]
    exact goes_refl _
  | succ n ih =>
    simp only [readBody] at h
    rcases s.cursor.nextBytes_cases with ⟨g, hg, hn⟩ | ⟨hl, hn⟩ <;> rw [hn] at h <;> simp only at h
    · have hread : phaseAfterWord s = .dRead := if_neg (show s.wcnt ≠ 1536 by omega)
      have hmore := ih _ (by rw [takeGroup_wcnt, setCursor_wcnt]; omega) h
      rw [hread, Nat.add_comm n 1]
      exact (goes_takeGroup s g hg (by omega)).trans hmore
    · cases h

/-- R123, R136, R202: a step for each group there is, and one more. -/
theorem goes_readBody_error (n : Nat) (s t : State) (hw : s.wcnt + n = 1536) (h : readBody n s = .error t) :
    Goes ((s.cursor.upTo (64 * n)).length / 64 + 1) (setPhase (phaseAfterWord s) s) t := by
  induction n generalizing s with
  | zero => cases h
  | succ n ih =>
    simp only [readBody] at h
    have hread : phaseAfterWord s = .dRead := if_neg (show s.wcnt ≠ 1536 by omega)
    rw [hread]
    rcases s.cursor.nextBytes_cases with ⟨g, hg, hn⟩ | ⟨hl, hn⟩ <;> rw [hn] at h <;> simp only at h
    · have hmore := ih _ (by rw [takeGroup_wcnt, setCursor_wcnt]; omega) h
      have h64 : (s.cursor.upTo 64).length = 64 := by rw [hg, length_toBits]
      have hcount : (s.cursor.upTo (64 * (n + 1))).length / 64 + 1 =
          1 + (((s.cursor.advanced 64).upTo (64 * n)).length / 64 + 1) := by
        rw [show 64 * (n + 1) = 64 + 64 * n by omega, s.cursor.upTo_add _ _ h64, List.length_append, h64]
        omega
      rw [hcount]
      exact (goes_takeGroup s g hg (by omega)).trans hmore
    · cases h
      have hcount : (s.cursor.upTo (64 * (n + 1))).length / 64 + 1 = 1 := by
        rw [s.cursor.upTo_short 64 _ hl (by omega)]
        omega
      rw [hcount]
      exact goes_truncated s hl

/-! ### A candidate and its body -/

/-- R122: a candidate has begun: none of its words is counted, and none is in the sum. -/
def State.Begun (c : State) : Prop := c.wcnt = 0 ∧ c.sum = 0#32

theorem State.Begun.reads {c : State} (h : c.Begun) : phaseAfterWord c = .dRead :=
  if_neg (by rw [h.1]; decide)

/-- R120, R123: `u` is the candidate `c` with its body read, in both forms of DECODE. -/
structure State.BodyRead (c u : State) : Prop where
  whole : readBody 1536 c = .ok u
  stepped : Goes 1536 (setPhase .dRead c) (setPhase .dCheck u)
  scansTo : c.ScansTo u
  cursor : u.cursor = c.cursor.advanced 98304
  res : u.res = c.res
  cand : u.cand = c.cand
  held : u.candHeld = c.candHeld
  staged : stagedWords u.wbuf = some (bodyWords c.theCodec (c.cursor.upTo 98304))
  sum : u.sum = sumWords (bodyWords c.theCodec (c.cursor.upTo 98304))
  nobs : u.nobs = 16
  win : toBits u.win = (c.cursor.upTo 98304).drop 98288

theorem bodyRead_of_whole (c : State) (h : c.Begun) (hlen : (c.cursor.upTo 98304).length = 98304) :
    ∃ u, c.BodyRead u := by
  have hempty : c.Holds [] := ⟨by rw [h.1]; rfl, h.2⟩
  obtain ⟨u, hu, ⟨hst, hsum⟩, hwin⟩ := readBody_whole 1536 c [] hlen hempty
  obtain ⟨hnobs, hlast⟩ := hwin (by decide)
  obtain ⟨-, hframe⟩ := readBody_ok 1536 c u hu
  have hgoes := goes_readBody_ok 1536 c u (by rw [h.1]) hu
  have hwcnt : u.wcnt = 1536 := by rw [hframe, h.1]
  rw [h.reads] at hgoes
  rw [List.nil_append, groupWords_body, show 64 * 1536 = 98304 from rfl] at hst hsum
  rw [hwcnt] at hst
  refine ⟨u, hu, hgoes, ?_, ?_, ?_, ?_, ?_, hst, hsum, hnobs, hlast⟩
  all_goals rw [hframe]
  exact { scansTo_refl c with cursor := ⟨98304, rfl⟩ }

/-- R120, R202: a candidate cut short, in both forms of DECODE. -/
theorem truncated_of_short (c : State) (h : c.Begun) (hlen : (c.cursor.upTo 98304).length < 98304) :
    ∃ t, readBody 1536 c = .error t ∧
      GoesToEnd ((c.cursor.upTo 98304).length / 64 + 1) (setPhase .dRead c) t ∧ t.res = .truncated ∧
      t.desc = c.desc ∧ t.blk = c.blk := by
  obtain ⟨t, ht⟩ := readBody_short 1536 c hlen
  obtain ⟨-, hframe⟩ := readBody_error 1536 c t ht
  have hgoes := goes_readBody_error 1536 c t (by rw [h.1]) ht
  rw [h.reads] at hgoes
  refine ⟨t, ht, ⟨hgoes, ?_, ?_, ?_⟩, ?_, ?_, ?_⟩ <;> rw [hframe]
  · exact ⟨rfl, by simp [Failure.res]⟩
  all_goals rfl

/-- R124, R136: 1536 groups and the check. -/
theorem State.BodyRead.goes_checked {c u : State} (h : c.BodyRead u) :
    Goes 1537 (setPhase .dRead c) (setPhase (if u.sumAccepted then .dIndex else .dScan) u) :=
  h.stepped.trans (goes_checkStep u)

/-- R124, R133: a candidate whose words pass the gate. -/
theorem State.BodyRead.accepted {c u : State} (h : c.BodyRead u) (ha : u.sumAccepted = true) :
    u.Accepted (bodyWords c.theCodec (c.cursor.upTo 98304)) :=
  ⟨length_bodyWords _ _, h.staged, h.sum ▸ (sumAccepted_iff u).1 ha⟩

end Sys2Proof.Machine
end

section
/-! SUPPORT. The step machine's DECODE and the whole one (R120): they begin alike, attempt by attempt they come to the same,
and on a cursor with an end they come to one. -/

namespace Sys2Proof.Machine

/-! ### The begin of a DECODE -/

/-- R121: the accept step of a DECODE that the host has set up. -/
theorem exec_acceptD_ready (s : State) (h : s.readyToDecode) :
    exec .acceptD s = .next (setPhase .dScan (takeCommand (beginDecode s))) := by
  simp only [exec, execAcceptD, acceptDecode, (decodeRefusal_none s).2 h]

/-- R120: so set up, the whole command begins its attempts. -/
theorem exec_decode_ready (s : State) (h : s.readyToDecode) :
    exec .decode s = attempts s.cursor.turns (beginDecode s) := by
  simp only [exec, execDecode, decodeWhole, (decodeRefusal_none s).2 h]

/-- R90: the step that takes a presented DECODE. -/
theorem step_presented_ready (s : State) (hp : s.presented 0#8) (h : s.readyToDecode) :
    step s = .next (setPhase .dScan (beginDecode s)).alone := by
  have hquiet := State.alone_of_quiet (setPhase .dScan (takeCommand (beginDecode s))) rfl hp.1
  rw [step_presented_decode s hp.1 h.1 hp.2, exec_acceptD_ready s h, ← hquiet]
  rfl

/-- R90, R136: a presented DECODE takes a step for its acceptance and then those of its run. -/
theorem runSteps_presented {s t : State} {n : Nat} (hp : s.presented 0#8) (h : s.readyToDecode)
    (hn : Goes n (setPhase .dScan (beginDecode s)) t) :
    runSteps (n + 1) s = .next t.alone ∧ ∀ k, 0 < k → k < n + 1 → ∃ u, runSteps k s = .next u ∧ u.phase ≠ .idle := by
  have hsucc (k : Nat) : runSteps (k + 1) s = runSteps k (setPhase .dScan (beginDecode s)).alone := by
    rw [runSteps, step_presented_ready s hp h, andThen_of_next]
  refine ⟨(hsucc n).trans hn.run, fun k hpos hk => ?_⟩
  obtain ⟨k, rfl⟩ : ∃ j, k = j + 1 := ⟨k - 1, by omega⟩
  rw [hsucc k]
  exact hn.busy k (by omega)

/-! ### An attempt in both forms -/

/-- R120, R122: a turn of the loop without a bit. -/
theorem attempts_exhausted (fuel : Nat) (s : State) (hb : s.cursor.bitAt s.cursor.pos = none) :
    attempts (fuel + 1) s = .next (raise .notFound s) := by
  simp only [attempts, s.cursor.nextBit_none hb]
  rfl

/-- R120, R122: a turn of the loop whose bit completes no marker. -/
theorem attempts_quiet (fuel : Nat) (s : State) (b : Bool) (hb : s.cursor.bitAt s.cursor.pos = some b)
    (hm : (observeBit b (setCursor (s.cursor.advanced 1) s)).atMarker = false) :
    attempts (fuel + 1) s = attempts fuel (observeBit b (setCursor (s.cursor.advanced 1) s)) := by
  simp only [attempts, s.cursor.nextBit_some b hb, hm]
  rfl

/-- R120, R122: a turn of the loop whose bit completes a marker, with what its body comes to. -/
theorem attempts_candidate (fuel : Nat) (s : State) (b : Bool) (hb : s.cursor.bitAt s.cursor.pos = some b)
    (hm : (observeBit b (setCursor (s.cursor.advanced 1) s)).atMarker = true) :
    let c := beginCandidate (s.cursor.advanced 1).lastOffset (observeBit b (setCursor (s.cursor.advanced 1) s))
    (∀ u, readBody 1536 c = .error u → attempts (fuel + 1) s = .next u) ∧
      ∀ u, readBody 1536 c = .ok u →
        attempts (fuel + 1) s = if u.sumAccepted then finishDecode u else attempts fuel u := by
  constructor <;> intro u hu <;>
    simp only [attempts, s.cursor.nextBit_some b hb, hm, if_true, observeBit_cursor, setCursor_cursor, hu]

/-- R120, R136: what the whole command answers is where the step machine's run from `s` ends, within `N + 1` steps. -/
def EndsAlike (o : Answers State) (s : State) (N : Nat) : Prop :=
  ∃ n t, o = .next t ∧ GoesToEnd n s t ∧ n ≤ N + 1

/-- One step before. -/
theorem EndsAlike.after {o : Answers State} {s t : State} {N : Nat} (h : EndsAlike o t N) (hone : Goes 1 s t)
    (hc : t.cmd = s.cmd) (hi : t.issue = s.issue) : EndsAlike o s (1 + N) := by
  obtain ⟨n, u, ho, hn, hle⟩ := h
  exact ⟨1 + n, u, ho, hone.toEnd hn hc hi, by omega⟩

/-- R120, R136: a candidate, if what comes after a rejected one ends alike: its body takes fewer steps than it has bits. -/
theorem candidate_endsAlike {o : Answers State} {c : State} {fuel N : Nat} (hbegun : c.Begun) (hheld : c.candHeld = true)
    (hleft : c.cursor.EndsAfter N) (hcut : ∀ u, readBody 1536 c = .error u → o = .next u)
    (hwhole : ∀ u, readBody 1536 c = .ok u → o = if u.sumAccepted then finishDecode u else attempts fuel u)
    (hlater : ∀ u M, u.cursor.EndsAfter M → M ≤ N → EndsAlike (attempts fuel u) (setPhase .dScan u) M) :
    EndsAlike o (setPhase .dRead c) N := by
  rcases hleft.whole_or_short 98304 with ⟨M, rfl, hlen⟩ | ⟨hlen, hle⟩
  · obtain ⟨u, hu⟩ := bodyRead_of_whole c hbegun hlen
    have hgoes := hu.goes_checked
    rw [hwhole u hu.whole]
    cases ha : u.sumAccepted <;> rw [ha] at hgoes
    · obtain ⟨n, t, ht, hn, hle⟩ := hlater u M (hu.cursor ▸ hleft.advanced) (by omega)
      exact ⟨_, t, ht, hgoes.toEnd hn hu.scansTo.cmd hu.scansTo.issue, by omega⟩
    · obtain ⟨t, ht, hn, -⟩ := goes_finishDecode u _ (hu.held.trans hheld) (hu.accepted ha)
      exact ⟨_, t, ht, hgoes.toEnd hn hu.scansTo.cmd hu.scansTo.issue, by omega⟩
  · obtain ⟨t, ht, hn, -⟩ := truncated_of_short c hbegun hlen
    exact ⟨_, t, hcut t ht, hn, by omega⟩

/-- R120, R136: with `N` bits left, the attempts and the step machine come to the same end. -/
theorem attempts_endsAlike (fuel N : Nat) (s : State) (hleft : s.cursor.EndsAfter N) (hfuel : N < fuel) :
    EndsAlike (attempts fuel s) (setPhase .dScan s) N := by
  induction fuel generalizing s N with
  | zero => exact absurd hfuel (Nat.not_lt_zero N)
  | succ fuel ih =>
    have hscan := goes_scanStep s
    rcases scanStep_cases s with ⟨hb, e⟩ | ⟨b, hb, h⟩
    · rw [e] at hscan
      exact ⟨1, _, attempts_exhausted fuel s hb, ⟨hscan, ⟨rfl, by simp [Failure.res]⟩, rfl, rfl⟩, by omega⟩
    obtain ⟨N, rfl⟩ := hleft.exists_add_one hb
    have hrest := hleft.advanced
    rcases h with ⟨hm, e⟩ | ⟨hm, e⟩ <;> rw [e] at hscan
    · obtain ⟨hcut, hwhole⟩ := attempts_candidate fuel s b hb hm
      exact (candidate_endsAlike ⟨rfl, rfl⟩ rfl hrest hcut hwhole fun u M hu hM => ih M u hu (by omega)).after
        hscan rfl rfl
    · rw [attempts_quiet fuel s b hb hm]
      exact (ih N (observeBit b (setCursor (s.cursor.advanced 1) s)) hrest (by omega)).after hscan rfl rfl

/-! ### A captured stream -/

theorem Cursor.endsAfter_remaining {c : Cursor} (h : c.captured) : c.EndsAfter c.remaining where
  there := by rw [c.upTo_captured h, List.length_take, c.length_ahead, Nat.min_self]
  ends := by
    rw [c.bitAt_captured h, List.getElem?_eq_none_iff, Cursor.remaining]
    omega

theorem Cursor.turns_captured {c : Cursor} (h : c.captured) : c.turns = c.remaining + 1 := by
  rcases h with h | h <;> simp only [Cursor.turns, h]

/-- R120: on a capture the whole command and the step machine, launched, end alike. -/
theorem exec_decode_endsAlike (s : State) (h : s.readyToDecode) (hc : s.cursor.captured) :
    EndsAlike (exec .decode s) (setPhase .dScan (beginDecode s)) s.cursor.remaining := by
  rw [exec_decode_ready s h, Cursor.turns_captured hc]
  exact attempts_endsAlike _ _ (beginDecode s) (Cursor.endsAfter_remaining hc) (Nat.lt_succ_self _)

/-- R120: what a run of the step machine to an end says of the whole command. -/
theorem exec_decode_of_goes {s t : State} {n : Nat} (h : s.readyToDecode) (hc : s.cursor.captured)
    (hn : Goes n (setPhase .dScan (beginDecode s)) t) (ht : t.phase = .idle) :
    ∃ t', exec .decode s = .next t' ∧ t'.alone = t.alone := by
  obtain ⟨m, t', e, hm, -⟩ := exec_decode_endsAlike s h hc
  exact ⟨t', e, hm.goes.unique hn hm.ended.1 ht⟩

end Sys2Proof.Machine
end

section
/-! The statement about the two forms of DECODE. -/

namespace Sys2Proof.Machine

/-- Settles O35: `exec_decode_endsAlike` from the accepted state, with the accept step before it. -/
theorem steppedDecodeIsTheWholeDecode : Obligations.SteppedDecodeIsTheWholeDecode := by
  intro s hp hr hc
  obtain ⟨n, t, e, hn, hle⟩ := exec_decode_endsAlike { s with cmd := none } hr hc
  have hquiet : t.alone = t := t.alone_of_quiet hn.cmd (hn.issue.trans hp.1)
  have hgoes : Goes n (setPhase .dScan (beginDecode s)) t := ⟨hn.goes.run, hn.goes.busy⟩
  obtain ⟨hrun, hbusy⟩ := runSteps_presented hp hr hgoes
  have hbound : n ≤ s.cursor.remaining + 1 := hle
  exact ⟨n + 1, t, hquiet ▸ hrun, e, hbusy, by omega⟩

end Sys2Proof.Machine
end

section
/-! SUPPORT. What a scan has before it: the last bits of the window and the bits ahead, and where in them a marker stands. -/

namespace Sys2Proof.Machine

/-- R122, R129: so many more bits complete the first place that is tested: all 16 in a fresh scan, one after a body. -/
def State.lead (s : State) : Nat := 16 - min s.nobs 15

/-- R129: the bits in which a scan looks for the marker: those of the window that can still begin one, then the next. -/
def State.view (s : State) (bits : List Bool) : List Bool := (toBits s.win ++ bits).drop s.lead

theorem State.lead_pos (s : State) : 1 ≤ s.lead := by rw [State.lead]; omega

theorem State.lead_le (s : State) : s.lead ≤ 16 := Nat.sub_le _ _

theorem State.length_view (s : State) (bits : List Bool) : (s.view bits).length + s.lead = 16 + bits.length := by
  have hle := s.lead_le
  rw [State.view, List.length_drop, List.length_append, length_toBits]
  omega

/-- Behind the window's bits the view goes on as the bits ahead do. -/
theorem State.drop_view (s : State) (bits : List Bool) (q : Nat) : (s.view bits).drop (q + 16) = bits.drop (q + s.lead) := by
  rw [State.view, List.drop_drop, show s.lead + (q + 16) = 16 + (q + s.lead) by omega, ← List.drop_drop,
    List.drop_left' (length_toBits s.win)]

/-- R122, R129: the bit that completes a marker is the last of one that stands in the view. -/
theorem completes_iff_view (s : State) (bits : List Bool) (k : Nat) (hk : 1 ≤ k) :
    Completes s.nobs (toBits s.win ++ bits) k ↔
      ∃ q, k = q + s.lead ∧ ((s.view bits).drop q).take 16 = toBits Config.marker := by
  have hlead : 16 ≤ s.nobs + k ↔ s.lead ≤ k := by rw [State.lead]; omega
  simp only [Completes, State.view, List.drop_drop, hlead]
  constructor
  · rintro ⟨hle, h⟩
    exact ⟨k - s.lead, by omega, by rwa [Nat.add_sub_cancel' hle]⟩
  · rintro ⟨q, rfl, h⟩
    exact ⟨Nat.le_add_left _ _, by rwa [Nat.add_comm q]⟩

/-- R122: whether a bit completes a marker, the bits behind it do not say. -/
theorem completes_take (nobs : Nat) (win : Window) (bits : List Bool) (j k : Nat) (hk : k ≤ j) :
    Completes nobs (toBits win ++ bits.take j) k ↔ Completes nobs (toBits win ++ bits) k := by
  have htake : toBits win ++ bits.take j = (toBits win ++ bits).take (16 + j) := by
    have hwin : (toBits win).take (16 + j) = toBits win :=
      List.take_of_length_le (by rw [length_toBits]; exact Nat.le_add_right 16 j)
    rw [List.take_append, length_toBits, hwin, Nat.add_sub_cancel_left]
  rw [Completes, Completes, htake, List.drop_take, List.take_take, min_eq_left (by omega)]

/-- R66: a marker stands wholly in the bits it is found in. -/
theorem firstMarkerAt.add_le_length {xs : List Bool} {p : Nat} (h : firstMarkerAt xs p) : p + 16 ≤ xs.length := by
  have hlen := congrArg List.length h.1
  rw [List.length_take, List.length_drop, length_toBits] at hlen
  omega

end Sys2Proof.Machine
end

section
/-! SUPPORT. The run of a scan: up to the first marker in its view, or to the cursor's end. -/

namespace Sys2Proof.Machine

theorem setPhase_of_eq {s : State} {p : Phase} (h : s.phase = p) : setPhase p s = s := by
  rw [setPhase, ← h]

/-- R122, R136: a step for each bit, as long as the scan goes on. -/
theorem goes_scanBits (n : Nat) (s : State) (h : ∀ k < n, (scanBits k s).phase = .dScan) : Goes n s (scanBits n s) := by
  induction n generalizing s with
  | zero => exact goes_refl s
  | succ n ih =>
    have hp : s.phase = .dScan := h 0 (Nat.succ_pos n)
    have hnext (k : Nat) : scanBits (k + 1) s = scanBits k (scanStep s) := by rw [scanBits, if_pos hp]
    have hone := goes_scanStep s
    rw [setPhase_of_eq hp] at hone
    rw [hnext, Nat.add_comm n 1]
    exact hone.trans (ih _ fun k hk => by rw [← hnext]; exact h (k + 1) (by omega))

/-- A scan with the next `N` bits at hand, `xs` its view. -/
structure State.Sees (s : State) (N : Nat) (xs : List Bool) : Prop where
  scanning : s.phase = .dScan
  there : (s.cursor.upTo N).length = N
  view : s.view (s.cursor.upTo N) = xs

theorem State.Sees.length {s : State} {N : Nat} {xs : List Bool} (h : s.Sees N xs) : xs.length + s.lead = 16 + N := by
  rw [← h.view, s.length_view, h.there]

/-- R122: a scan goes on as long as no marker is complete. -/
theorem State.Sees.scanning_on {s : State} {N : Nat} {xs : List Bool} (h : s.Sees N xs) (k : Nat) (hk : k ≤ N)
    (hno : ∀ q, q + s.lead ≤ k → (xs.drop q).take 16 ≠ toBits Config.marker) :
    (scanBits k s).phase = .dScan ∧ (scanBits k s).cursor = s.cursor.advanced k ∧ s.ScansTo (scanBits k s) := by
  have hbits := s.cursor.take_upTo h.there k hk
  rw [scanBits_quiet k s _ h.scanning rfl (Cursor.length_upTo_of_le h.there hk) fun j hj1 hj hc => ?_]
  · exact ⟨h.scanning, rfl, { scansTo_refl s with cursor := ⟨k, rfl⟩ }⟩
  · rw [← hbits, completes_take _ _ _ _ _ hj, completes_iff_view s _ _ hj1, h.view] at hc
    obtain ⟨q, rfl, hq⟩ := hc
    exact hno q hj hq

/-- R122: the candidate that begins at the first marker, found with the `k`-th bit. -/
structure State.CandidateAt (s : State) (k : Nat) (c : State) : Prop where
  phase : c.phase = .dRead
  scansTo : s.ScansTo c
  cursor : c.cursor = s.cursor.advanced k
  begun : c.Begun
  cand : c.cand = (s.cursor.advanced k).lastOffset - 15
  held : c.candHeld = true
  res : c.res = s.res

/-- R122, R136: a scan takes a step for each bit up to the last of the first marker. -/
theorem State.Sees.goes_to_marker {s : State} {N p : Nat} {xs : List Bool} (h : s.Sees N xs) (hm : firstMarkerAt xs p) :
    ∃ c, Goes (p + s.lead) s c ∧ s.CandidateAt (p + s.lead) c := by
  have hlead := s.lead_pos
  have hle : p + s.lead ≤ N := by
    have hlen := h.length
    have hfull := hm.add_le_length
    omega
  have hlater (j : Nat) (hj : j < p + s.lead) (q : Nat) (hq : q + s.lead ≤ j) :
      (xs.drop q).take 16 ≠ toBits Config.marker := hm.2 q (by omega)
  have hgoes := goes_scanBits (p + s.lead) s fun k hk => (h.scanning_on k (by omega) (hlater k hk)).1
  have hbits := s.cursor.take_upTo h.there _ hle
  have hat (j : Nat) (hj1 : 1 ≤ j) (hj : j ≤ p + s.lead) :
      Completes s.nobs (toBits s.win ++ s.cursor.upTo (p + s.lead)) j ↔
        ∃ q, j = q + s.lead ∧ (xs.drop q).take 16 = toBits Config.marker := by
    rw [← hbits, completes_take _ _ _ _ _ hj, completes_iff_view s _ _ hj1, h.view]
  have hthere := Cursor.length_upTo_of_le h.there hle
  have hcomplete := (hat (p + s.lead) (by omega) le_rfl).2 ⟨p, rfl, hm.1⟩
  rw [scanBits_completes (p + s.lead) (p + s.lead) s _ h.scanning rfl hthere (by omega) le_rfl hcomplete
    fun j hj1 hj hc => ?_] at hgoes
  · exact ⟨_, hgoes, rfl, { scansTo_refl s with cursor := ⟨_, rfl⟩ }, rfl, ⟨rfl, rfl⟩, rfl, rfl, rfl⟩
  · obtain ⟨q, rfl, hq⟩ := (hat j hj1 hj.le).1 hc
    exact hlater _ hj q le_rfl hq

/-- R122, R135, R136: with no marker in view a scan comes to the cursor's end. -/
theorem State.Sees.goes_to_end {s : State} {N : Nat} {xs : List Bool} (h : s.Sees N xs)
    (hend : s.cursor.bitAt (s.cursor.pos + N) = none) (hm : noMarkerIn xs) :
    ∃ t, Goes (N + 1) s t ∧ t.phase = .idle ∧ t.res = .notFound ∧ t.desc = s.desc ∧ t.blk = s.blk := by
  have hgoes := goes_scanBits N s fun k hk => (h.scanning_on k hk.le fun q _ => hm q).1
  obtain ⟨hp, hcur, hframe⟩ := h.scanning_on N le_rfl fun q _ => hm q
  have hlast := goes_scanStep (scanBits N s)
  have hnone : (scanBits N s).cursor.bitAt (scanBits N s).cursor.pos = none := by rw [hcur]; exact hend
  rcases scanStep_cases (scanBits N s) with ⟨-, e⟩ | ⟨b, hb, -⟩
  · rw [setPhase_of_eq hp, e] at hlast
    exact ⟨_, hgoes.trans hlast, rfl, rfl, hframe.desc, hframe.blk⟩
  · rw [hnone] at hb
    cases hb

end Sys2Proof.Machine
end

section
/-! SUPPORT. Candidate after candidate (R129, R130): what a scan with its view comes to, on any cursor. -/

namespace Sys2Proof.Machine

/-- R67, R123: the words of a body are those of its 1536 groups, whatever follows them. -/
theorem bodyWords_take (c : Codec) (bits : List Bool) : bodyWords c (bits.take 98304) = bodyWords c bits := by
  refine List.map_congr_left fun i hi => ?_
  have hlt : i < 1536 := List.mem_range.1 hi
  rw [List.drop_take, List.take_take, min_eq_left (by omega)]

theorem theCodec_of_codec {s t : State} (h : t.codec = s.codec) : t.theCodec = s.theCodec := by
  rw [State.theCodec, State.theCodec, h]

/-- A run of bits from one place on, and then those from another. -/
theorem drop_take_append_drop (bits : List Bool) {m n : Nat} (h : m ≤ n) (hn : n ≤ bits.length) :
    (bits.take n).drop m ++ bits.drop n = bits.drop m := by
  have hlen : m ≤ (bits.take n).length := by rw [List.length_take]; omega
  rw [← List.drop_append_of_le_length hlen, List.take_append_drop]

/-- R123, R124: a candidate with all its words stands before the check; its marker was complete `k` bits on. -/
structure State.ChecksAt (s : State) (k : Nat) (ws : List Word) (u : State) : Prop where
  scansTo : s.ScansTo u
  cursor : u.cursor = s.cursor.advanced (k + 98304)
  cand : u.cand = (s.cursor.advanced k).lastOffset - 15
  held : u.candHeld = true
  staged : stagedWords u.wbuf = some ws
  sum : u.sum = sumWords ws
  nobs : u.nobs = 16
  win : toBits u.win = (s.cursor.upTo (k + 98304)).drop (k + 98288)
  res : u.res = s.res

/-- R122, R123, R136: the first candidate in view, its body there, is read whole. -/
theorem State.Sees.goes_to_check {s : State} {N p : Nat} {xs : List Bool} (h : s.Sees N xs) (hm : firstMarkerAt xs p)
    (hfull : p + 98320 ≤ xs.length) :
    ∃ u, Goes (p + s.lead + 1536) s (setPhase .dCheck u) ∧
      s.ChecksAt (p + s.lead) (bodyWords s.theCodec (xs.drop (p + 16))) u := by
  obtain ⟨c, hgoes, hc⟩ := h.goes_to_marker hm
  have hlen := h.length
  have hle : p + s.lead + 98304 ≤ N := by omega
  have hthere := Cursor.length_upTo_of_le h.there hle
  have hbody : c.cursor.upTo 98304 = (s.cursor.upTo (p + s.lead + 98304)).drop (p + s.lead) := by
    rw [hc.cursor, Cursor.upTo_advanced hthere]
  obtain ⟨u, hu⟩ := bodyRead_of_whole c hc.begun (by rw [hbody, List.length_drop, hthere]; omega)
  have hstepped := hu.stepped
  rw [setPhase_of_eq hc.phase] at hstepped
  have hwords : bodyWords c.theCodec (c.cursor.upTo 98304) = bodyWords s.theCodec (xs.drop (p + 16)) := by
    rw [theCodec_of_codec hc.scansTo.codec, ← h.view, s.drop_view, ← bodyWords_take _ ((s.cursor.upTo N).drop _), hbody,
      ← s.cursor.take_upTo h.there _ hle, List.drop_take, Nat.add_sub_cancel_left]
  refine ⟨u, hgoes.trans hstepped, hc.scansTo.trans hu.scansTo, ?_, hu.cand.trans hc.cand, hu.held.trans hc.held,
    hwords ▸ hu.staged, hwords ▸ hu.sum, hu.nobs, ?_, hu.res.trans hc.res⟩
  · rw [hu.cursor, hc.cursor, Cursor.advanced_advanced]
  · rw [hu.win, hbody, List.drop_drop]

/-- R129, R130: a rejected candidate's scan goes on with the last 15 bits of its body in view. -/
theorem State.ChecksAt.sees {s u : State} {p M : Nat} {ws : List Word} {xs : List Bool}
    (hu : s.ChecksAt (p + s.lead) ws u) (h : s.Sees (p + s.lead + 98304 + M) xs) :
    (setPhase .dScan u).Sees M (xs.drop (p + 98305)) := by
  have hahead : u.cursor.upTo M = (s.cursor.upTo (p + s.lead + 98304 + M)).drop (p + s.lead + 98304) := by
    rw [hu.cursor, Cursor.upTo_advanced h.there]
  refine ⟨rfl, ?_, ?_⟩
  · rw [setPhase_cursor, hahead, List.length_drop, h.there]
    omega
  · have hlead : (setPhase .dScan u).lead = 1 := by rw [State.lead, setPhase_nobs, hu.nobs]; rfl
    rw [State.view, hlead, setPhase_win, setPhase_cursor, hu.win, hahead,
      ← s.cursor.take_upTo h.there (p + s.lead + 98304) (by omega),
      drop_take_append_drop _ (by omega) (by rw [h.there]; omega), List.drop_drop, ← h.view,
      show p + 98305 = p + 98289 + 16 from rfl, s.drop_view]
    congr 1
    omega

/-- R124 to R126, R133: a candidate that passes the gate is the block of the command. -/
theorem State.ChecksAt.goes_to_ok {s u : State} {k : Nat} {ws : List Word} (hu : s.ChecksAt k ws u)
    (hlen : ws.length = 1536) (hsum : sumWords ws = Config.cksum) :
    ∃ t, Goes 3 (setPhase .dCheck u) t ∧ t.phase = .idle ∧ t.res = .ok ∧ blkWords t.blk = some ws ∧
      t.desc.dataBitoff = (s.cursor.advanced k).lastOffset - 15 := by
  have ha : u.sumAccepted = true := (sumAccepted_iff u).2 (hu.sum.trans hsum)
  have hcheck := goes_checkStep u
  rw [ha] at hcheck
  obtain ⟨t, -, ht, hres, hblk, hoff⟩ := goes_finishDecode u ws hu.held ⟨hlen, hu.staged, hsum⟩
  exact ⟨t, hcheck.trans ht.goes, ht.ended.1, hres, hblk, hoff.trans hu.cand⟩

/-- R124, R130: a candidate that does not pass leaves the framer scanning. -/
theorem State.ChecksAt.goes_to_scan {s u : State} {k : Nat} {ws : List Word} (hu : s.ChecksAt k ws u)
    (hsum : sumWords ws ≠ Config.cksum) : Goes 1 (setPhase .dCheck u) (setPhase .dScan u) := by
  have ha : u.sumAccepted = false := by
    rw [Bool.eq_false_iff, Ne, sumAccepted_iff, hu.sum]
    exact hsum
  have hcheck := goes_checkStep u
  rwa [ha] at hcheck

/-! ### Rejected candidates -/

/-- R129, R130: the scan with `N` bits at hand comes to one with `M`, over rejected candidates. -/
structure State.SkipsTo (s : State) (N : Nat) (t : State) (M : Nat) : Prop where
  goes : ∃ n, Goes n s t
  scansTo : s.ScansTo t
  cursor : ∃ j, N = j + M ∧ t.cursor = s.cursor.advanced j

theorem skipsTo_refl (s : State) (N : Nat) : s.SkipsTo N s N :=
  ⟨⟨0, goes_refl s⟩, scansTo_refl s, 0, (Nat.zero_add N).symm, s.cursor.advanced_zero.symm⟩

theorem State.SkipsTo.trans {s t u : State} {N M K : Nat} (h : s.SkipsTo N t M) (h' : t.SkipsTo M u K) :
    s.SkipsTo N u K where
  goes := by
    obtain ⟨m, hm⟩ := h.goes
    obtain ⟨n, hn⟩ := h'.goes
    exact ⟨m + n, hm.trans hn⟩
  scansTo := h.scansTo.trans h'.scansTo
  cursor := by
    obtain ⟨i, rfl, hi⟩ := h.cursor
    obtain ⟨j, rfl, hj⟩ := h'.cursor
    exact ⟨i + j, (Nat.add_assoc i j K).symm, by rw [hj, hi, Cursor.advanced_advanced]⟩

/-- R130, R134: the step machine comes to where its rejected candidates bring the scan. -/
theorem skipsTo_of_skips {c : Codec} {xs ys : List Bool} (h : Skips c xs ys) :
    ∀ {s : State} {N : Nat}, s.Sees N xs → s.theCodec = c → ∃ t M, s.SkipsTo N t M ∧ t.Sees M ys := by
  induction h with
  | refl xs => exact fun {s N} hs _ => ⟨s, N, skipsTo_refl s N, hs⟩
  | reject xs ys p hm hfull hsum _ ih =>
    rintro s N hs rfl
    obtain ⟨u, hgoes, hu⟩ := hs.goes_to_check hm hfull
    obtain ⟨M, rfl⟩ : ∃ M, N = p + s.lead + 98304 + M := by
      have hlen := hs.length
      have hfull : p + 98320 ≤ xs.length := hfull
      exact ⟨N - (p + s.lead + 98304), by omega⟩
    obtain ⟨t, K, hskip, ht⟩ := ih (hu.sees hs) (theCodec_of_codec hu.scansTo.codec)
    have hone : s.SkipsTo (p + s.lead + 98304 + M) (setPhase .dScan u) M :=
      ⟨⟨_, hgoes.trans (hu.goes_to_scan hsum)⟩, { hu.scansTo with }, _, rfl, hu.cursor⟩
    exact ⟨t, K, hone.trans hskip, ht⟩

/-! ### What comes after them -/

/-- R135 (Absence), R201: with no marker after the rejected candidates, `NotFound`. -/
theorem goes_notFound {s : State} {N : Nat} {xs rest : List Bool} (h : s.Sees N xs)
    (hend : s.cursor.bitAt (s.cursor.pos + N) = none) (hskip : Skips s.theCodec xs rest) (hm : noMarkerIn rest) :
    ∃ n t, Goes n s t ∧ t.phase = .idle ∧ t.res = .notFound ∧ t.desc = s.desc ∧ t.blk = s.blk := by
  obtain ⟨u, M, ⟨⟨m, hm'⟩, hframe, j, rfl, hcur⟩, hu⟩ := skipsTo_of_skips hskip h rfl
  obtain ⟨t, ht, hidle, hres, hdesc, hblk⟩ := hu.goes_to_end
    (by rw [hcur, Cursor.bitAt_advanced, Cursor.advanced_pos, Nat.add_assoc]; exact hend) hm
  exact ⟨_, t, hm'.trans ht, hidle, hres, hdesc.trans hframe.desc, hblk.trans hframe.blk⟩

/-- R135 (Truncation), R202: with a marker after them and too few groups behind it, `Truncated`. -/
theorem goes_truncated_candidate {s : State} {N p : Nat} {xs rest : List Bool} (h : s.Sees N xs)
    (hend : s.cursor.bitAt (s.cursor.pos + N) = none) (hskip : Skips s.theCodec xs rest) (hm : firstMarkerAt rest p)
    (hshort : rest.length < p + 98320) :
    ∃ n t, Goes n s t ∧ t.phase = .idle ∧ t.res = .truncated ∧ t.desc = s.desc ∧ t.blk = s.blk := by
  obtain ⟨u, M, ⟨⟨m, hm'⟩, hframe, j, rfl, hcur⟩, hu⟩ := skipsTo_of_skips hskip h rfl
  obtain ⟨c, hgoes, hc⟩ := hu.goes_to_marker hm
  have hlen := hu.length
  have hfull := hm.add_le_length
  have hends : u.cursor.EndsAfter M :=
    ⟨hu.there, by rw [hcur, Cursor.bitAt_advanced, Cursor.advanced_pos, Nat.add_assoc]; exact hend⟩
  obtain ⟨K, rfl⟩ : ∃ K, M = p + u.lead + K := ⟨M - (p + u.lead), by omega⟩
  have hcends := hends.advanced
  rw [← hc.cursor] at hcends
  have hcut : (c.cursor.upTo 98304).length < 98304 := by
    rw [hcends.upTo_eq _ (by omega), hcends.there]
    omega
  obtain ⟨t, -, ht, hres, hdesc, hblk⟩ := truncated_of_short c hc.begun hcut
  have hread := ht.goes
  rw [setPhase_of_eq hc.phase] at hread
  exact ⟨_, t, (hm'.trans hgoes).trans hread, ht.ended.1, hres, hdesc.trans (hc.scansTo.desc.trans hframe.desc),
    hblk.trans (hc.scansTo.blk.trans hframe.blk)⟩

/-- R128, R133, R134: with a candidate after them that passes the gate, its block, and the offset of its marker's first bit
(`m` bits on the marker is complete). -/
theorem goes_ok {s : State} {N p : Nat} {xs rest : List Bool} (h : s.Sees N xs) (hskip : Skips s.theCodec xs rest)
    (hm : firstMarkerAt rest p) (hfull : p + 98320 ≤ rest.length)
    (hsum : sumWords (bodyWords s.theCodec (rest.drop (p + 16))) = Config.cksum) :
    ∃ n t m, Goes n s t ∧ t.phase = .idle ∧ t.res = .ok ∧
      blkWords t.blk = some (bodyWords s.theCodec (rest.drop (p + 16))) ∧ m + rest.length = N + p + 16 ∧
      t.desc.dataBitoff = (s.cursor.advanced m).lastOffset - 15 := by
  obtain ⟨u, M, ⟨⟨m, hm'⟩, hframe, j, rfl, hcur⟩, hu⟩ := skipsTo_of_skips hskip h rfl
  obtain ⟨v, hgoes, hv⟩ := hu.goes_to_check hm hfull
  rw [theCodec_of_codec hframe.codec] at hv
  obtain ⟨t, ht, hidle, hres, hblk, hoff⟩ := hv.goes_to_ok (length_bodyWords _ _) hsum
  have hlen := hu.length
  refine ⟨_, t, j + (p + u.lead), (hm'.trans hgoes).trans ht, hidle, hres, hblk, by omega, ?_⟩
  rw [hoff, hcur, Cursor.advanced_advanced]

/-! ### A fresh scan -/

/-- R121: a DECODE begins with nothing in its window. -/
theorem sees_beginDecode (s : State) (N : Nat) (h : (s.cursor.upTo N).length = N) :
    (setPhase .dScan (beginDecode s)).Sees N (s.cursor.upTo N) where
  scanning := rfl
  there := h
  view := List.drop_left' (length_toBits _)

/-- R136: the first candidate of a DECODE, `p` bits ahead, comes to the check after 16 bits and 1536 groups more. -/
theorem goes_to_first_check {s : State} {p : Nat} (h : (s.cursor.upTo (p + 98320)).length = p + 98320)
    (hm : firstMarkerAt (s.cursor.upTo (p + 98320)) p) :
    ∃ u, Goes (p + 1552) (setPhase .dScan (beginDecode s)) (setPhase .dCheck u) ∧
      (setPhase .dScan (beginDecode s)).ChecksAt (p + 16)
        (bodyWords s.theCodec ((s.cursor.upTo (p + 98320)).drop (p + 16))) u := by
  have hlead : (setPhase .dScan (beginDecode s)).lead = 16 := rfl
  obtain ⟨u, hgoes, hu⟩ := (sees_beginDecode s _ h).goes_to_check hm h.ge
  rw [hlead] at hgoes hu
  exact ⟨u, hgoes, hu⟩

end Sys2Proof.Machine
end

section
/-! SUPPORT. A whole DECODE on a capture, from the run of the step machine; the bytes of a block from its words; the frame an
ENCODE appends. -/

namespace Sys2Proof.Machine

/-! ### DECODE on a capture -/

/-- R44: a captured stream's bits ahead are those left to it. -/
theorem Cursor.upTo_remaining {c : Cursor} (h : c.captured) : c.upTo c.remaining = c.ahead := by
  rw [c.upTo_captured h, ← c.length_ahead, List.take_length]

theorem sees_ahead {s : State} (h : s.cursor.captured) :
    (setPhase .dScan (beginDecode s)).Sees s.cursor.remaining s.cursor.ahead := by
  rw [← Cursor.upTo_remaining h]
  exact sees_beginDecode s _ (Cursor.endsAfter_remaining h).there

/-- R120: what the step machine's run leaves of result, descriptor and block, the whole command leaves. -/
theorem exec_decode_leaves {s t : State} {n : Nat} (h : s.readyToDecode) (hc : s.cursor.captured)
    (hn : Goes n (setPhase .dScan (beginDecode s)) t) (ht : t.phase = .idle) :
    ∃ t', exec .decode s = .next t' ∧ t'.res = t.res ∧ t'.desc = t.desc ∧ t'.blk = t.blk := by
  obtain ⟨t', e, halone⟩ := exec_decode_of_goes h hc hn ht
  have hres : t'.alone.res = t.alone.res := congrArg State.res halone
  have hdesc : t'.alone.desc = t.alone.desc := congrArg State.desc halone
  have hblk : t'.alone.blk = t.alone.blk := congrArg State.blk halone
  exact ⟨t', e, hres, hdesc, hblk⟩

/-- R130: rejected candidates leave no more bits than there were. -/
theorem Skips.length_le {c : Codec} {xs ys : List Bool} (h : Skips c xs ys) : ys.length ≤ xs.length := by
  induction h with
  | refl xs => exact le_rfl
  | reject xs ys p _ _ _ _ ih =>
    rw [List.length_drop] at ih
    omega

/-! ### The bytes of a block -/

/-- R62: four bytes put together as a word are found in it again. -/
theorem word_of_bytes (b0 b1 b2 b3 : Byte) :
    (b0 ++ b1 ++ b2 ++ b3 : Word).extractLsb' 24 8 = b0 ∧ (b0 ++ b1 ++ b2 ++ b3 : Word).extractLsb' 16 8 = b1 ∧
      (b0 ++ b1 ++ b2 ++ b3 : Word).extractLsb' 8 8 = b2 ∧ (b0 ++ b1 ++ b2 ++ b3 : Word).extractLsb' 0 8 = b3 := by
  refine ⟨?_, ?_, ?_, ?_⟩ <;> apply BitVec.eq_of_getLsbD_eq <;> intro i hi <;>
    rw [BitVec.getLsbD_extractLsb'] <;> simp only [BitVec.getLsbD_append] <;> interval_cases i <;> simp

/-- R62: the bytes of a word that is read. -/
theorem Memory.read_of_readWord {m : Memory Byte} {a : Nat} {w : Word} (h : m.readWord a = some w) :
    m.read a = some (w.extractLsb' 24 8) ∧ m.read (a + 1) = some (w.extractLsb' 16 8) ∧
      m.read (a + 2) = some (w.extractLsb' 8 8) ∧ m.read (a + 3) = some (w.extractLsb' 0 8) := by
  rw [Memory.readWord] at h
  split at h
  · next b0 b1 b2 b3 h0 h1 h2 h3 =>
    obtain rfl := Option.some.inj h
    obtain ⟨e0, e1, e2, e3⟩ := word_of_bytes b0 b1 b2 b3
    rw [e0, e1, e2, e3]
    exact ⟨h0, h1, h2, h3⟩
  · cases h

/-- R41, R62: a block's words decide its 6144 bytes. -/
theorem read_eq_of_blkWords {m m' : Memory Byte} {ws : List Word} (h : blkWords m = some ws) (h' : blkWords m' = some ws)
    (a : Nat) (ha : a < 6144) : m.read a = m'.read a := by
  obtain ⟨hlen, hw⟩ := (collect_eq_some _ _ _ _).1 h
  obtain ⟨-, hw'⟩ := (collect_eq_some _ _ _ _).1 h'
  have hlen : ws.length = 1536 := hlen
  have hi : a / 4 < ws.length := by omega
  have hword := hw (a / 4) hi
  have hword' := hw' (a / 4) hi
  rw [Nat.zero_add] at hword hword'
  obtain ⟨h0, h1, h2, h3⟩ := Memory.read_of_readWord hword
  obtain ⟨h0', h1', h2', h3'⟩ := Memory.read_of_readWord hword'
  have hplace : a = 4 * (a / 4) ∨ a = 4 * (a / 4) + 1 ∨ a = 4 * (a / 4) + 2 ∨ a = 4 * (a / 4) + 3 := by omega
  rcases hplace with e | e | e | e <;> rw [e]
  · rw [h0, h0']
  · rw [h1, h1']
  · rw [h2, h2']
  · rw [h3, h3']

/-! ### The frame of an ENCODE -/

/-- R150, R154: the raw bits in the sink grow by the frame. -/
theorem exec_encode_frame (s : State) (ws : List Word) (h : s.readyToEncode ws) :
    ∃ t, exec .encode s = .next t ∧ t.sinkBits = s.sinkBits ++ frameOf s.theCodec ws := by
  obtain ⟨hp, hlen, hnsec, hown, hblk⟩ := h
  have hcount : Config.nwords = ws.length := ((collect_eq_some _ _ _ _).1 hblk).1.symm
  have hwords : ∀ (j : Nat) (hj : j < ws.length), blkWord (emitMarker (beginEncode s)) (0 + j) = .next ws[j] := by
    intro j hj
    rw [Nat.zero_add]
    exact blkWord_of_blkWords (emitMarker (beginEncode s)) ws hown hblk j hj
  have hexec : exec .encode s = encodeBody ws.length 0 (emitMarker (beginEncode s)) := by
    simp only [exec, execEncode, encodeWhole, (encodeRefusal_none s).2 ⟨hp, hlen, hnsec, hown⟩, hcount]
  refine ⟨_, hexec.trans (encodeBody_next ws 0 _ hwords), ?_⟩
  show flatten s.theCodec Config.bitBefore
    ((s.sink ++ [.lit 16 Config.marker Config.rate]) ++ ws.map fun w => .modw w Config.rate) = _
  rw [List.append_assoc, List.singleton_append, flatten_append, flatten_frame]
  rfl

end Sys2Proof.Machine
end

section
/-! The statements about what a DECODE finds. -/

namespace Sys2Proof.Machine

/-- Settles O41: the accept step, the run to the check, and three steps to the end. -/
theorem cleanDecodeTakesItsStepCount : Obligations.CleanDecodeTakesItsStepCount := by
  rintro s d bits hp hr rfl hlen hm hsum
  obtain ⟨u, hgoes, hu⟩ := goes_to_first_check hlen hm
  obtain ⟨t, ht, hidle, hres, hblk, -⟩ := hu.goes_to_ok (length_bodyWords _ _) hsum
  obtain ⟨hrun, hbusy⟩ := runSteps_presented hp hr (hgoes.trans ht)
  rw [show d + 1552 + 3 + 1 = d + 1556 by omega] at hrun hbusy
  exact ⟨⟨t.alone, hrun, hres, hidle, hblk⟩, hbusy⟩

/-- Settles O42: the run to the check, and the step that makes it. -/
theorem gateAcceptsExactlyTheConstantSum : Obligations.GateAcceptsExactlyTheConstantSum := by
  rintro s p bits hp hr rfl hlen hm ws
  obtain ⟨u, hgoes, hu⟩ := goes_to_first_check hlen hm
  obtain ⟨hrun, -⟩ := runSteps_presented hp hr hgoes
  rw [show p + 1552 + 1 = p + 1553 by omega] at hrun
  have hcheck := (goes_checkStep u).run
  rw [runSteps_one] at hcheck
  have haccepted : u.sumAccepted = true ↔ sumWords ws = 0x28F53CB9#32 := by rw [sumAccepted_iff, hu.sum]
  have hcur := hu.cursor
  rw [show p + 16 + 98304 = p + 98320 by omega] at hcur
  refine ⟨_, _, hrun, rfl, hu.sum, hcheck, fun hsum => ?_, fun hsum => ?_, hcur, hu.res, hu.scansTo.desc,
    hu.scansTo.blk⟩
  · exact if_pos (haccepted.2 hsum)
  · exact if_neg fun ha => hsum (haccepted.1 ha)

/-- Settles O38: the run of `goes_notFound`, taken over to the whole command. -/
theorem streamWithoutMarkerIsNotFound : Obligations.StreamWithoutMarkerIsNotFound := by
  intro s rest hr hc hskip hm
  obtain ⟨n, t, hn, hidle, hres, hdesc, hblk⟩ := goes_notFound (sees_ahead hc) (Cursor.endsAfter_remaining hc).ends hskip hm
  obtain ⟨t', e, hres', hdesc', hblk'⟩ := exec_decode_leaves hr hc hn hidle
  exact ⟨t', e, hres'.trans hres, hdesc'.trans hdesc, hblk'.trans hblk⟩

/-- Settles O39: the run of `goes_truncated_candidate`, taken over to the whole command. -/
theorem cutShortCandidateIsTruncated : Obligations.CutShortCandidateIsTruncated := by
  intro s rest p hr hc hskip hm hshort
  obtain ⟨n, t, hn, hidle, hres, hdesc, hblk⟩ :=
    goes_truncated_candidate (sees_ahead hc) (Cursor.endsAfter_remaining hc).ends hskip hm hshort
  obtain ⟨t', e, hres', hdesc', hblk'⟩ := exec_decode_leaves hr hc hn hidle
  exact ⟨t', e, hres'.trans hres, hdesc'.trans hdesc, hblk'.trans hblk⟩

/-- Settles O46: the run of `goes_ok`, taken over to the whole command. -/
theorem candidateAfterRejectionsDecodes : Obligations.CandidateAfterRejectionsDecodes := by
  intro s rest p hr hc hskip hm hfull ws hsum
  obtain ⟨n, t, m, hn, hidle, hres, hblk, hplace, hoff⟩ := goes_ok (sees_ahead hc) hskip hm hfull hsum
  obtain ⟨t', e, hres', hdesc', hblk'⟩ := exec_decode_leaves hr hc hn hidle
  have hle := hskip.length_le
  have hahead := s.cursor.length_ahead
  obtain rfl : m = s.cursor.ahead.length - rest.length + p + 16 := by omega
  exact ⟨t', e, hres'.trans hres, (congrArg blkWords hblk').trans hblk, (congrArg Desc.dataBitoff hdesc').trans hoff⟩

/-- Settles O45: one rejected candidate, and then a frame, by O46 and O43. -/
theorem falseMarkerThenFrameDecodes : Obligations.FalseMarkerThenFrameDecodes := by
  intro s ws p q suf hr hc hm hfull hfalse hnext hframe hlen hsum
  have hbody : bodyWords s.theCodec ((s.cursor.ahead.drop (p + 98305)).drop (q + 16)) = ws := by
    rw [List.drop_drop, ← Nat.add_assoc, ← List.drop_drop, hframe]
    exact bodyOfAFrameIsItsWords s.theCodec ws suf hlen
  have hthere : q + 98320 ≤ (s.cursor.ahead.drop (p + 98305)).length := by
    have hcount := congrArg List.length hframe
    have hmarker := hnext.add_le_length
    rw [List.length_append, length_frameOf, hlen, List.length_drop] at hcount
    rw [List.length_drop] at hmarker ⊢
    omega
  obtain ⟨t, e, hres, hblk, hoff⟩ := candidateAfterRejectionsDecodes s _ q hr hc
    (.reject _ _ p hm hfull hfalse (.refl _)) hnext hthere (hbody ▸ hsum)
  rw [List.length_drop] at hoff
  refine ⟨t, e, hres, hbody ▸ hblk, ?_⟩
  rw [hoff, show s.cursor.ahead.length - (s.cursor.ahead.length - (p + 98305)) + q + 16 = p + 98305 + q + 16 by omega]

/-- Settles O40: the frame's body is the block's words (O43), which O46 finds behind the marker. -/
theorem encodeThenDecodeReturnsTheBlock : Obligations.EncodeThenDecodeReturnsTheBlock := by
  intro e d ws pre suf he hsum hr hc hcodec
  obtain ⟨e', hencode, hbits⟩ := exec_encode_frame e ws he
  refine ⟨e', hencode, fun frame hframe hahead hm => ?_⟩
  obtain rfl : frameOf e.theCodec ws = frame := List.append_cancel_left (hbits.symm.trans hframe)
  obtain ⟨-, -, -, -, hblk⟩ := he
  have hlen : ws.length = 1536 := ((collect_eq_some _ _ _ _).1 hblk).1
  have hbody : bodyWords d.theCodec (d.cursor.ahead.drop (pre.length + 16)) = ws := by
    rw [hahead, List.append_assoc, ← List.drop_drop, List.drop_left, theCodec_of_codec hcodec]
    exact bodyOfAFrameIsItsWords e.theCodec ws suf hlen
  have hthere : pre.length + 98320 ≤ d.cursor.ahead.length := by
    rw [hahead, List.length_append, List.length_append, length_frameOf, hlen]
    omega
  obtain ⟨t, hdecode, hres, hfound, hoff⟩ :=
    candidateAfterRejectionsDecodes d _ pre.length hr hc (.refl _) hm hthere (hbody ▸ hsum)
  rw [Nat.sub_self, Nat.zero_add] at hoff
  exact ⟨t, hdecode, hres, read_eq_of_blkWords (hbody ▸ hfound) hblk, hoff⟩

/-- Settles O47: `attempts_endsAlike` ends the run; by `Goes.unique` it is the one its candidates give. -/
theorem decodeOnAFiniteCursorEnds : Obligations.DecodeOnAFiniteCursorEnds := by
  intro s N hp hr hbits hend
  have hends : s.cursor.EndsAfter N := ⟨Cursor.length_upTo_of_there hbits, hend⟩
  have hsees := sees_beginDecode s N hends.there
  obtain ⟨n, t, -, hn, hle⟩ := attempts_endsAlike (N + 1) N (beginDecode s) hends (Nat.lt_succ_self N)
  obtain ⟨hrun, hbusy⟩ := runSteps_presented hp hr hn.goes
  have hsame {m : Nat} {u : State} (hm : Goes m (setPhase .dScan (beginDecode s)) u) (hu : u.phase = .idle) :
      t.alone = u.alone := hn.goes.unique hm hn.ended.1 hu
  refine ⟨n + 1, t.alone, hrun, hn.ended, by omega, hbusy, fun rest hskip => ⟨fun hm => ?_, fun p hm => ⟨fun hshort => ?_,
    fun hfull hsum => ?_⟩⟩⟩
  · obtain ⟨m, u, hu, hidle, hres, hdesc, hblk⟩ := goes_notFound hsees hend hskip hm
    rw [hsame hu hidle]
    exact ⟨hres, hdesc, hblk⟩
  · obtain ⟨m, u, hu, hidle, hres, hdesc, hblk⟩ := goes_truncated_candidate hsees hend hskip hm hshort
    rw [hsame hu hidle]
    exact ⟨hres, hdesc, hblk⟩
  · obtain ⟨m, u, -, hu, hidle, hres, hblk, -⟩ := goes_ok hsees hskip hm hfull hsum
    rw [hsame hu hidle]
    exact ⟨hres, hblk⟩

end Sys2Proof.Machine
end

section
/-! SUPPORT. The step rules of DECODE one by one (R121 to R126): the next state each answers, where the laws do not say it yet. -/

namespace Sys2Proof.Machine

/-! ### D_SCAN and D_READ -/

/-- R122: a scan step at the end of the bits. -/
theorem scanStep_exhausted (s : State) (h : s.cursor.bitAt s.cursor.pos = none) : scanStep s = raise .notFound s := by
  rcases scanStep_cases s with ⟨-, e⟩ | ⟨b, hb, -⟩
  · exact e
  · rw [h] at hb
    cases hb

/-- R122: a scan step with a bit `b`: whether it completes the marker. -/
theorem scanStep_bit (s : State) (b : Bool) (hb : s.cursor.bitAt s.cursor.pos = some b) :
    scanStep s = scanBit b (setCursor (s.cursor.advanced 1) s) := by
  simp only [scanStep, s.cursor.nextBit_some b hb]

/-- R122, R24: sixteen bits observed, this one with them, and the window the marker. -/
theorem atMarker_observeBit_iff (s : State) (b : Bool) :
    (observeBit b s).atMarker = true ↔ 16 ≤ s.nobs + 1 ∧ s.win.extractLsb' 0 15 ++ BitVec.ofBool b = 0x6CB1#16 := by
  rw [atMarker_iff, toBits_inj, observeBit_nobs, observeBit_win, min_eq_right_iff]

/-- R172: the bits of a group, one by one. -/
theorem Cursor.upTo_of_bits (c : Cursor) (g : Group) (h : ∀ i < 64, c.bitAt (c.pos + i) = some (g.getMsbD i)) :
    c.upTo 64 = toBits g := by
  have hlen : (c.upTo 64).length = 64 := Cursor.length_upTo_of_there fun i hi => by rw [h i hi]; exact Option.some_ne_none _
  refine List.ext_getElem (by rw [hlen, length_toBits]) fun i hi hi' => ?_
  have hbit : c.bitAt (c.pos + i) = some (c.upTo 64)[i] := by
    simp only [c.upTo_eq] at hi ⊢
    exact getElem_bitsFrom _ _ _ _ hi
  rw [h i (by omega)] at hbit
  rw [getElem_toBits, Option.some.inj hbit]

/-! ### D_INDEX -/

/-- R125, R174: `SEEK_INDEX` answers the length that `D_INDEX` records, and does the rest of it. -/
theorem exec_dIndex_of_seekIndex (s t : State) (n : Nat) (h : exec .seekIndex s = .next t) (ha : t.ans = .length n) :
    exec .dIndex s = .next { t with ans := s.ans, tot := n, totHeld := true, phase := .dCommit } := by
  obtain ⟨p, m, d, e, -⟩ := seekIndex_spec s
  have hseek : exec .seekIndex s = .next (answer (.length (seekIndex s).1) (seekIndex s).2) := rfl
  rw [hseek, e] at h
  obtain rfl := Host.Outcome.next.inj h
  obtain rfl := Answer.length.inj ha
  have hindex : exec .dIndex s = .next (setPhase .dCommit (recordTotal (seekIndex s).1 (seekIndex s).2)) := rfl
  rw [hindex, e]
  rfl

/-- R174, log 9: before any bit is delivered, a seek runs to the next mark and answers the next draw. -/
theorem exec_seekIndex_before (s : State) (m : Nat) (hc : s.cursor.seekIndex = s.cursor.seekStream)
    (hp : s.cursor.pos = 0) (hm : isNextMark s.cursor.marksTo s.cursor.passed m) :
    exec .seekIndex s = .next
      { s with
        cursor := s.cursor.atMark m, ans := .length (Config.indexMissingLen s.draws), draws := s.draws + 1 } := by
  have hseek : s.cursor.seekStream = (none, s.cursor.atMark m) := by
    simp only [Cursor.seekStream, (markFrom_some _ _ _).2 hm, if_pos hp]
  simp only [exec, execSeekIndex, seekIndex, hc, hseek]
  rfl

theorem Cursor.seekIndex_reference (c : Cursor) (h : c.kind = .reference) : c.seekIndex = c.seekStream := by
  simp only [Cursor.seekIndex, h]

theorem Cursor.marksTo_reference (c : Cursor) (h : c.kind = .reference) : c.marksTo = c.marks := by
  simp only [Cursor.marksTo, h]

theorem Cursor.passed_reference (c : Cursor) (h : c.kind = .reference) : c.passed = c.pos := by
  simp only [Cursor.passed, h]

theorem Cursor.atMark_reference (c : Cursor) (h : c.kind = .reference) (m : Nat) : c.atMark m = { c with pos := m } := by
  simp only [Cursor.atMark, h]

/-! ### D_COMMIT -/

/-- R28: the staged words, where every entry holds one. -/
theorem stagedWords_of_read (m : Memory Word) (w : Nat → Word) (h : ∀ i < 1536, m.read i = some (w i)) :
    ∃ ws, stagedWords m = some ws ∧ ws.length = 1536 ∧ ∀ (i : Nat) (hi : i < ws.length), ws[i] = w i := by
  have hlen : ((List.range 1536).map w).length = 1536 := by rw [List.length_map, List.length_range]
  have hget (i : Nat) (hi : i < ((List.range 1536).map w).length) : ((List.range 1536).map w)[i] = w i := by
    rw [List.getElem_map, List.getElem_range]
  refine ⟨_, (collect_eq_some _ _ _ _).2 ⟨hlen, fun j hj => ?_⟩, hlen, hget⟩
  rw [hget, Nat.zero_add, h j (hlen ▸ hj)]

/-! ### The sum of words (R127) -/

/-- R127: the sum as a sum in a commutative group, where order and single terms are spoken of. -/
theorem sumWords_eq_sum (ws : List Word) : sumWords ws = ws.sum := by
  rw [sumWords, List.sum_eq_foldl]
  rfl

end Sys2Proof.Machine
end

section
/-! The statements about the step rules of DECODE. -/

namespace Sys2Proof.Machine

/-- Settles O8: the refusals of `decodeRefusal` in their order, and `exec_acceptD_ready`. -/
theorem acceptDStartsAnInvocation : Obligations.AcceptDStartsAnInvocation := by
  refine fun s hp => ⟨fun h => ?_, fun hlen hnsec ho => ?_, exec_acceptD_ready s⟩
  · exact (exec_decode_refused s _ (decodeRefusal_badLength s hp ((Desc.legal_eq_false _).2 h))).1
  · exact (exec_decode_refused s _ (decodeRefusal_alreadyPopulated s hp (Desc.legal_of_scheme _ hlen hnsec) ho)).1

/-- Settles O9: a scan step at the end, and one with a bit, by whether the bit completes the marker. -/
theorem dScanPullsOneBit : Obligations.DScanPullsOneBit := by
  refine fun s => ⟨fun h => ?_, fun r hr => ?_⟩
  · exact congrArg Host.Outcome.next (scanStep_exhausted s h)
  · have hstep : exec .dScan s = .next (scanBit r (setCursor (s.cursor.advanced 1) s)) :=
      congrArg Host.Outcome.next (scanStep_bit s r hr)
    have hiff := atMarker_observeBit_iff (setCursor (s.cursor.advanced 1) s) r
    refine ⟨fun hm => ?_, fun hm => ?_⟩
    · have hnobs : min (s.nobs + 1) 16 = 16 := min_eq_right hm.1
      rw [hstep, scanBit, if_pos (hiff.2 hm)]
      simp only [setPhase, beginCandidate, observeBit, setCursor, hnobs]
      rfl
    · rw [hstep, scanBit, if_neg (hiff.not.2 hm)]
      rfl

/-- Settles O10: `nextBytes` at the end of the bits, and `readStep_group`. -/
theorem dReadTakesOneGroup : Obligations.DReadTakesOneGroup := by
  refine fun s => ⟨fun n hn hthere hend => ?_, fun g hw hbits => ?_⟩
  · have hleft : s.cursor.EndsAfter n := ⟨Cursor.length_upTo_of_there hthere, hend⟩
    have hlen : (s.cursor.upTo 64).length = n := by rw [hleft.upTo_eq 64 hn.le, hleft.there]
    rcases s.cursor.nextBytes_cases with ⟨g, hg, -⟩ | ⟨-, hnext⟩
    · rw [hg, length_toBits] at hlen
      omega
    · simp only [exec, execDRead, readStep, hnext, hlen]
      rfl
  · exact readStep_group s g (s.cursor.upTo_of_bits g hbits) hw

/-- Settles O12: the comparison decides between two phases. -/
theorem dCheckComparesTheSum : Obligations.DCheckComparesTheSum := by
  refine fun s => ⟨fun h => ?_, fun h => ?_⟩
  · exact congrArg Host.Outcome.next (if_pos ((sumAccepted_iff s).2 h))
  · exact congrArg Host.Outcome.next (if_neg fun ha => h ((sumAccepted_iff s).1 ha))

/-- Settles O36: no turn of the attempts is taken, which leaves the accepted state scanning. -/
theorem decodeIsLaunchedWhereItsEndIsNotInSight : Obligations.DecodeIsLaunchedWhereItsEndIsNotInSight := by
  intro s hr hk
  have hturns : s.cursor.turns = 0 := by
    rcases hk with hk | ⟨k, hk⟩ <;> simp only [Cursor.turns, hk]
  have hlaunch (t : State) (ht : t.readyToDecode) (hturns : t.cursor.turns = 0) :
      exec .decode t = .next (setPhase .dScan (beginDecode t)) := by
    rw [exec_decode_ready t ht, hturns, attempts]
  refine ⟨hlaunch s hr hturns, fun hp => ?_⟩
  rw [hlaunch { s with cmd := none } hr hturns, step_presented_decode s hp.1 hr.1 hp.2]
  exact exec_acceptD_ready s hr

/-- Settles O11: `readStep_group`, read entry by entry. -/
theorem dReadStagesTheWordAlone : Obligations.DReadStagesTheWordAlone := fun s g hw hbits =>
  ⟨_, readStep_group s g hbits hw, Memory.read_write_same _ _ _, fun _ hi => Memory.read_write_other _ _ _ _ hi,
    Memory.wf_write _ _ _⟩

/-- Settles O44: the sum is one in a commutative group, in which a changed term changes it. -/
theorem sumIgnoresOrderAndSeesOneChange : Obligations.SumIgnoresOrderAndSeesOneChange := by
  refine ⟨fun ws vs h => ?_, fun ws i hi w hne hsum heq => ?_⟩
  · rw [sumWords_eq_sum, sumWords_eq_sum, h.sum_eq]
  · rw [sumWords_eq_sum] at hsum heq
    rw [List.sum_set', dif_pos hi, hsum, add_eq_left, neg_add_eq_zero] at heq
    exact hne heq.symm

/-- Settles O13: what `SEEK_INDEX` answers, recorded; and its answers on the reference stream. -/
theorem dIndexRecordsTheRevolution : Obligations.DIndexRecordsTheRevolution := by
  refine ⟨fun s => ⟨_, _, rfl, rfl, exec_dIndex_of_seekIndex s _ _ rfl rfl⟩, fun s hk => ?_⟩
  have hstream := s.cursor.seekIndex_reference hk
  have hmarks := s.cursor.marksTo_reference hk
  have hpassed := s.cursor.passed_reference hk
  refine ⟨fun m b hp hm hb => ?_, fun m hp hm => ?_, fun hm hle => ?_⟩
  · rw [← hmarks, ← hpassed] at hm hb
    rw [exec_dIndex_of_seekIndex s _ _ (exec_seekIndex_mark s m b hstream hp hm hb) rfl, s.cursor.atMark_reference hk]
    rfl
  · rw [← hmarks, ← hp, ← hpassed] at hm
    rw [exec_dIndex_of_seekIndex s _ _ (exec_seekIndex_before s m hstream hp hm) rfl, s.cursor.atMark_reference hk]
  · rw [← hmarks, ← hpassed] at hm
    rw [exec_dIndex_of_seekIndex s _ _ (exec_seekIndex_end s hstream hm) rfl, max_eq_right hle]

/-- Settles O14: `commitStep_next` with the words read off the entries; the block they make is read byte by byte. -/
theorem dCommitPopulatesBlockAndDescriptor : Obligations.DCommitPopulatesBlockAndDescriptor := by
  intro s w hc ht hw
  obtain ⟨ws, hstaged, hlen, hget⟩ := stagedWords_of_read s.wbuf w hw
  refine ⟨_, (commitStep_next s _).2 ⟨hc, ht, ws, hstaged, rfl⟩, fun i hi => ?_, fun a ha => ?_, rfl⟩
  · have hword := Memory.readWord_writeWords ws s.blk 0 i (by omega)
    rw [Nat.zero_add, hget] at hword
    exact Memory.read_of_readWord hword
  · exact Memory.read_writeWords_after ws s.blk 0 a (by omega)

end Sys2Proof.Machine
end

section
/-! SUPPORT. The step rules of ENCODE one by one (R151 to R153), the whole command, and the run of the step machine that it
is. -/

namespace Sys2Proof.Machine

/-! ### ACCEPT_E and E_MARK -/

/-- R151: the accept step of an ENCODE on a populated descriptor of the scheme. -/
theorem exec_acceptE_ready (s : State) (hp : s.phase = .idle) (hlen : s.desc.len = 6144) (hnsec : s.desc.nsec = 1)
    (ho : s.desc.own = true) : exec .acceptE s = .next (setPhase .eMark (takeCommand (beginEncode s))) := by
  simp only [exec, execAcceptE, acceptEncode, (encodeRefusal_none s).2 ⟨hp, hlen, hnsec, ho⟩]

/-- R152, R66: the marker's 16 bits go out as they are. -/
theorem sinkBits_markStep (s : State) : (markStep s).sinkBits = s.sinkBits ++ toBits Config.marker :=
  sinkBits_emit _ s

/-! ### E_WORD -/

/-- R62: four bytes that are there make a word. -/
theorem Memory.readWord_of_read {m : Memory Byte} {a : Nat} {b0 b1 b2 b3 : Byte} (h0 : m.read a = some b0)
    (h1 : m.read (a + 1) = some b1) (h2 : m.read (a + 2) = some b2) (h3 : m.read (a + 3) = some b3) :
    m.readWord a = some (b0 ++ b1 ++ b2 ++ b3) := by
  simp only [Memory.readWord, h0, h1, h2, h3]

theorem afterWord_last (s : State) (h : s.wcnt = 1536) : afterWord s = succeed s := if_pos h

theorem afterWord_more (s : State) (h : s.wcnt ≠ 1536) : afterWord s = setPhase .eWord s := if_neg h

/-- R153: the end of a word puts nothing out. -/
theorem sinkBits_afterWord (s : State) : (afterWord s).sinkBits = s.sinkBits := by
  rw [afterWord]
  split <;> rfl

/-- R153, R186: the raw bits grow by the word's group. -/
theorem sinkBits_emitWord (w : Word) (s : State) :
    (emitWord w s).sinkBits = s.sinkBits ++ toBits (s.theCodec.mod s.lastRawBit w) :=
  sinkBits_emit _ s

/-! ### The whole command -/

/-- R150: set up by the host, the whole command puts the marker out and begins its words. -/
theorem exec_encode_ready (s : State) (ws : List Word) (h : s.readyToEncode ws) :
    exec .encode s = encodeBody 1536 0 (emitMarker (beginEncode s)) := by
  obtain ⟨hp, hlen, hnsec, ho, -⟩ := h
  simp only [exec, execEncode, encodeWhole, (encodeRefusal_none s).2 ⟨hp, hlen, hnsec, ho⟩]

theorem State.readyToEncode.length {s : State} {ws : List Word} (h : s.readyToEncode ws) : ws.length = 1536 := by
  obtain ⟨-, -, -, -, hblk⟩ := h
  exact ((collect_eq_some _ _ _ _).1 hblk).1

/-- R150: what one ENCODE of some words puts out. -/
def frameEmissions (ws : List Word) : List Emission :=
  .lit 16 Config.marker Config.rate :: ws.map fun w => .modw w Config.rate

/-- R150, R156: the whole next state of an ENCODE. -/
theorem exec_encode_state (s : State) (ws : List Word) (h : s.readyToEncode ws) :
    exec .encode s = .next
      { s with op := .encode, res := .ok, wcnt := 1536, sink := s.sink ++ frameEmissions ws } := by
  have hlen := h.length
  rw [exec_encode_ready s ws h, ← hlen]
  obtain ⟨hp, -, -, ho, hblk⟩ := h
  rw [encodeBody_next ws 0 _ fun j hj => by
    rw [Nat.zero_add]
    exact blkWord_of_blkWords (emitMarker (beginEncode s)) ws ho hblk j hj]
  simp [succeed, emitMarker, emit, beginEncode, frameEmissions, hp]

/-- R154, R183: an ENCODE's next state has the frame behind the raw bits that were in the sink. -/
theorem sinkBits_of_exec_encode {s t : State} {ws : List Word} (h : s.readyToEncode ws) (ht : exec .encode s = .next t) :
    t.sinkBits = s.sinkBits ++ frameOf s.theCodec ws := by
  obtain ⟨u, hu, hbits⟩ := exec_encode_frame s ws h
  obtain rfl := Host.Outcome.next.inj (hu.symm.trans ht)
  exact hbits

/-! ### The run of the step machine -/

/-- R21: a run after one step that a presented command takes. -/
theorem Goes.after_step {n : Nat} {s a t : State} (h : Goes n a t) (hstep : step s = .next a.alone) :
    runSteps (n + 1) s = .next t.alone ∧ ∀ k, 0 < k → k < n + 1 → ∃ u, runSteps k s = .next u ∧ u.phase ≠ .idle := by
  have hsucc (k : Nat) : runSteps (k + 1) s = runSteps k a.alone := by rw [runSteps, hstep, andThen_of_next]
  refine ⟨(hsucc n).trans h.run, fun k hpos hk => ?_⟩
  obtain ⟨k, rfl⟩ : ∃ j, k = j + 1 := ⟨k - 1, by omega⟩
  rw [hsucc k]
  exact h.busy k (by omega)

/-- R152: the marker step. -/
theorem goes_markStep (s : State) : Goes 1 (setPhase .eMark s) (markStep s) := goes_one .eMark rfl rfl

/-- R153: the word step, with its word at hand. -/
theorem goes_emitWord (s : State) (w : Word) (hw : blkWord s s.wcnt = .next w) :
    Goes 1 (setPhase .eWord s) (afterWord (emitWord w s)) := by
  refine goes_one .eWord rfl ?_
  have hexec : exec .eWord (setPhase .eWord s).alone = .next (afterWord (emitWord w (setPhase .eWord s).alone)) :=
    (wordStep_next _ _).2 ⟨w, hw, rfl⟩
  simp only [hexec, afterWord, apply_ite State.alone]
  rfl

/-- R150, R157: the word loop is as many word steps as it has words left. -/
theorem goes_encodeBody (left : Nat) (s t : State) (hw : s.wcnt + left = 1536)
    (h : encodeBody left s.wcnt s = .next t) : Goes left (afterWord s) t := by
  induction left generalizing s with
  | zero =>
    rw [afterWord_last s hw]
    cases h
    exact goes_refl _
  | succ left ih =>
    rw [afterWord_more s (by omega)]
    obtain ⟨w, hword, hrest⟩ := andThen_next.1 h
    have hcount : (emitWord w s).wcnt = s.wcnt + 1 := rfl
    rw [Nat.add_comm]
    exact (goes_emitWord s w hword).trans (ih (emitWord w s) (by omega) hrest)

/-- R150, R157: what the whole command comes to, the step machine comes to after the accept step and 1537 more. -/
theorem goes_encode {s t : State} {ws : List Word} (h : s.readyToEncode ws) (ht : exec .encode s = .next t) :
    Goes 1537 (setPhase .eMark (beginEncode s)) t := by
  rw [exec_encode_ready s ws h] at ht
  exact (goes_markStep (beginEncode s)).trans (goes_encodeBody 1536 (emitMarker (beginEncode s)) t rfl ht)

end Sys2Proof.Machine
end

section
/-! The statements about ENCODE. -/

namespace Sys2Proof.Machine

/-- Settles O33: `exec_encode_state`, and the frame its emissions flatten to. -/
theorem encodeEmitsTheFrame : Obligations.EncodeEmitsTheFrame := by
  intro s ws h
  have hexec := exec_encode_state s ws h
  exact ⟨_, hexec, rfl, sinkBits_of_exec_encode h hexec, by rw [length_frameOf, h.length]⟩

/-- Settles O37: the accept step comes to where `goes_encode` begins, and leaves no command record to the end. -/
theorem steppedEncodeIsTheWholeEncode : Obligations.SteppedEncodeIsTheWholeEncode := by
  intro s ws ⟨hi, hc⟩ h
  obtain ⟨t, hencode, hquiet⟩ : ∃ t, exec .encode (takeCommand s) = .next t ∧ t.alone = t :=
    ⟨_, exec_encode_state (takeCommand s) ws h, State.alone_of_quiet _ rfl hi⟩
  have hgoes : Goes 1537 (setPhase .eMark (beginEncode (takeCommand s))) t := goes_encode h hencode
  obtain ⟨hp, hlen, hnsec, ho, -⟩ := h
  have hbegun : (setPhase .eMark (beginEncode (takeCommand s))).alone = setPhase .eMark (takeCommand (beginEncode s)) :=
    State.alone_of_quiet _ rfl hi
  have hstep : step s = .next (setPhase .eMark (beginEncode (takeCommand s))).alone := by
    rw [step_presented_encode s hi hp hc, exec_acceptE_ready s hp hlen hnsec ho, hbegun]
  obtain ⟨hrun, hbusy⟩ := hgoes.after_step hstep
  rw [hquiet] at hrun
  exact ⟨hrun.trans hencode.symm, hbusy⟩

/-- Settles O50: neither the emissions nor the frame they flatten to look at anything but words and codec. -/
theorem encodeOutputDependsOnTheBlockAlone : Obligations.EncodeOutputDependsOnTheBlockAlone := by
  intro s t ws hs ht hcodec
  have hsame : t.theCodec = s.theCodec := by simp only [State.theCodec, hcodec]
  have hexec := exec_encode_state s ws hs
  have hexec' := exec_encode_state t ws ht
  exact ⟨_, _, frameEmissions ws, frameOf s.theCodec ws, hexec, hexec', rfl, rfl, sinkBits_of_exec_encode hs hexec,
    hsame ▸ sinkBits_of_exec_encode ht hexec'⟩

/-- Settles O17: the refusals of `encodeRefusal` in their order, and `exec_acceptE_ready`. -/
theorem acceptEStartsAnInvocation : Obligations.AcceptEStartsAnInvocation := by
  refine fun s hp => ⟨fun h => ?_, fun hlen hnsec ho => ?_, exec_acceptE_ready s hp⟩
  · exact (exec_encode_refused s _ (encodeRefusal_badLength s hp ((Desc.legal_eq_false _).2 h))).1
  · exact (exec_encode_refused s _ (encodeRefusal_noBlock s hp (Desc.legal_of_scheme _ hlen hnsec) ho)).1

/-- Settles O18: the marker step, and the marker spelt bit by bit. -/
theorem eMarkEmitsTheMarker : Obligations.EMarkEmitsTheMarker := fun s => by
  have hbits : toBits Config.marker =
      [false, true, true, false, true, true, false, false, true, false, true, true, false, false, false, true] := by decide
  exact ⟨markStep s, rfl, rfl, hbits ▸ sinkBits_markStep s⟩

/-- Settles O19: the word that the four bytes make goes out, and its count decides how the step ends. -/
theorem eWordEmitsOneWord : Obligations.EWordEmitsOneWord := by
  intro s b0 b1 b2 b3 ho hw h0 h1 h2 h3 w
  have hword : blkWord s s.wcnt = .next w := (blkWord_next s _ w).2 ⟨ho, hw, Memory.readWord_of_read h0 h1 h2 h3⟩
  refine ⟨afterWord (emitWord w s), (wordStep_next s _).2 ⟨w, hword, rfl⟩, ?_, fun hmore => ?_, fun hlast => ?_⟩
  · rw [sinkBits_afterWord, sinkBits_emitWord]
  · exact afterWord_more (emitWord w s) hmore
  · exact afterWord_last (emitWord w s) hlast

end Sys2Proof.Machine
end

section
/-! SUPPORT. The requests for bits and the offset, run by themselves (R171 to R173): what each answers, on any cursor. -/

namespace Sys2Proof.Machine

/-! ### NEXT_BIT and NEXT_BYTES -/

/-- R171: a request for a bit where there is one. -/
theorem exec_nextBit_bit (s : State) (b : Bool) (h : s.cursor.bitAt s.cursor.pos = some b) :
    exec .nextBit s = .next { s with cursor := s.cursor.advanced 1, ans := .bit b } := by
  simp only [exec, execNextBit, s.cursor.nextBit_some b h]
  rfl

/-- R171: a request for a bit at the end moves nothing. -/
theorem exec_nextBit_end (s : State) (h : s.cursor.bitAt s.cursor.pos = none) :
    exec .nextBit s = .next { s with ans := .exh } := by
  simp only [exec, execNextBit, s.cursor.nextBit_none h]
  rfl

/-- R172: a request for a group where there is one. -/
theorem exec_nextBytes_group (s : State) (g : Group) (h : s.cursor.upTo 64 = toBits g) :
    exec .nextBytes s = .next { s with cursor := s.cursor.advanced 64, ans := .group g } := by
  simp only [exec, execNextBytes, s.cursor.nextBytes_some g h]
  rfl

/-- R172: a request for a group with fewer bits left exhausts the cursor. -/
theorem exec_nextBytes_short (s : State) (n : Nat) (h : s.cursor.EndsAfter n) (hn : n < 64) :
    exec .nextBytes s = .next { s with cursor := s.cursor.advanced n, ans := .exh } := by
  have hlen : (s.cursor.upTo 64).length = n := by rw [h.upTo_eq 64 hn.le, h.there]
  rcases s.cursor.nextBytes_cases with ⟨g, hg, -⟩ | ⟨-, hnext⟩
  · rw [hg, length_toBits] at hlen
    omega
  · simp only [exec, execNextBytes, hnext, hlen]
    rfl

/-- R172: a request for a group at the end moves nothing, as one for a bit does. -/
theorem exec_nextBytes_end (s : State) (h : s.cursor.bitAt s.cursor.pos = none) :
    exec .nextBytes s = .next { s with ans := .exh } := by
  have hends : s.cursor.EndsAfter 0 := ⟨by rw [s.cursor.upTo_eq, bitsFrom, List.length_nil], h⟩
  rw [exec_nextBytes_short s 0 hends (by decide), Cursor.advanced_zero]

/-- R172: the bits a group was made of stand one by one in the cursor's sequence. -/
theorem Cursor.bitAt_of_upTo (c : Cursor) (g : Group) (h : c.upTo 64 = toBits g) (i : Nat) (hi : i < 64) :
    c.bitAt (c.pos + i) = some (g.getMsbD i) := by
  have hbits : bitsFrom c.bitAt c.pos 64 = toBits g := by rw [← c.upTo_eq, h]
  refine (getElem_bitsFrom _ _ 64 i (by rwa [hbits, length_toBits])).trans ?_
  simp only [hbits, getElem_toBits]

/-! ### The bits of each kind of stream -/

theorem Cursor.bitAt_revolving (c : Cursor) (h : c.kind = .revolving) (i : Nat) :
    c.bitAt i = c.bits[i % c.bits.length]? := by
  simp only [Cursor.bitAt, h]

theorem Cursor.advanced_revolving (c : Cursor) (h : c.kind = .revolving) (n : Nat) :
    c.advanced n = { c with pos := c.pos + n } := by
  simp only [Cursor.advanced, h]

theorem Cursor.bitAt_other (c : Cursor) (k : Nat) (h : c.kind = .other k) : c.bitAt = (Config.cursor k).bitAt := by
  funext i
  simp only [Cursor.bitAt, h]

/-- Log 8: a bit of an open cursor ticks its further state once. -/
theorem Cursor.advanced_one_other (c : Cursor) (k : Nat) (h : c.kind = .other k) :
    c.advanced 1 = { c with pos := c.pos + 1, memo := (Config.cursor k).tick c.pos c.memo } := by
  simp only [Cursor.advanced, h, ticks]

/-! ### OFFSET -/

/-- U14: before any bit there is no answer. -/
theorem exec_offset_before (s : State) (h : s.cursor.pos = 0) : exec .offset s = .refused .offsetBeforeBit := if_pos h

/-- R173: after a bit, the cursor's offset of the last one. -/
theorem exec_offset_after (s : State) (h : 1 ≤ s.cursor.pos) :
    exec .offset s = .next { s with ans := .offset s.cursor.lastOffset } :=
  if_neg (Nat.one_le_iff_ne_zero.1 h)

theorem Cursor.lastOffset_other (c : Cursor) (k : Nat) (h : c.kind = .other k) :
    c.lastOffset = (Config.cursor k).offset c.pos c.memo := by
  simp only [Cursor.lastOffset, h]

/-- R173: any stream, captured or revolving, reports its last bit's place less the point it counts from. -/
theorem Cursor.lastOffset_stream (c : Cursor) (h : ∀ k, c.kind ≠ .other k) :
    c.lastOffset = (c.pos : Int) - 1 - c.countsFrom := by
  rcases c.kind_cases with hk | hk | hk | ⟨k, hk⟩
  · simp only [Cursor.lastOffset, hk]
  · simp only [Cursor.lastOffset, hk]
  · simp only [Cursor.lastOffset, hk]
  · exact absurd hk (h k)

/-- R173, R176: with the reference origin, that point is the latest mark at or before the last bit. -/
theorem Cursor.lastOffset_of_isBase (c : Cursor) (b : Nat) (h : ∀ k, c.kind ≠ .other k) (ho : c.origin = .indexMark)
    (hb : isBase c.marksTo c.pos b) : c.lastOffset = (c.pos : Int) - 1 - b := by
  rw [c.lastOffset_stream h]
  simp only [Cursor.countsFrom, ho, Cursor.lastMark, markBelow_of_isBase _ _ _ hb]

/-- Log 8: with another origin, it is the open point of that origin. -/
theorem Cursor.lastOffset_of_origin (c : Cursor) (k : Nat) (h : ∀ k, c.kind ≠ .other k) (ho : c.origin = .other k) :
    c.lastOffset = (c.pos : Int) - 1 - Config.countingPoint k (c.pos - 1) := by
  rw [c.lastOffset_stream h]
  simp only [Cursor.countsFrom, ho]

theorem Cursor.captured.ne_other {c : Cursor} (h : c.captured) (k : Nat) : c.kind ≠ .other k := by
  rcases h with h | h <;> simp [h]

theorem Cursor.captured.marksTo_eq {c : Cursor} (h : c.captured) : c.marksTo = c.marks := by
  rcases h with h | h
  · exact c.marksTo_reference h
  · exact c.marksTo_consuming h

/-! ### SEEK_INDEX of an open cursor -/

/-- R174: an open cursor's seek answers its own length and leaves it where it says. -/
theorem exec_seekIndex_other (s : State) (k : Nat) (h : s.cursor.kind = .other k) :
    let r := (Config.cursor k).seek s.cursor.pos s.cursor.memo
    exec .seekIndex s = .next
      { s with cursor := { s.cursor with pos := r.place, memo := r.memo }, ans := .length r.length } := by
  simp only [exec, execSeekIndex, seekIndex, Cursor.seekIndex, h, Cursor.seekOpen]
  rfl

end Sys2Proof.Machine
end

section
/-! SUPPORT. The revolving stream (93 U8, logs 8, 22): its marks, one turn after another, and its seeks. -/

namespace Sys2Proof.Machine

/-- 93 U8: an index mark stands at a place: a turn begins there, or the capture has one there in the turn. -/
def Cursor.turnMark (c : Cursor) (m : Nat) : Prop := m % c.bits.length = 0 ∨ m % c.bits.length ∈ c.marks

/-- The marks the model looks at, by the turn they stand in. -/
theorem Cursor.mem_marksTo_revolving (c : Cursor) (h : c.kind = .revolving) (m : Nat) :
    m ∈ c.marksTo ↔ ∃ j < c.pos / c.bits.length + 2, ∃ x ∈ 0 :: c.marks, x + j * c.bits.length = m := by
  simp only [Cursor.marksTo, h, List.mem_flatMap, List.mem_range, List.mem_map]

/-- Where the capture's marks lie in it, the model looks at nothing else. -/
theorem Cursor.turnMark_of_mem {c : Cursor} (h : c.kind = .revolving) (hin : ∀ m ∈ c.marks, m ≤ c.bits.length) {m : Nat}
    (hm : m ∈ c.marksTo) : c.turnMark m := by
  obtain ⟨j, -, x, hx, rfl⟩ := (c.mem_marksTo_revolving h m).1 hm
  rw [Cursor.turnMark, Nat.add_mul_mod_self_right]
  rcases List.mem_cons.1 hx with rfl | hx
  · exact .inl (Nat.zero_mod _)
  · rcases (hin x hx).lt_or_eq with hlt | rfl
    · exact .inr (by rwa [Nat.mod_eq_of_lt hlt])
    · exact .inl (Nat.mod_self _)

/-- The model looks at every mark up to the end of the next turn. -/
theorem Cursor.mem_of_turnMark {c : Cursor} (h : c.kind = .revolving) (hne : c.bits ≠ []) {m : Nat} (hm : c.turnMark m)
    (hlt : m < (c.pos / c.bits.length + 2) * c.bits.length) : m ∈ c.marksTo := by
  have hpos : 0 < c.bits.length := List.length_pos_iff.2 hne
  refine (c.mem_marksTo_revolving h m).2
    ⟨m / c.bits.length, (Nat.div_lt_iff_lt_mul hpos).2 hlt, m % c.bits.length, ?_, Nat.mod_add_div' m _⟩
  exact List.mem_cons.2 hm

/-- The beginning of the next turn is behind the cursor's place. -/
theorem Cursor.pos_lt_nextTurn {c : Cursor} (hne : c.bits ≠ []) : c.pos < (c.pos / c.bits.length + 1) * c.bits.length :=
  Nat.lt_mul_of_div_lt (Nat.lt_succ_self _) (List.length_pos_iff.2 hne)

theorem Cursor.nextTurn_lt {c : Cursor} (hne : c.bits ≠ []) :
    (c.pos / c.bits.length + 1) * c.bits.length < (c.pos / c.bits.length + 2) * c.bits.length :=
  Nat.mul_lt_mul_of_pos_right (Nat.lt_succ_self _) (List.length_pos_iff.2 hne)

/-- R176 on the revolving stream: the latest mark before a place, the cursor's or the one behind it. -/
theorem Cursor.isBase_revolving {c : Cursor} {p b : Nat} (h : c.kind = .revolving) (hne : c.bits ≠ [])
    (hin : ∀ m ∈ c.marks, m ≤ c.bits.length) (hp : p ≤ c.pos + 1) (hlt : b < p) (hb : c.turnMark b)
    (hlast : ∀ m, b < m → m < p → ¬c.turnMark m) : isBase c.marksTo p b := by
  have hturn := c.pos_lt_nextTurn hne
  have hnext := c.nextTurn_lt hne
  refine .inl ⟨c.mem_of_turnMark h hne hb (by omega), hlt, fun m hm hmp => ?_⟩
  by_contra hgt
  exact hlast m (by omega) hmp (c.turnMark_of_mem h hin hm)

/-- R176 on the revolving stream: the next mark comes at the latest where the next turn begins, so the model looks at it. -/
theorem Cursor.isNextMark_revolving {c : Cursor} {p b m : Nat} (h : c.kind = .revolving) (hne : c.bits ≠ [])
    (hin : ∀ m ∈ c.marks, m ≤ c.bits.length) (hp : p ≤ c.pos + 1) (hlt : b < p) (hle : p ≤ m) (hm : c.turnMark m)
    (hfirst : ∀ n, b < n → n < m → ¬c.turnMark n) : isNextMark c.marksTo p m := by
  have hturn := c.pos_lt_nextTurn hne
  have hnext := c.nextTurn_lt hne
  have hstart : c.turnMark ((c.pos / c.bits.length + 1) * c.bits.length) := .inl (Nat.mul_mod_left _ _)
  have hmle : m ≤ (c.pos / c.bits.length + 1) * c.bits.length := by
    by_contra hgt
    exact hfirst _ (by omega) (by omega) hstart
  refine ⟨c.mem_of_turnMark h hne hm (by omega), hle, fun n hn hpn => ?_⟩
  by_contra hgt
  exact hfirst n (by omega) (by omega) (c.turnMark_of_mem h hin hn)

/-- 93 U8: a stream of at least one bit that revolves has a bit at every place. -/
theorem Cursor.endless_revolving (c : Cursor) (h : c.kind = .revolving) (hne : c.bits ≠ []) : c.endless := by
  intro i
  have hlt : i % c.bits.length < c.bits.length := Nat.mod_lt _ (List.length_pos_iff.2 hne)
  rw [c.bitAt_revolving h, List.getElem?_eq_getElem hlt]
  exact Option.some_ne_none _

theorem Cursor.seekIndex_revolving (c : Cursor) (h : c.kind = .revolving) : c.seekIndex = c.seekStream := by
  simp only [Cursor.seekIndex, h]

theorem Cursor.passed_revolving (c : Cursor) (h : c.kind = .revolving) : c.passed = max c.pos c.memo := by
  simp only [Cursor.passed, h]

theorem Cursor.atMark_revolving (c : Cursor) (h : c.kind = .revolving) (m : Nat) :
    c.atMark m = { c with pos := m, memo := m + 1 } := by
  simp only [Cursor.atMark, h]

/-- `exec_seekIndex_mark` on the revolving stream, `p` the place below which marks have passed. -/
theorem exec_seekIndex_revolving_mark (s : State) (p m b : Nat) (hk : s.cursor.kind = .revolving)
    (hpos : 1 ≤ s.cursor.pos) (hp : p = max s.cursor.pos s.cursor.memo) (hm : isNextMark s.cursor.marksTo p m)
    (hb : isBase s.cursor.marksTo p b) :
    exec .seekIndex s = .next
      { s with cursor := { s.cursor with pos := m, memo := m + 1 }, ans := .length (m - b) } := by
  rw [hp, ← s.cursor.passed_revolving hk] at hm hb
  rw [exec_seekIndex_mark s m b (s.cursor.seekIndex_revolving hk) hpos hm hb, s.cursor.atMark_revolving hk]
  rfl

end Sys2Proof.Machine
end

section
/-! SUPPORT. The reference codec bit by bit (R181, R182): where `Mod` puts data and clock bits, which bits `Demod` takes. -/

namespace Sys2Proof.Machine

/-! ### `Mod` -/

/-- R66: bit `i` in delivery order of a value read from `n` bits. -/
theorem getMsbD_ofBits {n : Nat} {bs : List Bool} (h : bs.length = n) (i : Nat) (hi : i < bs.length) :
    (ofBits n bs).getMsbD i = bs[i] := by
  have hspelt := toBits_ofBits bs h
  rw [← getElem_toBits _ i (by rwa [hspelt])]
  simp only [hspelt]

theorem length_mfmCells (p : Bool) (ds : List Bool) : (mfmCells p ds).length = 2 * ds.length := by
  induction ds generalizing p with
  | nil => rfl
  | cons d ds ih => rw [mfmCells, List.length_cons, List.length_cons, ih, List.length_cons]; omega

/-- R182: the second bit of a cell is the data bit. -/
theorem getElem?_mfmCells_data (p : Bool) (ds : List Bool) (i : Nat) : (mfmCells p ds)[2 * i + 1]? = ds[i]? := by
  induction ds generalizing p i with
  | nil => rfl
  | cons d ds ih =>
    cases i with
    | zero => rfl
    | succ i => exact ih d i

/-- R182: the first bit of a cell is 1 exactly when the data bits on both sides are 0. -/
theorem getElem?_mfmCells_clock (p : Bool) (ds : List Bool) (i : Nat) (hi : i < ds.length) :
    (mfmCells p ds)[2 * i]? = some (!(p :: ds)[i]'(Nat.lt_succ_of_lt hi) && !ds[i]) := by
  induction ds generalizing p i with
  | nil => exact absurd hi (Nat.not_lt_zero i)
  | cons d ds ih =>
    cases i with
    | zero => rfl
    | succ i => exact ih d i (Nat.lt_of_succ_lt_succ hi)

theorem length_dataBits (w : Word) : (dataBits w).length = 32 := by
  rw [dataBits, List.length_append, List.length_map, List.length_map, List.length_range]

/-- R182: the first 16 data bits on the track are those of the odd pass. -/
theorem getElem?_dataBits_odd (w : Word) (j : Nat) (hj : j < 16) : (dataBits w)[j]? = some (w.getLsbD (31 - 2 * j)) := by
  rw [dataBits, List.getElem?_append_left (by simpa using hj), List.getElem?_map, List.getElem?_range hj, Option.map_some]

/-- R182: the other 16 are those of the even pass. -/
theorem getElem?_dataBits_even (w : Word) (j : Nat) (hj : j < 16) :
    (dataBits w)[16 + j]? = some (w.getLsbD (30 - 2 * j)) := by
  rw [dataBits, List.getElem?_append_right (by simp), List.length_map, List.length_range, Nat.add_sub_cancel_left,
    List.getElem?_map, List.getElem?_range hj, Option.map_some]

/-- Bit `i` of `Mod`, counted from the last: bit `63 - i` on the track. -/
theorem getLsbD_refMod (p : Bool) (w : Word) (i : Nat) (hi : i < 64) :
    some ((refMod p w).getLsbD i) = (mfmCells p (dataBits w))[63 - i]? := by
  have hlen : (mfmCells p (dataBits w)).length = 64 := by rw [length_mfmCells, length_dataBits]
  have hlt : 63 - i < (mfmCells p (dataBits w)).length := by omega
  rw [List.getElem?_eq_getElem hlt, ← getMsbD_ofBits hlen (63 - i) hlt, BitVec.getMsbD_eq_getLsbD, refMod,
    decide_eq_true (show 63 - i < 64 by omega), Bool.true_and, show 64 - 1 - (63 - i) = i by omega]

/-- R182: data bit `k` on the track is bit `62 - 2k` of `Mod`. -/
theorem getLsbD_refMod_data (p : Bool) (w : Word) (k : Nat) (hk : k < 32) :
    some ((refMod p w).getLsbD (62 - 2 * k)) = (dataBits w)[k]? := by
  rw [getLsbD_refMod p w _ (by omega), show 63 - (62 - 2 * k) = 2 * k + 1 by omega, getElem?_mfmCells_data]

/-- R182: the clock bit before data bit `k` is bit `63 - 2k` of `Mod`. -/
theorem getLsbD_refMod_clock (p : Bool) (w : Word) (k : Nat) (hk : k < (dataBits w).length) :
    (refMod p w).getLsbD (63 - 2 * k) = (!(p :: dataBits w)[k]'(Nat.lt_succ_of_lt hk) && !(dataBits w)[k]) := by
  have hlen := length_dataBits w
  have hcell := getLsbD_refMod p w (63 - 2 * k) (by omega)
  rw [show 63 - (63 - 2 * k) = 2 * k by omega, getElem?_mfmCells_clock p _ k hk] at hcell
  exact Option.some.inj hcell

/-- R97, R182: a data bit of the odd pass. -/
theorem getLsbD_refMod_odd (p : Bool) (w : Word) (j : Nat) (hj : j < 16) :
    (refMod p w).getLsbD (62 - 2 * j) = w.getLsbD (31 - 2 * j) :=
  Option.some.inj ((getLsbD_refMod_data p w j (by omega)).trans (getElem?_dataBits_odd w j hj))

/-- R97, R182: a data bit of the even pass. -/
theorem getLsbD_refMod_even (p : Bool) (w : Word) (j : Nat) (hj : j < 16) :
    (refMod p w).getLsbD (30 - 2 * j) = w.getLsbD (30 - 2 * j) := by
  have hdata := getLsbD_refMod_data p w (16 + j) (by omega)
  rw [show 62 - 2 * (16 + j) = 30 - 2 * j by omega, getElem?_dataBits_even w j hj] at hdata
  exact Option.some.inj hdata

/-- R182: the first clock bit of a group looks at the raw bit before the group. -/
theorem getLsbD_refMod_firstClock (p : Bool) (w : Word) :
    (refMod p w).getLsbD 63 = (!p && !(refMod p w).getLsbD 62) := by
  have hk : 0 < (dataBits w).length := by rw [length_dataBits]; decide
  have hdata := getLsbD_refMod_data p w 0 (by decide)
  rw [List.getElem?_eq_getElem hk] at hdata
  have hclock := getLsbD_refMod_clock p w 0 hk
  rwa [← Option.some.inj hdata] at hclock

/-- R182: every other clock bit looks at the data bits of the group on both sides. -/
theorem getLsbD_refMod_clockBetween (p : Bool) (w : Word) (k : Nat) (hk : k < 31) :
    (refMod p w).getLsbD (2 * k + 1) = (!(refMod p w).getLsbD (2 * k + 2) && !(refMod p w).getLsbD (2 * k)) := by
  obtain ⟨j, hj⟩ : ∃ j, j + k = 30 := ⟨30 - k, by omega⟩
  have hlen := length_dataBits w
  have hbefore := getLsbD_refMod_data p w j (by omega)
  have hafter := getLsbD_refMod_data p w (j + 1) (by omega)
  have hclock := getLsbD_refMod_clock p w (j + 1) (by omega)
  rw [List.getElem?_eq_getElem (by omega), show 62 - 2 * j = 2 * k + 2 by omega] at hbefore
  rw [List.getElem?_eq_getElem (by omega), show 62 - 2 * (j + 1) = 2 * k by omega] at hafter
  rwa [List.getElem_cons_succ, ← Option.some.inj hbefore, ← Option.some.inj hafter,
    show 63 - 2 * (j + 1) = 2 * k + 1 by omega] at hclock

/-! ### `Demod` -/

/-- R181: the mask of both passes keeps the even places. -/
theorem getLsbD_dataMask : ∀ i < 32, (0x55555555#32).getLsbD i = decide (i % 2 = 0) := by decide

/-- R181: the places of a group that `Demod` takes: an odd data bit from the odd pass, an even one from the even pass. -/
theorem getLsbD_refDemod (g : Group) (i : Nat) (hi : i < 32) :
    (refDemod g).getLsbD i = if i % 2 = 1 then g.getLsbD (i + 31) else g.getLsbD i := by
  simp only [refDemod, BitVec.getLsbD_or, BitVec.getLsbD_shiftLeft, BitVec.getLsbD_and, BitVec.getLsbD_extractLsb',
    getLsbD_dataMask i hi, getLsbD_dataMask (i - 1) (by omega)]
  rcases Nat.mod_two_eq_zero_or_one i with heven | hodd
  · have hprev : i = 0 ∨ (i - 1) % 2 = 1 := by omega
    rcases hprev with rfl | hprev
    · simp
    · simp [heven, hprev, hi]
  · have hprev : (i - 1) % 2 = 0 := by omega
    have hplace : 32 + (i - 1) = i + 31 := by omega
    simp [hodd, hprev, hplace, hi, show i ≠ 0 by omega, show i - 1 < 32 by omega]

/-- R181: `Demod` as the list of the bits it takes, the last one first. -/
theorem refDemod_eq (g : Group) :
    refDemod g = BitVec.ofBoolListLE
      ((List.range 32).map fun i => if i % 2 = 1 then g.getLsbD (i + 31) else g.getLsbD i) := by
  refine BitVec.eq_of_getLsbD_eq fun i hi => (getLsbD_refDemod g i hi).trans ?_
  refine Eq.trans ?_ BitVec.getLsbD_ofBoolListLE.symm
  rw [List.getD_eq_getElem?_getD, List.getElem?_map, List.getElem?_range hi, Option.map_some, Option.getD_some]

theorem theCodec_reference {s : State} (h : s.codec = .reference) : s.theCodec = Codec.reference := by
  simp only [State.theCodec, h]

end Sys2Proof.Machine
end

section
/-! The statements about the requests to the collaborators. -/

namespace Sys2Proof.Machine

/-- Settles O20: a bit or the end, and what each kind of stream has for bits. -/
theorem nextBitDeliversTheNextBit : Obligations.NextBitDeliversTheNextBit := by
  refine fun s => ⟨exec_nextBit_bit s, fun h => ⟨exec_nextBit_end s h, exec_nextBytes_end s h⟩,
    fun h => ⟨s.cursor.bitAt_captured h, s.cursor.advanced_of_captured h⟩,
    fun h => ⟨fun i hi => ?_, fun i => ?_, s.cursor.advanced_revolving h⟩⟩
  · rw [s.cursor.bitAt_revolving h, Nat.mod_eq_of_lt hi]
  · rw [s.cursor.bitAt_revolving h, s.cursor.bitAt_revolving h, Nat.add_mod_right]

/-- Settles O21: the group's bits are those of the cursor's sequence (`Cursor.bitAt_of_upTo`), which `NEXT_BIT` answers one by
one; after `EXH` the cursor stands at its end. -/
theorem nextBytesDeliversSixtyFourBits : Obligations.NextBytesDeliversSixtyFourBits := by
  refine fun s => ⟨fun hthere => ?_, fun n hn hthere hend => ?_⟩
  · have hlen : (s.cursor.upTo 64).length = 64 := Cursor.length_upTo_of_there hthere
    have hg : s.cursor.upTo 64 = toBits (ofBits 64 (s.cursor.upTo 64)) := (toBits_ofBits _ hlen).symm
    refine ⟨_, exec_nextBytes_group s _ hg, fun i hi => ?_⟩
    exact ⟨_, exec_nextBit_bit _ _ (s.cursor.bitAt_of_upTo _ hg i hi), rfl, s.cursor.advanced_advanced i 1⟩
  · have hleft : s.cursor.EndsAfter n := ⟨Cursor.length_upTo_of_there hthere, hend⟩
    exact ⟨_, exec_nextBytes_short s n hleft hn, rfl, exec_nextBit_end _ hend, exec_nextBytes_end _ hend⟩

/-- Settles O22: `exec_offset_before`, `exec_offset_after`, and the point a captured stream counts from. -/
theorem offsetReportsTheLastBit : Obligations.OffsetReportsTheLastBit := by
  refine fun s => ⟨exec_offset_before s, exec_offset_after s, fun hc => ⟨fun b ho hb => ?_, fun k ho => ?_⟩⟩
  · rw [← hc.marksTo_eq] at hb
    exact s.cursor.lastOffset_of_isBase b hc.ne_other ho hb
  · exact s.cursor.lastOffset_of_origin k hc.ne_other ho

/-- Settles O23: a seek with a mark ahead, after a bit or before any, and one with none, on the reference stream. -/
theorem seekIndexRunsToTheNextMark : Obligations.SeekIndexRunsToTheNextMark := by
  intro s hk
  have hstream := s.cursor.seekIndex_reference hk
  have hmarks := s.cursor.marksTo_reference hk
  have hpassed := s.cursor.passed_reference hk
  refine ⟨fun m b hp hm hb => ?_, fun m hp hm => ?_, fun hm hle => ?_⟩
  · rw [← hmarks, ← hpassed] at hm hb
    rw [exec_seekIndex_mark s m b hstream hp hm hb, s.cursor.atMark_reference hk]
    rfl
  · rw [← hmarks, ← hp, ← hpassed] at hm
    rw [exec_seekIndex_before s m hstream hp hm, s.cursor.atMark_reference hk]
  · rw [← hmarks, ← hpassed] at hm
    rw [exec_seekIndex_end s hstream hm, max_eq_right hle]

/-- Settles O25: each request cites the open cursor's own operation; that a seek goes forward is its law (R175). -/
theorem openCursorAnswersForItself : Obligations.OpenCursorAnswersForItself := by
  intro s k hk src
  refine ⟨?_, fun hp => ?_, src.forward _ _, exec_seekIndex_other s k hk⟩
  · have hbit : s.cursor.bitAt s.cursor.pos = src.bitAt s.cursor.pos := by rw [s.cursor.bitAt_other k hk]
    rcases hb : src.bitAt s.cursor.pos with _ | b
    · exact exec_nextBit_end s (hbit.trans hb)
    · rw [exec_nextBit_bit s b (hbit.trans hb), s.cursor.advanced_one_other k hk]
  · rw [exec_offset_after s hp, s.cursor.lastOffset_other k hk]

/-- Settles O26: among the marks the model looks at, `b` is the base and `m` the next mark (`Cursor.isBase_revolving`,
`Cursor.isNextMark_revolving`). -/
theorem revolvingStreamHasItsMarksInEveryTurn : Obligations.RevolvingStreamHasItsMarksInEveryTurn := by
  intro s hk hne hin isMark
  refine ⟨s.cursor.endless_revolving hk hne, fun b hpos ho hlt hb hlast => ?_,
    fun b m p hpos hmemo hp hlt hb hle hm hfirst => ?_⟩
  · have hbase := Cursor.isBase_revolving hk hne hin (Nat.le_succ _) hlt hb hlast
    have hstream (k : Nat) : s.cursor.kind ≠ .other k := by rw [hk]; exact nofun
    rw [exec_offset_after s hpos, s.cursor.lastOffset_of_isBase b hstream ho hbase]
  · have hnear : p ≤ s.cursor.pos + 1 := hp ▸ max_le (Nat.le_succ _) hmemo
    have hbase := Cursor.isBase_revolving hk hne hin hnear hlt hb fun n hbn hnp => hfirst n hbn (hnp.trans_le hle)
    have hnext := Cursor.isNextMark_revolving hk hne hin hnear hlt hle hm hfirst
    exact exec_seekIndex_revolving_mark s p m b hk hpos hp hnext hbase

/-- Settles O27: the law of the codec plugged in (R178). -/
theorem demodTakesBackWhatModAnswers : Obligations.DemodTakesBackWhatModAnswers := by
  refine ⟨fun s p w => ⟨s.theCodec.mod p w, rfl, ?_⟩, fun _ _ => rfl, fun _ _ _ => rfl⟩
  have hword : exec (.demod (s.theCodec.mod p w)) s =
      .next { s with ans := .word (s.theCodec.demod (s.theCodec.mod p w)) } := rfl
  rw [hword, s.theCodec.law p w]

/-- Settles O28: the group is `refMod p w`, its data and clock bits by the lemmas on `refMod`; `Demod` by `refDemod_eq`. -/
theorem referenceCodecLayout : Obligations.ReferenceCodecLayout := by
  intro s p w hs
  have hcodec := theCodec_reference hs
  refine ⟨refMod p w, ?_, fun j hj => ⟨getLsbD_refMod_odd p w j hj, getLsbD_refMod_even p w j hj⟩,
    getLsbD_refMod_firstClock p w, getLsbD_refMod_clockBetween p w, fun h => ?_⟩
  · simp only [exec, execMod, hcodec]
    rfl
  · rw [← refDemod_eq]
    simp only [exec, execDemod, hcodec]
    rfl

/-- Settles O29: `sinkBits_emit` for each kind of emission. -/
theorem emissionsAppendTheirBits : Obligations.EmissionsAppendTheirBits := fun s =>
  ⟨fun n v rate => ⟨_, rfl, rfl, sinkBits_emit (.lit n v rate) s⟩,
    fun w rate => ⟨_, rfl, rfl, sinkBits_emit (.modw w rate) s⟩⟩

end Sys2Proof.Machine
end

section
/-! The statement about a DECODE on an exhausted cursor. -/

namespace Sys2Proof.Machine

/-- Settles O49: the accept step leaves the cursor where it is, so the first scan step (`goes_scanStep`) finds no bit and takes
the failure (`scanStep_exhausted`), after which `RES` and `PHASE` alone differ from the accepted state. -/
theorem decodeOnExhaustedCursorIsNotFound : Obligations.DecodeOnExhaustedCursorIsNotFound := by
  intro s hp hr hend
  obtain ⟨hrun, -⟩ := runSteps_presented hp hr (goes_scanStep (beginDecode s))
  have hscan : scanStep (beginDecode s) = raise .notFound (beginDecode s) := scanStep_exhausted (beginDecode s) hend
  rw [hscan] at hrun
  exact ⟨_, hrun, rfl, rfl, rfl, rfl, rfl⟩

end Sys2Proof.Machine
end

section
/-! SUPPORT. A DECODE that has not yet accepted a candidate, on a cursor that never exhausts (R247): the phases it can be in,
and that each of their steps is enabled and leads to such a phase again, unless it accepts. -/

namespace Sys2Proof.Machine

/-! ### Cursors that never exhaust -/

/-- R177 (c): a cursor's bits are those of its kind and its capture, wherever it stands. -/
theorem Cursor.SameStream.bitAt_eq {c d : Cursor} (h : c.SameStream d) : d.bitAt = c.bitAt := by
  funext i
  rw [Cursor.bitAt, Cursor.bitAt, h.kind, h.bits]

theorem Cursor.SameStream.endless {c d : Cursor} (h : c.SameStream d) (hc : c.endless) : d.endless := by
  rw [Cursor.endless, h.bitAt_eq]
  exact hc

/-- R171: there is always a next bit. -/
theorem Cursor.endless.exists_bit {c : Cursor} (h : c.endless) : ∃ b, c.bitAt c.pos = some b :=
  Option.ne_none_iff_exists'.1 (h c.pos)

/-- R172: there is always a next group. -/
theorem Cursor.endless.exists_group {c : Cursor} (h : c.endless) : ∃ g : Group, c.upTo 64 = toBits g :=
  ⟨ofBits 64 (c.upTo 64), (toBits_ofBits _ (Cursor.length_upTo_of_there fun i _ => h (c.pos + i))).symm⟩

/-! ### A search under way -/

/-- R21, R26, R247: the framer by itself scans, reads a candidate whose words are not all there yet, or is about to check
one. -/
structure State.Searching (s : State) : Prop where
  cmd : s.cmd = none
  issue : s.issue = none
  res : s.res = .none
  phase : s.phase = .dScan ∨ (s.phase = .dRead ∧ s.wcnt < 1536) ∨ s.phase = .dCheck

theorem State.Searching.phase_ne_idle {s : State} (h : s.Searching) : s.phase ≠ .idle := by
  rcases h.phase with hp | ⟨hp, -⟩ | hp <;> rw [hp] <;> decide

theorem State.Searching.phase_ne_dCommit {s : State} (h : s.Searching) : s.phase ≠ .dCommit := by
  rcases h.phase with hp | ⟨hp, -⟩ | hp <;> rw [hp] <;> decide

/-- R121: an accepted DECODE begins its search. -/
theorem searching_beginDecode (s : State) : (setPhase .dScan (beginDecode s)).alone.Searching :=
  ⟨rfl, rfl, rfl, .inl rfl⟩

/-- R122: a scan step with a bit scans on, or begins a candidate that has all its words to come. -/
theorem scanStep_searching {s : State} (h : s.Searching) {b : Bool} (hb : s.cursor.bitAt s.cursor.pos = some b) :
    (scanStep s).Searching := by
  rw [scanStep_bit s b hb, scanBit]
  split
  · exact ⟨h.cmd, h.issue, h.res, .inr (.inl ⟨rfl, Nat.succ_pos _⟩)⟩
  · exact ⟨h.cmd, h.issue, h.res, .inl rfl⟩

/-- R123: a read step with a group and room for its word reads on, or comes to the check. -/
theorem readStep_searching {s : State} (h : s.Searching) {g : Group} (hg : s.cursor.upTo 64 = toBits g)
    (hw : s.wcnt < 1536) : ∃ t, readStep s = .next t ∧ t.Searching := by
  refine ⟨_, readStep_group s g hg hw, h.cmd, h.issue, h.res, ?_⟩
  rcases Nat.lt_or_eq_of_le (Nat.succ_le_of_lt hw) with hmore | hlast
  · exact .inr (.inl ⟨if_neg hmore.ne, hmore⟩)
  · exact .inr (.inr (if_pos hlast))

/-- R124: a check accepts its candidate or goes back to scanning. -/
theorem checkStep_searching {s : State} (h : s.Searching) :
    (checkStep s).phase = .dIndex ∨ (checkStep s).Searching := by
  rw [checkStep]
  split
  · exact .inl rfl
  · exact .inr ⟨h.cmd, h.issue, h.res, .inl rfl⟩

/-! ### Its steps and its runs -/

/-- R247: on an endless cursor every step of a search is enabled; it leaves block and descriptor, and the search goes on unless
the step accepts a candidate. -/
theorem step_searching {s : State} (h : s.Searching) (hc : s.cursor.endless) :
    ∃ t, step s = .next t ∧ s.SameTrack t ∧ (t.phase = .dIndex ∨ t.Searching) := by
  have hstep : ∃ t, step s = .next t ∧ (t.phase = .dIndex ∨ t.Searching) := by
    have hrule (i : Instr) (p : Phase) (hr : p.rule = some i) (hp : s.phase = p) : step s = exec i s :=
      step_running s i h.issue h.cmd (hp ▸ hr)
    rcases h.phase with hp | ⟨hp, hw⟩ | hp
    · obtain ⟨b, hb⟩ := hc.exists_bit
      exact ⟨_, hrule .dScan _ rfl hp, .inr (scanStep_searching h hb)⟩
    · obtain ⟨g, hg⟩ := hc.exists_group
      obtain ⟨t, ht, hs⟩ := readStep_searching h hg hw
      exact ⟨t, (hrule .dRead _ rfl hp).trans ht, .inr hs⟩
    · exact ⟨_, hrule .dCheck _ rfl hp, checkStep_searching h⟩
  obtain ⟨t, ht, hs⟩ := hstep
  have htrack := (step_sameTrack_or_commit h.issue ht).resolve_right fun hcommit => h.phase_ne_dCommit hcommit.1
  exact ⟨t, ht, htrack, hs⟩

/-- R247: a search that accepts no candidate goes on for any number of steps. -/
theorem State.Searching.run (n : Nat) {s : State} (h : s.Searching) (hc : s.cursor.endless)
    (hno : ∀ k t, runSteps k s = .next t → t.phase ≠ .dIndex) :
    ∃ t, runSteps n s = .next t ∧ t.Searching ∧ s.SameTrack t := by
  induction n generalizing s with
  | zero => exact ⟨s, rfl, h, .refl s⟩
  | succ n ih =>
    obtain ⟨t, ht, htrack, hs⟩ := step_searching h hc
    have hsucc (k : Nat) : runSteps (k + 1) s = runSteps k t := by rw [runSteps, ht, andThen_of_next]
    have hno' (k : Nat) (u : State) (hu : runSteps k t = .next u) : u.phase ≠ .dIndex := hno (k + 1) u ((hsucc k).trans hu)
    obtain ⟨u, hu, hsearch, htrack'⟩ :=
      ih (hs.resolve_left (hno' 0 t rfl)) (htrack.scheme.stream.endless hc) hno'
    exact ⟨u, (hsucc n).trans hu, hsearch, htrack.trans htrack'⟩

end Sys2Proof.Machine
end

section
/-! The statement about a DECODE on a cursor that never exhausts. -/

namespace Sys2Proof.Machine

/-- Settles O48: the accept step (`step_presented_ready`) begins a search, and a search that never comes to `D_INDEX` runs on
(`State.Searching.run`, by induction on the number of steps), in progress, without a result, the track as it was. -/
theorem endlessDecodeRunsForEver : Obligations.EndlessDecodeRunsForEver := by
  intro s hp hr hc hno n hn
  obtain ⟨k, rfl⟩ : ∃ k, n = k + 1 := Nat.exists_eq_succ_of_ne_zero hn.ne'
  have hsucc (j : Nat) : runSteps (j + 1) s = runSteps j (setPhase .dScan (beginDecode s)).alone := by
    rw [runSteps, step_presented_ready s hp hr, andThen_of_next]
  obtain ⟨t, ht, hs, htrack⟩ := (searching_beginDecode s).run k hc fun j t ht => hno (j + 1) t ((hsucc j).trans ht)
  exact ⟨t, (hsucc k).trans ht, hs.phase_ne_idle, hs.res, htrack.desc, htrack.blk⟩

end Sys2Proof.Machine
end
